-- ==== Sys2Proof/Word.lean ====
section
/-!
DEFINITION. The word types of the block: every host-visible register is a 32-bit slot (00_scope.md R3 `REG_WIDTH`,
`Config.regWidth`), header fields are unsigned integers of their stated width (R7), PBUF holds bytes (20_memory.md R70).
-/
namespace Sys2Proof

/-- A host-visible register value. -/
abbrev Word := BitVec 32

/-- A 16-bit wire field or checksum. -/
abbrev Half := BitVec 16

/-- One byte of PBUF. -/
abbrev Byte := BitVec 8

end Sys2Proof
end

