-- ==== Sys2Proof/Config.lean ====
section
/-!
DEFINITION. What an implementation fixes (00_scope.md R3) and the one free value of the spec. `LATENCY` is not a
number here: it is how many host turns stand before the engine's turn in `State.sched` (70_reset_and_hazards.md R362,
log 2).
-/
namespace Sys2Proof

/-- `REG_WIDTH` (R3): the width of every host-visible register, which is the width of `Word`. -/
def Config.regWidth : Nat := 32

/-- `CSUM_ACC_WIDTH` (R3): the checksum accumulator's width; no sum the block computes overflows it (R6). -/
def Config.csumAccWidth : Nat := 32

/-- The least legal `PBUF_SIZE` (R3). -/
def Config.pbufSizeMin : Nat := 80

/-- The default of `PBUF_SIZE` (R3), which the spec takes for the hardware. The size itself is an argument of the
machine, `PacketBuffer.size` (93_implementation_defined.md I16, log 1). -/
def Config.pbufSize : Nat := 65536

/-- `OPT_MAX` (R4): entries of the option list. -/
def Config.optMax : Nat := 40

/-- `SACK_MAX` (R5): SACK blocks of one option entry. -/
def Config.sackMax : Nat := 4

/-- The value a host read during BUSY draws from a location the running command may write
(70_reset_and_hazards.md R353, 93_implementation_defined.md I3). FREE VALUE, no body: the n-th draw. Log 5. -/
opaque Config.freeRead : Nat → Word

end Sys2Proof
end

