-- ==== Sys2Proof/Syntax.lean ====
section
/-!
DEFINITION. Syntax: the instructions of spec/opcode_table.json (commands and TCP option kinds), the TCP option
variants with their payloads, the named registers, and the host's program statements.
-/
namespace Sys2Proof

/-- One constructor per row of spec/opcode_table.json. A command takes no field from its word (30_encoding.md R122);
an option kind's payload lies in PBUF behind the kind byte (R108). -/
inductive Instr where
  | ipDecode
  | ipEncode
  | tcpDecode
  | tcpEncode
  | ipCsum
  | tcpCsum
  | dispatch
  | frameEncode
  | illegal0
  | illegal9
  | illegalA
  | illegalB
  | illegalC
  | illegalD
  | illegalE
  | illegalF
  | optEol
  | optNop
  | optMss
  | optWs
  | optSackp
  | optSack
  | optTs
  | optUto
  | optAuth
  | optMptcp
  deriving DecidableEq, Repr

/-- The two word spaces of the opcode table: a 32-bit write to CMD (30_encoding.md R120, R123) and the kind byte of a
TCP option (R106, R107). -/
inductive InstrWord where
  | command (w : Word)
  | optionKind (k : Byte)
  deriving DecidableEq, Repr

/-- The supported TCP option variants with their payloads (10_state.md R43, R46). -/
inductive TcpOption where
  | endOfList
  | noOp
  | maximumSegmentSize (value : Half)
  | windowScale (shift : Byte)
  | sackPermitted
  | sack (blocks : List (Word × Word))
  | timestamp (value echoReply : Word)
  | userTimeout (ms : Half)
  deriving DecidableEq, Repr

/-- The named registers of the register map (10_state.md sections 2.1 to 2.4). `reserved` stands for every offset no
table names (R21), among them word w11 of an option entry (R44). -/
inductive Reg where
  | cmd | status | ctrl | argStart | argLen | argAux | resultLen | errInfo | csumResult
  | localAddr | localPort | fkSrcAddr | fkDstAddr | fkSrcPort | fkDstPort | payloadOff | payloadLen
  | iphVersion | iphIhl | iphDscp | iphEcn | iphTotlen | iphId | iphFrag | iphFragoff | iphTtl | iphProto
  | iphCsum | iphSrc | iphDst
  | tcphSport | tcphDport | tcphSeq | tcphAck | tcphDoff | tcphFlags | tcphWin | tcphCsum | tcphUrg | tcphOptcnt
  | opt (entry word : Nat)
  | reserved
  deriving DecidableEq, Repr

/-- A value a host program writes: a constant, or a host temporary read earlier (30_encoding.md R130). -/
inductive HostValue where
  | const (v : Word)
  | temp (t : Nat)
  deriving DecidableEq, Repr

/-- One host action (30_encoding.md R130): one bus transaction, or one computation the block never sees.
Temporaries and labels are numbered. -/
inductive HostOp where
  | bufWrite (i : Nat) (b : Byte)
  | bufRead (i : Nat)
  | regWrite (off : Nat) (v : HostValue)
  | regRead (off : Nat) (t : Nat)
  | branchZero (t : Nat) (mask : Word) (l : Nat)
  | label (l : Nat)
  deriving DecidableEq, Repr

/-- The host statements and pseudo-statements of 30_encoding.md R130 and R131, before expansion. `l` and `t` of the
waiting statements are the label and temporary their polling loop uses. -/
inductive HostStmt where
  | bufw (i : Nat) (bytes : List Byte)
  | bufr (i k : Nat)
  | wr (r : Reg) (v : HostValue)
  | rd (r : Reg) (t : Nat)
  | cmd (op : BitVec 4)
  | bz (t : Nat) (mask : Word) (l : Nat)
  | label (l : Nat)
  | wait (l t : Nat)
  | run (op : BitVec 4) (args : List HostValue) (l t : Nat)
  | ack
  deriving DecidableEq, Repr

end Sys2Proof
end

