-- ==== Sys2Proof/WellFormed.lean ====
section
/-!
DEFINITION. Well-formedness of syntax. An instruction has no operand field (30_encoding.md R122), so every `Instr` is
well formed; what can be ill formed is an option list's entry (00_scope.md R5), a command or kind word, and a host
action (20_memory.md R80 to R84).
-/
namespace Sys2Proof

/-- Every constructor of `Instr` is well formed: the table gives no row an operand. -/
def Instr.wellFormed (_ : Instr) : Bool := true

/-- A SACK option holds at most `SACK_MAX` blocks (00_scope.md R5); the other variants carry no bound. -/
def TcpOption.wellFormed : TcpOption → Bool
  | .sack blocks => decide (blocks.length ≤ Config.sackMax)
  | _ => true

/-- A register offset the host may use: a multiple of 4, at most 0x87C (20_memory.md R80, R84). -/
def regOffsetOk (off : Nat) : Bool := off % 4 == 0 && decide (off ≤ 0x87C)

/-- A named register that exists: an option entry's words are w0 to w10 of entries 0 to 39 (10_state.md R44). -/
def Reg.wellFormed : Reg → Bool
  | .opt i w => decide (i < Config.optMax) && decide (w < 11)
  | _ => true

/-- A host action the ports of a block with `PBUF_SIZE` = `size` accept (20_memory.md R84). -/
def HostOp.wellFormed (size : Nat) : HostOp → Bool
  | .bufWrite i _ => decide (i < size)
  | .bufRead i => decide (i < size)
  | .regWrite off _ => regOffsetOk off
  | .regRead off _ => regOffsetOk off
  | .branchZero _ _ _ => true
  | .label _ => true

end Sys2Proof
end

