-- ==== Sys2Proof/Decode.lean ====
section
/-!
DEFINITION. Decoding of the two word spaces of the opcode table, and the encoder written from the same tables
(30_encoding.md R107, R120, R121).
-/
namespace Sys2Proof

/-- Why a word decodes to no instruction: a kind byte outside the table (30_encoding.md R107, "any other"). No command
word is rejected (R121: an illegal opcode is an instruction that completes with ILLEGAL_CMD). -/
inductive DecodeError where
  | unknownKind (k : Byte)
  deriving DecidableEq, Repr

/-- The opcode map (30_encoding.md R120) on the opcode OP. -/
def decodeOp (op : BitVec 4) : Instr :=
  match op.toNat with
  | 0 => .illegal0
  | 1 => .ipDecode
  | 2 => .ipEncode
  | 3 => .tcpDecode
  | 4 => .tcpEncode
  | 5 => .ipCsum
  | 6 => .tcpCsum
  | 7 => .dispatch
  | 8 => .frameEncode
  | 9 => .illegal9
  | 10 => .illegalA
  | 11 => .illegalB
  | 12 => .illegalC
  | 13 => .illegalD
  | 14 => .illegalE
  | _ => .illegalF

/-- The opcode field of a command word: bits [3:0]; bits [31:4] are ignored (30_encoding.md R120, R121). -/
def opOfWord (w : Word) : BitVec 4 := w.extractLsb' 0 4

/-- A command word's instruction (30_encoding.md R120). -/
def decodeCommand (w : Word) : Instr := decodeOp (opOfWord w)

/-- An option's instruction, selected by its kind byte (30_encoding.md R107). -/
def decodeOptionKind (k : Byte) : Except DecodeError Instr :=
  match k.toNat with
  | 0 => .ok .optEol
  | 1 => .ok .optNop
  | 2 => .ok .optMss
  | 3 => .ok .optWs
  | 4 => .ok .optSackp
  | 5 => .ok .optSack
  | 8 => .ok .optTs
  | 28 => .ok .optUto
  | 29 => .ok .optAuth
  | 30 => .ok .optMptcp
  | _ => .error (.unknownKind k)

/-- The decoder over both spaces. -/
def decodeInstr : InstrWord → Except DecodeError Instr
  | .command w => .ok (decodeCommand w)
  | .optionKind k => decodeOptionKind k

/-- The word of an instruction: a command with its ignored bits zero, or a kind byte (30_encoding.md R107, R120). -/
def encode : Instr → InstrWord
  | .illegal0 => .command 0x0
  | .ipDecode => .command 0x1
  | .ipEncode => .command 0x2
  | .tcpDecode => .command 0x3
  | .tcpEncode => .command 0x4
  | .ipCsum => .command 0x5
  | .tcpCsum => .command 0x6
  | .dispatch => .command 0x7
  | .frameEncode => .command 0x8
  | .illegal9 => .command 0x9
  | .illegalA => .command 0xA
  | .illegalB => .command 0xB
  | .illegalC => .command 0xC
  | .illegalD => .command 0xD
  | .illegalE => .command 0xE
  | .illegalF => .command 0xF
  | .optEol => .optionKind 0
  | .optNop => .optionKind 1
  | .optMss => .optionKind 2
  | .optWs => .optionKind 3
  | .optSackp => .optionKind 4
  | .optSack => .optionKind 5
  | .optTs => .optionKind 8
  | .optUto => .optionKind 28
  | .optAuth => .optionKind 29
  | .optMptcp => .optionKind 30

/-- Which space a table word lies in (log 11). The table's command rows fix bits [3:0] and its option rows bits [7:0],
so a one-byte word above 15 can only be a kind byte; every other word is read as a command word. -/
def tableSpace (nbits w : Nat) : InstrWord :=
  if nbits ≤ 8 ∧ 16 ≤ w then .optionKind (BitVec.ofNat 8 w) else .command (BitVec.ofNat 32 w)

/-- The instruction the decoder reads from a word numbered as spec/opcode_table.json numbers it. -/
def decodeTableWord (nbits w : Nat) : Option Instr :=
  match decodeInstr (tableSpace nbits w) with
  | .ok i => some i
  | .error _ => none

end Sys2Proof
end

