-- ==== Sys2Proof/Machine/State.lean ====
section
/-!
DEFINITION. The state the spec gives the block (10_state.md R50), the model's two agents' data, the reasons a step can
stop, and the state after reset (70_reset_and_hazards.md R340).
-/
namespace Sys2Proof.Machine

/-- Faults: the machine stops. All are safe: the model stops where the hardware goes on with a value the spec leaves
open. -/
inductive Fault where
  /-- A command, an option walk or the host reads PBUF byte `i` that nothing has written (10_state.md R48, I1). Safe. -/
  | unwrittenPbuf (i : Nat)
  /-- A command or the host reads word `w` of option entry `i` that nothing has written (10_state.md R48, I1). Safe. -/
  | unwrittenOpt (i w : Nat)
  /-- The engine reads an index at or above `PBUF_SIZE`, an address that does not exist (20_memory.md R70); no command
  does so after its BOUNDS check. Safe. Log 10. -/
  | noSuchByte (i : Nat)
  /-- The host writes an IPH, TCPH, OPT or LOCAL register while BUSY (70_reset_and_hazards.md R354, I4). Safe. -/
  | hazardReg (off : Nat)
  /-- The host writes a PBUF byte while BUSY (70_reset_and_hazards.md R354, I4). Safe. -/
  | hazardBuf (i : Nat)
  deriving DecidableEq, Repr

/-- Refusals: the step has no meaning. All are safe. -/
inductive Refusal where
  /-- An instruction without a meaning yet; raised only by `exec`'s arms. Safe. -/
  | notModelled (mnemonic : String)
  /-- A host register access that is misaligned or above 0x87C (20_memory.md R84, I2). Safe. -/
  | regOffset (off : Nat)
  /-- A host buffer access at or above `PBUF_SIZE` (20_memory.md R84, I2). Safe. -/
  | bufIndex (i : Nat)
  /-- The host program uses a temporary it never read (outside the syntax of 30_encoding.md R130). Safe. Log 3. -/
  | hostTemp (t : Nat)
  /-- The host program branches to a label it does not hold (outside 30_encoding.md R130). Safe. Log 3. -/
  | hostLabel (l : Nat)
  deriving DecidableEq, Repr

/-- The error names of 60_exceptions.md R300. -/
inductive Err where
  | ipShort | ipVersion | ipFragBoth | ipHdrLen | tcpShort | tcpDoff | tcpOptUnknown | tcpOptUnsupported | tcpOptLen
  | encBuf | encIpLen | encTotlenMismatch | encOptLen | encFrag | bounds | illegalCmd | csumLen | frameLen
  deriving DecidableEq, Repr

/-- The dispositions of 43_dispatcher.md R262. -/
inductive Disp where
  | none | accept | dropShort | dropVersion | dropProto | dropPort | decodeError
  deriving DecidableEq, Repr

/-- How a command ends before its own end: `raise E(info)` and `drop D` (00_scope.md R10), or a fault of the model. -/
inductive Stop where
  | raise (e : Err) (info : Word)
  | drop (d : Disp)
  | fault (f : Fault)
  deriving DecidableEq, Repr

/-- The fields of STATUS (10_state.md R24). -/
structure Status where
  busy : Bool
  done : Bool
  err : Bool
  ovr : Bool
  csumOk : Bool
  errcode : Byte
  disp : BitVec 4
  deriving DecidableEq, Repr

/-- The IPv4 header registers (10_state.md R37); IPH_VERSION is hardwired and has no storage (R38). -/
structure IpHeader where
  ihl : BitVec 4
  dscp : BitVec 6
  ecn : BitVec 2
  totlen : Half
  id : Half
  frag : BitVec 2
  fragoff : BitVec 13
  ttl : Byte
  proto : Byte
  csum : Half
  src : Word
  dst : Word
  deriving DecidableEq, Repr

/-- The TCP header registers (10_state.md R40) but for TCPH_OPTCNT, which is a field of `State`. -/
structure TcpHeader where
  sport : Half
  dport : Half
  seq : Word
  ack : Word
  doff : BitVec 4
  flags : Byte
  win : Half
  csum : Half
  urg : Half
  deriving DecidableEq, Repr

/-- The flow-key registers (10_state.md R35). -/
structure FlowKey where
  srcAddr : Word
  dstAddr : Word
  srcPort : Half
  dstPort : Half
  deriving DecidableEq, Repr

/-- The hidden latches (10_state.md R47). -/
structure Latch where
  op : BitVec 4
  start : Word
  len : Word
  aux : Word
  deriving DecidableEq, Repr

/-- The working copy of a running option walk (00_scope.md R9, 41_tcp_codec.md R181): TCP header start, header length,
offset of the next option, options so far. The model's own field, log 8. -/
structure Walk where
  active : Bool
  base : Nat
  hl : Nat
  p : Nat
  opts : List TcpOption
  deriving DecidableEq, Repr

/-- The host agent: its program, the position of its next action, its temporaries and the bytes it has read from PBUF
(30_encoding.md R130). The model's own field, log 3. -/
structure HostCtx where
  prog : List HostOp
  pos : Nat
  temps : List (Nat × Word)
  received : List Byte
  deriving DecidableEq, Repr

/-- Who takes a step (60_exceptions.md R312): the host, the engine's completion, one option of a running option walk,
or reset. -/
inductive Turn where
  | host | engine | walk | reset
  deriving DecidableEq, Repr

/-- PBUF (20_memory.md R70): `PBUF_SIZE`, fixed for the machine (00_scope.md R3, log 1), and the written bytes. -/
structure PacketBuffer where
  size : Nat
  bytes : List Host.Cell
  deriving DecidableEq, Repr

/-- The whole state (10_state.md R50). `opt` lists the written words of the option storage, word w of entry i under key
12 i + w; `pbuf.bytes` lists the written bytes. An unlisted word or byte is unwritten (R48). -/
structure State where
  status : Status
  cmd : BitVec 4
  ie : Bool
  argStart : Word
  argLen : Word
  argAux : Word
  resultLen : Word
  errInfo : Word
  csumResult : Half
  localAddr : Word
  localPort : Half
  fk : FlowKey
  payloadOff : Word
  payloadLen : Word
  iph : IpHeader
  tcph : TcpHeader
  optcnt : BitVec 6
  opt : List (Nat × Word)
  pbuf : PacketBuffer
  latch : Latch
  walk : Walk
  draws : Nat
  host : HostCtx
  sched : List Turn
  deriving DecidableEq, Repr

/-- No option walk is running. -/
def Walk.idle : Walk := { active := false, base := 0, hl := 0, p := 0, opts := [] }

/-- The state after reset of a block whose PBUF has `size` bytes (70_reset_and_hazards.md R340), with an idle host and no
turn scheduled (log 2, log 3). -/
def State.resetWith (size : Nat) : State where
  status := { busy := false, done := false, err := false, ovr := false, csumOk := false, errcode := 0, disp := 0 }
  cmd := 0
  ie := false
  argStart := 0
  argLen := 0
  argAux := 0
  resultLen := 0
  errInfo := 0
  csumResult := 0
  localAddr := 0
  localPort := 0
  fk := { srcAddr := 0, dstAddr := 0, srcPort := 0, dstPort := 0 }
  payloadOff := 0
  payloadLen := 0
  iph := { ihl := 0, dscp := 0, ecn := 0, totlen := 0, id := 0, frag := 0, fragoff := 0, ttl := 0, proto := 0,
           csum := 0, src := 0, dst := 0 }
  tcph := { sport := 0, dport := 0, seq := 0, ack := 0, doff := 0, flags := 0, win := 0, csum := 0, urg := 0 }
  optcnt := 0
  opt := []
  pbuf := { size := size, bytes := [] }
  latch := { op := 0, start := 0, len := 0, aux := 0 }
  walk := Walk.idle
  draws := 0
  host := { prog := [], pos := 0, temps := [], received := [] }
  sched := []

/-- The state after reset of the block the spec describes: `PBUF_SIZE` at its default (00_scope.md R3). -/
def State.reset : State := State.resetWith Config.pbufSize

end Sys2Proof.Machine
end

