-- ==== Sys2Proof/Machine/Flags.lean ====
section
/-!
DEFINITION. The status word: error codes (60_exceptions.md R300), dispositions (43_dispatcher.md R262), the packing of
STATUS (10_state.md R24), its write-one-to-clear bits (R25), the interrupt output (R49), and the three status values a
completion leaves (60_exceptions.md R303, R304; 43_dispatcher.md R263).
-/
namespace Sys2Proof.Machine

/-- `code(E)` (60_exceptions.md R300). -/
def errCode : Err → Byte
  | .ipShort => 0x01
  | .ipVersion => 0x02
  | .ipFragBoth => 0x03
  | .ipHdrLen => 0x04
  | .tcpShort => 0x05
  | .tcpDoff => 0x06
  | .tcpOptUnknown => 0x07
  | .tcpOptUnsupported => 0x08
  | .tcpOptLen => 0x09
  | .encBuf => 0x0A
  | .encIpLen => 0x0B
  | .encTotlenMismatch => 0x0C
  | .encOptLen => 0x0D
  | .encFrag => 0x0E
  | .bounds => 0x0F
  | .illegalCmd => 0x10
  | .csumLen => 0x11
  | .frameLen => 0x12

/-- The disposition codes (43_dispatcher.md R262). -/
def dispCode : Disp → BitVec 4
  | .none => 0
  | .accept => 1
  | .dropShort => 2
  | .dropVersion => 3
  | .dropProto => 4
  | .dropPort => 5
  | .decodeError => 6

/-- STATUS as the host reads it (10_state.md R24): DISP in [19:16], ERRCODE in [15:8], CSUM_OK 4, OVR 3, ERR 2, DONE 1,
BUSY 0, every other bit 0. -/
def statusWord (s : Status) : Word :=
  (0 : BitVec 12) ++ s.disp ++ s.errcode ++ (0 : BitVec 3) ++ BitVec.ofBool s.csumOk ++ BitVec.ofBool s.ovr
    ++ BitVec.ofBool s.err ++ BitVec.ofBool s.done ++ BitVec.ofBool s.busy

/-- A host write of `v` to STATUS (10_state.md R25): bit 1 clears DONE, bit 3 clears OVR, nothing else acts. -/
def statusAck (s : Status) (v : Word) : Status :=
  { s with done := s.done && !v.getLsbD 1, ovr := s.ovr && !v.getLsbD 3 }

/-- STATUS at issue (70_reset_and_hazards.md R350). -/
def statusIssue (s : Status) : Status := { s with busy := true, done := false }

/-- STATUS after a success commit (60_exceptions.md R303); OVR is kept. -/
def statusOk (s : Status) (csumOk isDispatch : Bool) : Status :=
  { busy := false, done := true, err := false, ovr := s.ovr, csumOk := csumOk, errcode := 0,
    disp := dispCode (if isDispatch then .accept else .none) }

/-- The disposition an error commit leaves (60_exceptions.md R304): 6 in a DISPATCH, but for BOUNDS. -/
def errDisp (isDispatch : Bool) (e : Err) : Disp :=
  if isDispatch && !(e == .bounds) then .decodeError else .none

/-- STATUS after an error commit (60_exceptions.md R304); OVR is kept. -/
def statusErr (s : Status) (e : Err) (isDispatch : Bool) : Status :=
  { busy := false, done := true, err := true, ovr := s.ovr, csumOk := false, errcode := errCode e,
    disp := dispCode (errDisp isDispatch e) }

/-- STATUS after a drop commit (43_dispatcher.md R263); OVR is kept. -/
def statusDrop (s : Status) (d : Disp) : Status :=
  { busy := false, done := true, err := false, ovr := s.ovr, csumOk := false, errcode := 0, disp := dispCode d }

/-- The interrupt output (10_state.md R49, 60_exceptions.md R310). -/
def irq (s : State) : Bool := s.ie && s.status.done

end Sys2Proof.Machine
end

