-- ==== Sys2Proof/Machine/Ops.lean ====
section
/-!
DEFINITION. The named operations over storage and state: the sparse cells behind PBUF and OPT, the reads that fault on
an unwritten location (10_state.md R48), the updates of State, and how a command completes: the success, error and
drop commits (60_exceptions.md R303, R304; 43_dispatcher.md R263). The error commit is the block's "trap"
(60_exceptions.md R307); the host's return from it is the acknowledgement `ackStatus` (R308).
-/
namespace Sys2Proof.Machine

variable {α : Type}

/-- The value written at key `a`, if any. -/
def cellGet : List (Nat × α) → Nat → Option α
  | [], _ => none
  | c :: r, a => if c.1 = a then some c.2 else cellGet r a

/-- Write `v` at key `a`, keeping the keys in rising order. -/
def cellPut : List (Nat × α) → Nat → α → List (Nat × α)
  | [], a, v => [(a, v)]
  | c :: r, a, v =>
    if a < c.1 then (a, v) :: c :: r else if a = c.1 then (a, v) :: r else c :: cellPut r a v

/-- Write consecutive values from key `a` on. -/
def cellPutList : List (Nat × α) → Nat → List α → List (Nat × α)
  | l, _, [] => l
  | l, a, v :: vs => cellPutList (cellPut l a v) (a + 1) vs

/-- The canonical form of a sparse store: keys strictly rising, each one allowed. -/
abbrev cellsWf (ok : Nat → Prop) (l : List (Nat × α)) : Prop :=
  l.Pairwise (fun x y => x.1 < y.1) ∧ ∀ c ∈ l, ok c.1

/-- PBUF in canonical form: a legal size (00_scope.md R3), strictly rising addresses below it (20_memory.md R70). -/
abbrev pbufWf (m : PacketBuffer) : Prop :=
  Config.pbufSizeMin ≤ m.size ∧ cellsWf (fun k => k < m.size) m.bytes

/-- OPT in canonical form: keys 12 i + w of entries i < 40 and words w ≤ 10 (10_state.md R44), and no bit of w0 above
bit 10 (R45). -/
abbrev optWf (o : List (Nat × Word)) : Prop :=
  cellsWf (fun k => k < 12 * Config.optMax ∧ k % 12 ≠ 11) o ∧ ∀ c ∈ o, c.1 % 12 = 0 → c.2.toNat < 2 ^ 11

/-- The canonical form of the machine's two stores. -/
abbrev memWf (s : State) : Prop := pbufWf s.pbuf ∧ optWf s.opt

/-- End a command unless the check passes (00_scope.md R10). -/
def failIf (c : Prop) [Decidable c] (e : Stop) : Except Stop Unit := if c then .error e else .ok ()

/-- `PBUF[i]` as the engine reads it (00_scope.md R8, 10_state.md R48). -/
def readByte (m : PacketBuffer) (i : Nat) : Except Stop Byte :=
  if i < m.size then
    match cellGet m.bytes i with
    | some b => .ok b
    | none => .error (.fault (.unwrittenPbuf i))
  else .error (.fault (.noSuchByte i))

/-- Write byte `b` at PBUF index `i` (20_memory.md R83). -/
def pbufPut (m : PacketBuffer) (i : Nat) (b : Byte) : PacketBuffer := { m with bytes := cellPut m.bytes i b }

/-- Write the bytes `bs` from PBUF index `a` on (00_scope.md R8). -/
def pbufPutList (m : PacketBuffer) (a : Nat) (bs : List Byte) : PacketBuffer :=
  { m with bytes := cellPutList m.bytes a bs }

/-- The `n` bytes from PBUF index `a` on, read in index order. -/
def readBytes (m : PacketBuffer) : Nat → Nat → Except Stop (List Byte)
  | _, 0 => .ok []
  | a, n + 1 => do
    let b ← readByte m a
    let r ← readBytes m (a + 1) n
    pure (b :: r)

/-- The key of word `w` of option entry `i` (10_state.md R44). -/
def optKey (i w : Nat) : Nat := 12 * i + w

/-- Word `w` of `OPT[i]` as a command reads it (10_state.md R48). -/
def readOpt (o : List (Nat × Word)) (i w : Nat) : Except Stop Word :=
  match cellGet o (optKey i w) with
  | some v => .ok v
  | none => .error (.fault (.unwrittenOpt i w))

def setStatus (s : State) (v : Status) : State := { s with status := v }
def setResultLen (s : State) (v : Word) : State := { s with resultLen := v }
def setErrInfo (s : State) (v : Word) : State := { s with errInfo := v }
def setCsumResult (s : State) (v : Half) : State := { s with csumResult := v }
def setIph (s : State) (h : IpHeader) : State := { s with iph := h }
def setPbuf (s : State) (m : PacketBuffer) : State := { s with pbuf := m }
def setOpt (s : State) (o : List (Nat × Word)) : State := { s with opt := o }
def setWalk (s : State) (w : Walk) : State := { s with walk := w }
def setHost (s : State) (h : HostCtx) : State := { s with host := h }
def setSched (s : State) (t : List Turn) : State := { s with sched := t }
def setDraws (s : State) (n : Nat) : State := { s with draws := n }

/-- Write the TCP header registers and the option count. -/
def setTcph (s : State) (h : TcpHeader) (n : BitVec 6) : State := { s with tcph := h, optcnt := n }

/-- Write the flow key and the payload descriptor (43_dispatcher.md R270, R271). -/
def setFlow (s : State) (k : FlowKey) (off len : Word) : State :=
  { s with fk := k, payloadOff := off, payloadLen := len }

/-- Issue of opcode `op` (70_reset_and_hazards.md R350): CMD, the latches, BUSY and DONE. -/
def issue (s : State) (op : BitVec 4) : State :=
  { s with
    cmd := op
    latch := { op := op, start := s.argStart, len := s.argLen, aux := s.argAux }
    status := statusIssue s.status
    walk := Walk.idle }

/-- The success commit of working copy `w` (60_exceptions.md R303). -/
def commitOk (w : State) (csumOk isDispatch : Bool) : State :=
  setWalk (setErrInfo (setStatus w (statusOk w.status csumOk isDispatch)) 0) Walk.idle

/-- The error commit (60_exceptions.md R304): the working copy is discarded; STATUS, ERR_INFO and RESULT_LEN change. -/
def commitErr (s : State) (e : Err) (info : Word) (isDispatch : Bool) : State :=
  setWalk (setResultLen (setErrInfo (setStatus s (statusErr s.status e isDispatch)) info) 0) Walk.idle

/-- The drop commit (43_dispatcher.md R263). -/
def commitDrop (s : State) (d : Disp) : State :=
  setWalk (setResultLen (setErrInfo (setStatus s (statusDrop s.status d)) 0) 0) Walk.idle

/-- The completion step (70_reset_and_hazards.md R352): the commit that fits how the command's pseudocode ended on the
state at issue `s`. On success it gives the working copy and its csum_ok. -/
def finish (s : State) (isDispatch : Bool) (r : Except Stop (State × Bool)) : Host.Outcome State Fault Refusal :=
  match r with
  | .ok (w, csumOk) => .next (commitOk w csumOk isDispatch)
  | .error (.raise e info) => .next (commitErr s e info isDispatch)
  | .error (.drop d) => .next (commitDrop s d)
  | .error (.fault f) => .fault f

/-- The host's acknowledgement, a write of `v` to STATUS (10_state.md R25, 60_exceptions.md R308). -/
def ackStatus (s : State) (v : Word) : State := setStatus s (statusAck s.status v)

/-- Reset (70_reset_and_hazards.md R340, R341). `PBUF_SIZE` is fixed for the machine (00_scope.md R3); the host's program, the schedule and the count of free values drawn are
no part of the block and stay (log 12). -/
def resetBlock (s : State) : State :=
  { State.resetWith s.pbuf.size with host := s.host, sched := s.sched, draws := s.draws }

/-- The range check of every command that touches PBUF (20_memory.md R75), on exact naturals (00_scope.md R7). -/
def checkBounds (m : PacketBuffer) (l : Latch) : Except Stop Unit :=
  failIf (m.size < l.start.toNat + l.len.toNat) (.raise .bounds 0)

end Sys2Proof.Machine
end

