-- ==== Sys2Proof/Machine/Operands.lean ====
section
/-!
DEFINITION. The operand forms: big-endian assembly (00_scope.md R8), the IPv4 and TCP field layouts
(30_encoding.md R100 to R104), the option forms (R107, R108, 41_tcp_codec.md R182 to R193), the parsers and images the
commands share (40_ipv4_codec.md R150, R151; 41_tcp_codec.md R180, R181, R194).
-/
namespace Sys2Proof.Machine

/-! ### Byte order -/

/-- `bytes16(v)` (00_scope.md R8). -/
def bytes16 (v : Half) : List Byte := [v.extractLsb' 8 8, v.extractLsb' 0 8]

/-- `bytes32(v)` (00_scope.md R8). -/
def bytes32 (v : Word) : List Byte :=
  [v.extractLsb' 24 8, v.extractLsb' 16 8, v.extractLsb' 8 8, v.extractLsb' 0 8]

/-- Byte `i` of a byte list. -/
def byteAt (bs : List Byte) (i : Nat) : Byte := bs.getD i 0

/-- `BE16(bs, i)` (00_scope.md R8). -/
def be16 (bs : List Byte) (i : Nat) : Half := byteAt bs i ++ byteAt bs (i + 1)

/-- `BE32(bs, i)` (00_scope.md R8). -/
def be32 (bs : List Byte) (i : Nat) : Word :=
  byteAt bs i ++ byteAt bs (i + 1) ++ byteAt bs (i + 2) ++ byteAt bs (i + 3)

/-- `MemRead(a, 2)` (00_scope.md R8). -/
def memRead16 (m : PacketBuffer) (a : Nat) : Except Stop Half := do
  let bs ← readBytes m a 2
  pure (be16 bs 0)

/-- `MemRead(a, 4)` (00_scope.md R8). -/
def memRead32 (m : PacketBuffer) (a : Nat) : Except Stop Word := do
  let bs ← readBytes m a 4
  pure (be32 bs 0)

/-! ### IPv4 header -/

/-- The IPv4 fields of a 20-byte image (30_encoding.md R101); the reserved flag bit is ignored (R102). -/
def ipFields (b : List Byte) : IpHeader where
  ihl := (byteAt b 0).extractLsb' 0 4
  dscp := (byteAt b 1).extractLsb' 2 6
  ecn := (byteAt b 1).extractLsb' 0 2
  totlen := be16 b 2
  id := be16 b 4
  frag := if (byteAt b 6).getLsbD 6 then 1 else if (byteAt b 6).getLsbD 5 then 2 else 0
  fragoff := (byteAt b 6).extractLsb' 0 5 ++ byteAt b 7
  ttl := byteAt b 8
  proto := byteAt b 9
  csum := be16 b 10
  src := be32 b 12
  dst := be32 b 16

/-- The 20 bytes of an IPv4 header whose IPH_FRAG is legal (30_encoding.md R100, R102); `z` zeroes the checksum. -/
def ipBytes (z : Bool) (h : IpHeader) : List Byte :=
  [(4 : BitVec 4) ++ h.ihl, h.dscp ++ h.ecn]
    ++ bytes16 h.totlen ++ bytes16 h.id
    ++ [(0 : BitVec 1) ++ BitVec.ofBool (h.frag == 1) ++ BitVec.ofBool (h.frag == 2) ++ h.fragoff.extractLsb' 8 5,
        h.fragoff.extractLsb' 0 8, h.ttl, h.proto]
    ++ (if z then [0, 0] else bytes16 h.csum)
    ++ bytes32 h.src ++ bytes32 h.dst

/-- `ipImage(z)` (40_ipv4_codec.md R150). -/
def ipImage (z : Bool) (h : IpHeader) : Except Stop (List Byte) := do
  failIf (h.frag = 3) (.raise .encFrag 0)
  pure (ipBytes z h)

/-- `ipParse(a, n)` (40_ipv4_codec.md R151): the header and `ipHL`. -/
def ipParse (m : PacketBuffer) (a n : Nat) : Except Stop (IpHeader × Nat) := do
  failIf (n < 20) (.raise .ipShort (BitVec.ofNat 32 n))
  let b ← readBytes m a 20
  let version := (byteAt b 0).extractLsb' 4 4
  failIf (version ≠ 4) (.raise .ipVersion (version.setWidth 32))
  failIf ((byteAt b 6).getLsbD 6 = true ∧ (byteAt b 6).getLsbD 5 = true) (.raise .ipFragBoth 0)
  let h := ipFields b
  failIf (h.ihl.toNat < 5 ∨ n < 4 * h.ihl.toNat) (.raise .ipHdrLen (h.ihl.setWidth 32))
  pure (h, 4 * h.ihl.toNat)

/-! ### TCP header, fixed part -/

/-- The TCP fields of an image's first 20 bytes (30_encoding.md R104, R105); the reserved nibble is ignored. -/
def tcpFields (t : List Byte) : TcpHeader where
  sport := be16 t 0
  dport := be16 t 2
  seq := be32 t 4
  ack := be32 t 8
  doff := (byteAt t 12).extractLsb' 4 4
  flags := byteAt t 13
  win := be16 t 14
  csum := be16 t 16
  urg := be16 t 18

/-- The 20 fixed bytes of a TCP header (30_encoding.md R103, R104); `z` zeroes the checksum. -/
def tcpBytes (z : Bool) (h : TcpHeader) : List Byte :=
  bytes16 h.sport ++ bytes16 h.dport ++ bytes32 h.seq ++ bytes32 h.ack
    ++ [h.doff ++ (0 : BitVec 4), h.flags] ++ bytes16 h.win
    ++ (if z then [0, 0] else bytes16 h.csum) ++ bytes16 h.urg

/-- `tcpParse` up to the option walk (41_tcp_codec.md R180): the header and `tcpHL`. -/
def tcpFront (m : PacketBuffer) (a n : Nat) : Except Stop (TcpHeader × Nat) := do
  failIf (n < 20) (.raise .tcpShort (BitVec.ofNat 32 n))
  let b12 ← readByte m (a + 12)
  let doff : BitVec 4 := b12.extractLsb' 4 4
  failIf (doff.toNat < 5 ∨ n < 4 * doff.toNat) (.raise .tcpDoff (doff.setWidth 32))
  let t ← readBytes m a 20
  pure (tcpFields t, 4 * doff.toNat)

/-! ### TCP options, decode -/

/-- `lenOK(k, L)` (41_tcp_codec.md R182). -/
def lenOk (k size : Nat) : Bool :=
  match k with
  | 2 => size == 4
  | 3 => size == 3
  | 4 => size == 2
  | 5 => decide (2 ≤ size) && (size - 2) % 8 == 0
  | 8 => size == 10
  | 28 => size == 4
  | _ => false

/-- The length byte of an option of kind `k` at offset `p` (41_tcp_codec.md R181, R182): present, right for the kind,
and not running past `hl`. -/
def optLength (m : PacketBuffer) (a hl p k : Nat) : Except Stop Nat := do
  failIf (hl ≤ p + 1) (.raise .tcpOptLen (BitVec.ofNat 32 p))
  let b ← readByte m (a + p + 1)
  failIf (lenOk k b.toNat = false ∨ hl < p + b.toNat) (.raise .tcpOptLen (BitVec.ofNat 32 p))
  pure b.toNat

/-- `n` SACK blocks from PBUF index `a` on (41_tcp_codec.md R188). -/
def readBlocks (m : PacketBuffer) : Nat → Nat → Except Stop (List (Word × Word))
  | _, 0 => .ok []
  | a, n + 1 => do
    let st ← memRead32 m a
    let en ← memRead32 m (a + 4)
    let r ← readBlocks m (a + 8) n
    pure ((st, en) :: r)

/-- EndOfList at offset `p` (41_tcp_codec.md R183): the option and its size. -/
def decodeEol (_ : PacketBuffer) (_ _ _ : Nat) : Except Stop (TcpOption × Nat) := .ok (.endOfList, 1)

/-- NoOp (41_tcp_codec.md R184). -/
def decodeNop (_ : PacketBuffer) (_ _ _ : Nat) : Except Stop (TcpOption × Nat) := .ok (.noOp, 1)

/-- MaximumSegmentSize (41_tcp_codec.md R185). -/
def decodeMss (m : PacketBuffer) (a hl p : Nat) : Except Stop (TcpOption × Nat) := do
  let size ← optLength m a hl p 2
  let v ← memRead16 m (a + p + 2)
  pure (.maximumSegmentSize v, size)

/-- WindowScale (41_tcp_codec.md R186). -/
def decodeWs (m : PacketBuffer) (a hl p : Nat) : Except Stop (TcpOption × Nat) := do
  let size ← optLength m a hl p 3
  let v ← readByte m (a + p + 2)
  pure (.windowScale v, size)

/-- SackPermitted (41_tcp_codec.md R187). -/
def decodeSackp (m : PacketBuffer) (a hl p : Nat) : Except Stop (TcpOption × Nat) := do
  let size ← optLength m a hl p 4
  pure (.sackPermitted, size)

/-- Sack (41_tcp_codec.md R188): (L - 2) / 8 blocks. -/
def decodeSack (m : PacketBuffer) (a hl p : Nat) : Except Stop (TcpOption × Nat) := do
  let size ← optLength m a hl p 5
  let bs ← readBlocks m (a + p + 2) ((size - 2) / 8)
  pure (.sack bs, size)

/-- Timestamp (41_tcp_codec.md R189). -/
def decodeTs (m : PacketBuffer) (a hl p : Nat) : Except Stop (TcpOption × Nat) := do
  let size ← optLength m a hl p 8
  let v ← memRead32 m (a + p + 2)
  let e ← memRead32 m (a + p + 6)
  pure (.timestamp v e, size)

/-- UserTimeout (41_tcp_codec.md R190): all 16 bits are the value (30_encoding.md R108). -/
def decodeUto (m : PacketBuffer) (a hl p : Nat) : Except Stop (TcpOption × Nat) := do
  let size ← optLength m a hl p 28
  let v ← memRead16 m (a + p + 2)
  pure (.userTimeout v, size)

/-- Authentication and Multipath (41_tcp_codec.md R191): refused at the kind byte. -/
def decodeUnsupported (_ : PacketBuffer) (_ _ p : Nat) : Except Stop (TcpOption × Nat) :=
  .error (.raise .tcpOptUnsupported (BitVec.ofNat 32 p))

/-- An unknown kind (41_tcp_codec.md R192). -/
def decodeUnknown (_ : PacketBuffer) (_ _ p : Nat) : Except Stop (TcpOption × Nat) :=
  .error (.raise .tcpOptUnknown (BitVec.ofNat 32 p))

/-- One round of `optWalk` (41_tcp_codec.md R181) at offset `p < hl`: the option there and its size. -/
def optStep (m : PacketBuffer) (a hl p : Nat) : Except Stop (TcpOption × Nat) := do
  let k ← readByte m (a + p)
  match k.toNat with
  | 0 => decodeEol m a hl p
  | 1 => decodeNop m a hl p
  | 2 => decodeMss m a hl p
  | 3 => decodeWs m a hl p
  | 4 => decodeSackp m a hl p
  | 5 => decodeSack m a hl p
  | 8 => decodeTs m a hl p
  | 28 => decodeUto m a hl p
  | 29 => decodeUnsupported m a hl p
  | 30 => decodeUnsupported m a hl p
  | _ => decodeUnknown m a hl p

/-- `optWalk` (41_tcp_codec.md R181) from offset `p` on. Every round moves `p` forward, so `hl` rounds of `fuel` are
always enough. -/
def optWalk (m : PacketBuffer) (a hl : Nat) : Nat → Nat → Except Stop (List TcpOption)
  | 0, _ => .ok []
  | fuel + 1, p =>
    if p < hl then do
      let (o, size) ← optStep m a hl p
      let r ← optWalk m a hl fuel (p + size)
      pure (o :: r)
    else .ok []

/-- `tcpParse(a, n)` (41_tcp_codec.md R180): header, options and `tcpHL`. -/
def tcpParse (m : PacketBuffer) (a n : Nat) : Except Stop (TcpHeader × List TcpOption × Nat) := do
  let (h, hl) ← tcpFront m a n
  let opts ← optWalk m a hl hl 20
  pure (h, opts, hl)

/-! ### TCP options, register form and encode -/

/-- Word w0 of an entry (10_state.md R45): KIND in [7:0], NBLK in [10:8], the rest 0. -/
def entryHead (kind : Byte) (nblk : BitVec 3) : Word := (0 : BitVec 21) ++ nblk ++ kind

/-- KIND of an entry's w0 (10_state.md R45). -/
def headKind (w0 : Word) : Byte := w0.extractLsb' 0 8

/-- NBLK of an entry's w0 (10_state.md R45). -/
def headNblk (w0 : Word) : BitVec 3 := w0.extractLsb' 8 3

/-- The kind byte of an option variant (30_encoding.md R107). -/
def optKind : TcpOption → Byte
  | .endOfList => 0
  | .noOp => 1
  | .maximumSegmentSize _ => 2
  | .windowScale _ => 3
  | .sackPermitted => 4
  | .sack _ => 5
  | .timestamp _ _ => 8
  | .userTimeout _ => 28

/-- The SACK words w3 to w10 of a block list, unused words 0 (10_state.md R45). -/
def sackWords (blocks : List (Word × Word)) : List Word :=
  ((blocks.flatMap fun (b : Word × Word) => [b.1, b.2]) ++ List.replicate 8 0).take 8

/-- Words w0 to w10 of a decoded entry (10_state.md R45, R46): unused fields are 0. -/
def optWords (o : TcpOption) : List Word :=
  match o with
  | .endOfList => entryHead (optKind o) 0 :: 0 :: 0 :: sackWords []
  | .noOp => entryHead (optKind o) 0 :: 0 :: 0 :: sackWords []
  | .maximumSegmentSize v => entryHead (optKind o) 0 :: v.setWidth 32 :: 0 :: sackWords []
  | .windowScale v => entryHead (optKind o) 0 :: v.setWidth 32 :: 0 :: sackWords []
  | .sackPermitted => entryHead (optKind o) 0 :: 0 :: 0 :: sackWords []
  | .sack bs => entryHead (optKind o) (BitVec.ofNat 3 bs.length) :: 0 :: 0 :: sackWords bs
  | .timestamp v e => entryHead (optKind o) 0 :: v :: e :: sackWords []
  | .userTimeout v => entryHead (optKind o) 0 :: v.setWidth 32 :: 0 :: sackWords []

/-- Write the entries of an option list from entry `i` on (41_tcp_codec.md R195). -/
def writeEntries : List (Nat × Word) → Nat → List TcpOption → List (Nat × Word)
  | o, _, [] => o
  | o, i, e :: r => writeEntries (cellPutList o (optKey i 0) (optWords e)) (i + 1) r

/-- `optSize` of an entry, from its w0 (41_tcp_codec.md R193). -/
def entrySize (w0 : Word) : Nat :=
  match (headKind w0).toNat with
  | 0 => 1
  | 1 => 1
  | 2 => 4
  | 3 => 3
  | 4 => 2
  | 5 => 2 + 8 * (headNblk w0).toNat
  | 8 => 10
  | 28 => 4
  | _ => 0

/-- `optSize` of an option (41_tcp_codec.md R193). -/
def optSize : TcpOption → Nat
  | .endOfList => 1
  | .noOp => 1
  | .maximumSegmentSize _ => 4
  | .windowScale _ => 3
  | .sackPermitted => 2
  | .sack bs => 2 + 8 * bs.length
  | .timestamp _ _ => 10
  | .userTimeout _ => 4

/-- `optBytes` (41_tcp_codec.md R193). -/
def optBytes : TcpOption → List Byte
  | .endOfList => [0x00]
  | .noOp => [0x01]
  | .maximumSegmentSize v => [0x02, 0x04] ++ bytes16 v
  | .windowScale v => [0x03, 0x03, v]
  | .sackPermitted => [0x04, 0x02]
  | .sack bs => [0x05, BitVec.ofNat 8 (2 + 8 * bs.length)] ++ bs.flatMap fun (b : Word × Word) => bytes32 b.1 ++ bytes32 b.2
  | .timestamp v e => [0x08, 0x0A] ++ bytes32 v ++ bytes32 e
  | .userTimeout v => [0x1C, 0x04] ++ bytes16 v

/-- The encoder's kind check of entry `i` (41_tcp_codec.md R194). -/
def checkKind (k : Byte) (i : Nat) : Except Stop Unit := do
  failIf (k = 29 ∨ k = 30) (.raise .tcpOptUnsupported (BitVec.ofNat 32 i))
  failIf (k ∉ ([0, 1, 2, 3, 4, 5, 8, 28] : List Byte)) (.raise .tcpOptUnknown (BitVec.ofNat 32 i))

/-- w0 of `n` entries from entry `i` on, each kind checked in list order (41_tcp_codec.md R194). -/
def readHeads (o : List (Nat × Word)) : Nat → Nat → Except Stop (List Word)
  | _, 0 => .ok []
  | i, n + 1 => do
    let w0 ← readOpt o i 0
    checkKind (headKind w0) i
    let r ← readHeads o (i + 1) n
    pure (w0 :: r)

/-- SACK blocks `j` to `j + n - 1` of entry `i` (10_state.md R45). -/
def readSack (o : List (Nat × Word)) (i : Nat) : Nat → Nat → Except Stop (List (Word × Word))
  | _, 0 => .ok []
  | j, n + 1 => do
    let st ← readOpt o i (3 + 2 * j)
    let en ← readOpt o i (4 + 2 * j)
    let r ← readSack o i (j + 1) n
    pure ((st, en) :: r)

/-- The option entry `i` describes, given its w0: only the fields its kind uses are read (10_state.md R46). -/
def readEntry (o : List (Nat × Word)) (i : Nat) (w0 : Word) : Except Stop TcpOption :=
  match (headKind w0).toNat with
  | 0 => .ok .endOfList
  | 1 => .ok .noOp
  | 2 => do
    let v ← readOpt o i 1
    pure (.maximumSegmentSize (v.extractLsb' 0 16))
  | 3 => do
    let v ← readOpt o i 1
    pure (.windowScale (v.extractLsb' 0 8))
  | 4 => .ok .sackPermitted
  | 5 => do
    let bs ← readSack o i 0 (headNblk w0).toNat
    pure (.sack bs)
  | 8 => do
    let v ← readOpt o i 1
    let e ← readOpt o i 2
    pure (.timestamp v e)
  | 28 => do
    let v ← readOpt o i 1
    pure (.userTimeout (v.extractLsb' 0 16))
  | _ => .error (.raise .tcpOptUnknown (BitVec.ofNat 32 i))

/-- The options of the entries whose w0 are given, from entry `i` on. -/
def readEntries (o : List (Nat × Word)) : Nat → List Word → Except Stop (List TcpOption)
  | _, [] => .ok []
  | i, w0 :: r => do
    let e ← readEntry o i w0
    let es ← readEntries o (i + 1) r
    pure (e :: es)

/-- `tcpImage(z)` (41_tcp_codec.md R194). -/
def tcpImage (z : Bool) (h : TcpHeader) (n : BitVec 6) (o : List (Nat × Word)) : Except Stop (List Byte) := do
  failIf (h.doff.toNat < 5) (.raise .tcpDoff (h.doff.setWidth 32))
  failIf (Config.optMax < n.toNat) (.raise .encOptLen (n.setWidth 32))
  let heads ← readHeads o 0 n.toNat
  let total := (heads.map entrySize).sum
  failIf (total ≠ 4 * h.doff.toNat - 20) (.raise .encOptLen (BitVec.ofNat 32 total))
  let opts ← readEntries o 0 heads
  pure (tcpBytes z h ++ opts.flatMap optBytes)

end Sys2Proof.Machine
end

