-- ==== Sys2Proof/Machine/Checksum.lean ====
section
/-!
DEFINITION. The checksum primitive (42_checksum.md R230 to R232) and the commands IP_CSUM and TCP_CSUM (R233 to R240).
-/
namespace Sys2Proof.Machine

/-- `words16(bs)` (42_checksum.md R230): an odd last byte is followed by one zero byte. -/
def words16 : List Byte → List Half
  | [] => []
  | [b] => [b ++ (0 : Byte)]
  | b :: c :: r => (b ++ c) :: words16 r

/-- The loop of `fold` (42_checksum.md R231), at most `fuel` rounds. -/
def foldLoop : Nat → Nat → Nat
  | 0, x => x
  | fuel + 1, x => if 0xFFFF < x then foldLoop fuel (x % 0x10000 + x / 0x10000) else x

/-- `fold(x)` (42_checksum.md R231): every round makes `x` smaller, so `x` rounds are always enough. -/
def fold (x : Nat) : Nat := foldLoop x x

/-- The exact sum of the 16-bit words (42_checksum.md R232); an accumulator of `CSUM_ACC_WIDTH` bits holds the same sum
for every input of the block (00_scope.md R6). -/
def wordSum (bs : List Byte) : Nat := ((words16 bs).map BitVec.toNat).sum

/-- `csum(bs)` (42_checksum.md R232). -/
def csum (bs : List Byte) : Half := ~~~ BitVec.ofNat 16 (fold (wordSum bs))

/-- The pseudocode of IP_CSUM (42_checksum.md R233): no operand, no BOUNDS. -/
def bodyIpCsum (s : State) : Except Stop (State × Bool) := do
  let img ← ipImage true s.iph
  pure (setResultLen (setCsumResult s (csum img)) 20, csum img == s.iph.csum)

/-- IP_CSUM (42_checksum.md R233). -/
def execIpCsum (s : State) : Host.Outcome State Fault Refusal := finish s false (bodyIpCsum s)

/-- The pseudo-header (42_checksum.md R234). -/
def pseudoHeader (src dst : Word) (segLen : Nat) : List Byte :=
  bytes32 src ++ bytes32 dst ++ [0x00, 0x06] ++ bytes16 (BitVec.ofNat 16 segLen)

/-- The pseudocode of TCP_CSUM (42_checksum.md R235, R240). -/
def bodyTcpCsum (s : State) : Except Stop (State × Bool) := do
  checkBounds s.pbuf s.latch
  let img ← tcpImage true s.tcph s.optcnt s.opt
  let segLen := img.length + s.latch.len.toNat
  failIf (0xFFFF < segLen) (.raise .csumLen (BitVec.ofNat 32 segLen))
  let pay ← readBytes s.pbuf s.latch.start.toNat s.latch.len.toNat
  let c := csum (pseudoHeader s.iph.src s.iph.dst segLen ++ img ++ pay)
  pure (setResultLen (setCsumResult s c) (BitVec.ofNat 32 (12 + segLen)), c == s.tcph.csum)

/-- TCP_CSUM (42_checksum.md R235). -/
def execTcpCsum (s : State) : Host.Outcome State Fault Refusal := finish s false (bodyTcpCsum s)

end Sys2Proof.Machine
end

