-- ==== Sys2Proof/Machine/Ipv4.lean ====
section
/-!
DEFINITION. The IPv4 codec commands (40_ipv4_codec.md): IP_DECODE and IP_ENCODE.
-/
namespace Sys2Proof.Machine

/-- The pseudocode of IP_DECODE (40_ipv4_codec.md R152). -/
def bodyIpDecode (s : State) : Except Stop (State × Bool) := do
  checkBounds s.pbuf s.latch
  let (h, hl) ← ipParse s.pbuf s.latch.start.toNat s.latch.len.toNat
  pure (setResultLen (setIph s h) (BitVec.ofNat 32 hl), false)

/-- IP_DECODE (40_ipv4_codec.md R152). -/
def execIpDecode (s : State) : Host.Outcome State Fault Refusal := finish s false (bodyIpDecode s)

/-- The header-length and space checks IP_ENCODE and FRAME_ENCODE share (40_ipv4_codec.md R153). -/
def checkIpEncode (h : IpHeader) (n : Word) : Except Stop Unit := do
  failIf (h.ihl ≠ 5 ∨ h.totlen.toNat < 20) (.raise .encIpLen (h.ihl.setWidth 32))
  failIf (n.toNat < h.totlen.toNat) (.raise .encBuf n)

/-- The pseudocode of IP_ENCODE (40_ipv4_codec.md R153). -/
def bodyIpEncode (s : State) : Except Stop (State × Bool) := do
  checkBounds s.pbuf s.latch
  checkIpEncode s.iph s.latch.len
  let img ← ipImage false s.iph
  pure (setResultLen (setPbuf s (pbufPutList s.pbuf s.latch.start.toNat img)) 20, false)

/-- IP_ENCODE (40_ipv4_codec.md R153). -/
def execIpEncode (s : State) : Host.Outcome State Fault Refusal := finish s false (bodyIpEncode s)

end Sys2Proof.Machine
end

