-- ==== Sys2Proof/Machine/Tcp.lean ====
section
/-!
DEFINITION. The TCP codec commands (41_tcp_codec.md): TCP_DECODE and TCP_ENCODE.
-/
namespace Sys2Proof.Machine

/-- Write a decoded TCP header and its option list (41_tcp_codec.md R195): entries past the list keep their words. -/
def storeTcp (s : State) (h : TcpHeader) (opts : List TcpOption) : State :=
  setOpt (setTcph s h (BitVec.ofNat 6 opts.length)) (writeEntries s.opt 0 opts)

/-- The pseudocode of TCP_DECODE (41_tcp_codec.md R195). -/
def bodyTcpDecode (s : State) : Except Stop (State × Bool) := do
  checkBounds s.pbuf s.latch
  let (h, opts, hl) ← tcpParse s.pbuf s.latch.start.toNat s.latch.len.toNat
  pure (setResultLen (storeTcp s h opts) (BitVec.ofNat 32 hl), false)

/-- TCP_DECODE (41_tcp_codec.md R195). -/
def execTcpDecode (s : State) : Host.Outcome State Fault Refusal := finish s false (bodyTcpDecode s)

/-- The pseudocode of TCP_ENCODE (41_tcp_codec.md R196). -/
def bodyTcpEncode (s : State) : Except Stop (State × Bool) := do
  checkBounds s.pbuf s.latch
  failIf (s.tcph.doff.toNat < 5) (.raise .tcpDoff (s.tcph.doff.setWidth 32))
  failIf (s.latch.len.toNat < 4 * s.tcph.doff.toNat) (.raise .encBuf s.latch.len)
  let img ← tcpImage false s.tcph s.optcnt s.opt
  pure (setResultLen (setPbuf s (pbufPutList s.pbuf s.latch.start.toNat img))
    (BitVec.ofNat 32 (4 * s.tcph.doff.toNat)), false)

/-- TCP_ENCODE (41_tcp_codec.md R196). -/
def execTcpEncode (s : State) : Host.Outcome State Fault Refusal := finish s false (bodyTcpEncode s)

end Sys2Proof.Machine
end

