-- ==== Sys2Proof/Machine/Dispatcher.lean ====
section
/-!
DEFINITION. The packet dispatcher and the frame encoder (43_dispatcher.md): DISPATCH and FRAME_ENCODE.
-/
namespace Sys2Proof.Machine

/-- DISPATCH up to its TCP header (43_dispatcher.md R261): the silent drops on raw bytes, the IPv4 header, and the
length check. It gives the header and `ipHL`. -/
def dispatchFront (m : PacketBuffer) (l : Latch) (localPort : Half) : Except Stop (IpHeader × Nat) := do
  checkBounds m l
  failIf (l.len.toNat < 40) (.drop .dropShort)
  let b0 ← readByte m l.start.toNat
  failIf (b0.extractLsb' 4 4 ≠ (4 : BitVec 4)) (.drop .dropVersion)
  let proto ← readByte m (l.start.toNat + 9)
  failIf (proto ≠ 6) (.drop .dropProto)
  let h : BitVec 4 := b0.extractLsb' 0 4
  failIf (h.toNat < 5 ∨ l.len.toNat < 4 * h.toNat + 4) (.raise .ipHdrLen (h.setWidth 32))
  let port ← memRead16 m (l.start.toNat + 4 * h.toNat + 2)
  failIf (port ≠ localPort) (.drop .dropPort)
  let (ip, iphl) ← ipParse m l.start.toNat l.len.toNat
  failIf (l.len.toNat < ip.totlen.toNat ∨ ip.totlen.toNat < iphl + 20) (.raise .frameLen (ip.totlen.setWidth 32))
  pure (ip, iphl)

/-- The flow key of an accepted frame (43_dispatcher.md R270). -/
def flowKey (s : State) (ip : IpHeader) (tcp : TcpHeader) : FlowKey :=
  { srcAddr := ip.src, dstAddr := s.localAddr, srcPort := tcp.sport, dstPort := s.localPort }

/-- The pseudocode of DISPATCH (43_dispatcher.md R261, R270, R271). -/
def bodyDispatch (s : State) : Except Stop (State × Bool) := do
  let (ip, iphl) ← dispatchFront s.pbuf s.latch s.localPort
  let (tcp, opts, tcphl) ← tcpParse s.pbuf (s.latch.start.toNat + iphl) (ip.totlen.toNat - iphl)
  let w := setFlow (storeTcp (setIph s ip) tcp opts) (flowKey s ip tcp)
    (BitVec.ofNat 32 (s.latch.start.toNat + iphl + tcphl)) (BitVec.ofNat 32 (ip.totlen.toNat - iphl - tcphl))
  pure (setResultLen w (BitVec.ofNat 32 (iphl + tcphl)), false)

/-- DISPATCH (43_dispatcher.md R260). -/
def execDispatch (s : State) : Host.Outcome State Fault Refusal := finish s true (bodyDispatch s)

/-- The length an outbound frame should have (43_dispatcher.md R280). -/
def frameLength (s : State) : Nat := 4 * s.iph.ihl.toNat + 4 * s.tcph.doff.toNat + s.latch.aux.toNat

/-- The pseudocode of FRAME_ENCODE (43_dispatcher.md R280). -/
def bodyFrameEncode (s : State) : Except Stop (State × Bool) := do
  checkBounds s.pbuf s.latch
  failIf (s.iph.totlen.toNat ≠ frameLength s) (.raise .encTotlenMismatch (BitVec.ofNat 32 (frameLength s)))
  checkIpEncode s.iph s.latch.len
  let ipImg ← ipImage false s.iph
  let tcpImg ← tcpImage false s.tcph s.optcnt s.opt
  pure (setResultLen (setPbuf s (pbufPutList s.pbuf s.latch.start.toNat (ipImg ++ tcpImg)))
    (s.iph.totlen.setWidth 32), false)

/-- FRAME_ENCODE (43_dispatcher.md R280). -/
def execFrameEncode (s : State) : Host.Outcome State Fault Refusal := finish s false (bodyFrameEncode s)

end Sys2Proof.Machine
end

