-- ==== Sys2Proof/Machine/Illegal.lean ====
section
/-!
DEFINITION. The illegal opcodes (43_dispatcher.md R285): each completes with ILLEGAL_CMD and ERR_INFO = OP.
-/
namespace Sys2Proof.Machine

/-- The completion of an illegal opcode (43_dispatcher.md R285). -/
def illegalCommand (op : BitVec 4) (s : State) : Host.Outcome State Fault Refusal :=
  finish s false (.error (.raise .illegalCmd (op.setWidth 32)))

def execIllegal0 (s : State) : Host.Outcome State Fault Refusal := illegalCommand 0x0 s
def execIllegal9 (s : State) : Host.Outcome State Fault Refusal := illegalCommand 0x9 s
def execIllegalA (s : State) : Host.Outcome State Fault Refusal := illegalCommand 0xA s
def execIllegalB (s : State) : Host.Outcome State Fault Refusal := illegalCommand 0xB s
def execIllegalC (s : State) : Host.Outcome State Fault Refusal := illegalCommand 0xC s
def execIllegalD (s : State) : Host.Outcome State Fault Refusal := illegalCommand 0xD s
def execIllegalE (s : State) : Host.Outcome State Fault Refusal := illegalCommand 0xE s
def execIllegalF (s : State) : Host.Outcome State Fault Refusal := illegalCommand 0xF s

end Sys2Proof.Machine
end

