-- ==== Sys2Proof/Machine/Options.lean ====
section
/-!
DEFINITION. The TCP option kinds as instructions: one round of `optWalk` (41_tcp_codec.md R181) carried out on the
working copy `State.walk` (00_scope.md R9). The option is appended to the list and the offset moves past it; a failing
option ends the running command with the error commit (60_exceptions.md R304). Log 8.
-/
namespace Sys2Proof.Machine

/-- A round of the walk whose option decoding gave `r`. -/
def finishOption (s : State) (r : Except Stop (TcpOption × Nat)) : Host.Outcome State Fault Refusal :=
  match r with
  | .ok (o, size) =>
    .next (setWalk s { s.walk with p := s.walk.p + size, opts := s.walk.opts ++ [o] })
  | .error e => finish s (s.latch.op == 7) (.error e)

def execOptEol (s : State) : Host.Outcome State Fault Refusal :=
  finishOption s (decodeEol s.pbuf s.walk.base s.walk.hl s.walk.p)
def execOptNop (s : State) : Host.Outcome State Fault Refusal :=
  finishOption s (decodeNop s.pbuf s.walk.base s.walk.hl s.walk.p)
def execOptMss (s : State) : Host.Outcome State Fault Refusal :=
  finishOption s (decodeMss s.pbuf s.walk.base s.walk.hl s.walk.p)
def execOptWs (s : State) : Host.Outcome State Fault Refusal :=
  finishOption s (decodeWs s.pbuf s.walk.base s.walk.hl s.walk.p)
def execOptSackp (s : State) : Host.Outcome State Fault Refusal :=
  finishOption s (decodeSackp s.pbuf s.walk.base s.walk.hl s.walk.p)
def execOptSack (s : State) : Host.Outcome State Fault Refusal :=
  finishOption s (decodeSack s.pbuf s.walk.base s.walk.hl s.walk.p)
def execOptTs (s : State) : Host.Outcome State Fault Refusal :=
  finishOption s (decodeTs s.pbuf s.walk.base s.walk.hl s.walk.p)
def execOptUto (s : State) : Host.Outcome State Fault Refusal :=
  finishOption s (decodeUto s.pbuf s.walk.base s.walk.hl s.walk.p)
def execOptAuth (s : State) : Host.Outcome State Fault Refusal :=
  finishOption s (decodeUnsupported s.pbuf s.walk.base s.walk.hl s.walk.p)
def execOptMptcp (s : State) : Host.Outcome State Fault Refusal :=
  finishOption s (decodeUnsupported s.pbuf s.walk.base s.walk.hl s.walk.p)

end Sys2Proof.Machine
end

