-- ==== Sys2Proof/Machine/Dispatch.lean ====
section
/-!
DEFINITION. The dispatch of an instruction to its meaning, one arm per row of spec/opcode_table.json.
-/
namespace Sys2Proof.Machine

/-- The meaning of an instruction: a command's completion step, or one option of a running walk. -/
def exec (i : Instr) (s : State) : Host.Outcome State Fault Refusal :=
  match i with
  | .ipDecode => Sys2Proof.Machine.execIpDecode s
  | .ipEncode => Sys2Proof.Machine.execIpEncode s
  | .tcpDecode => Sys2Proof.Machine.execTcpDecode s
  | .tcpEncode => Sys2Proof.Machine.execTcpEncode s
  | .ipCsum => Sys2Proof.Machine.execIpCsum s
  | .tcpCsum => Sys2Proof.Machine.execTcpCsum s
  | .dispatch => Sys2Proof.Machine.execDispatch s
  | .frameEncode => Sys2Proof.Machine.execFrameEncode s
  | .illegal0 => Sys2Proof.Machine.execIllegal0 s
  | .illegal9 => Sys2Proof.Machine.execIllegal9 s
  | .illegalA => Sys2Proof.Machine.execIllegalA s
  | .illegalB => Sys2Proof.Machine.execIllegalB s
  | .illegalC => Sys2Proof.Machine.execIllegalC s
  | .illegalD => Sys2Proof.Machine.execIllegalD s
  | .illegalE => Sys2Proof.Machine.execIllegalE s
  | .illegalF => Sys2Proof.Machine.execIllegalF s
  | .optEol => Sys2Proof.Machine.execOptEol s
  | .optNop => Sys2Proof.Machine.execOptNop s
  | .optMss => Sys2Proof.Machine.execOptMss s
  | .optWs => Sys2Proof.Machine.execOptWs s
  | .optSackp => Sys2Proof.Machine.execOptSackp s
  | .optSack => Sys2Proof.Machine.execOptSack s
  | .optTs => Sys2Proof.Machine.execOptTs s
  | .optUto => Sys2Proof.Machine.execOptUto s
  | .optAuth => Sys2Proof.Machine.execOptAuth s
  | .optMptcp => Sys2Proof.Machine.execOptMptcp s

end Sys2Proof.Machine
end

