-- ==== Sys2Proof/Machine/Registers.lean ====
section
/-!
DEFINITION. The register map (10_state.md section 2), reads and writes of a named register, and what the running
command may write (70_reset_and_hazards.md R353).
-/
namespace Sys2Proof.Machine

/-- The register at byte offset `off` of the register space (10_state.md sections 2.1 to 2.4). -/
def regAt (off : Nat) : Reg :=
  if 0x100 ≤ off then
    if off < 0x100 + 0x30 * Config.optMax then
      if (off - 0x100) / 4 % 12 = 11 then .reserved else .opt ((off - 0x100) / 0x30) ((off - 0x100) / 4 % 12)
    else .reserved
  else
    match off with
    | 0x000 => .cmd
    | 0x004 => .status
    | 0x008 => .ctrl
    | 0x00C => .argStart
    | 0x010 => .argLen
    | 0x014 => .argAux
    | 0x018 => .resultLen
    | 0x01C => .errInfo
    | 0x020 => .csumResult
    | 0x024 => .localAddr
    | 0x028 => .localPort
    | 0x02C => .fkSrcAddr
    | 0x030 => .fkDstAddr
    | 0x034 => .fkSrcPort
    | 0x038 => .fkDstPort
    | 0x03C => .payloadOff
    | 0x040 => .payloadLen
    | 0x080 => .iphVersion
    | 0x084 => .iphIhl
    | 0x088 => .iphDscp
    | 0x08C => .iphEcn
    | 0x090 => .iphTotlen
    | 0x094 => .iphId
    | 0x098 => .iphFrag
    | 0x09C => .iphFragoff
    | 0x0A0 => .iphTtl
    | 0x0A4 => .iphProto
    | 0x0A8 => .iphCsum
    | 0x0AC => .iphSrc
    | 0x0B0 => .iphDst
    | 0x0C0 => .tcphSport
    | 0x0C4 => .tcphDport
    | 0x0C8 => .tcphSeq
    | 0x0CC => .tcphAck
    | 0x0D0 => .tcphDoff
    | 0x0D4 => .tcphFlags
    | 0x0D8 => .tcphWin
    | 0x0DC => .tcphCsum
    | 0x0E0 => .tcphUrg
    | 0x0E4 => .tcphOptcnt
    | _ => .reserved

/-- The offset of a named register (10_state.md section 2); a reserved offset has no one address and gets 0x044. -/
def regOffset : Reg → Nat
  | .cmd => 0x000
  | .status => 0x004
  | .ctrl => 0x008
  | .argStart => 0x00C
  | .argLen => 0x010
  | .argAux => 0x014
  | .resultLen => 0x018
  | .errInfo => 0x01C
  | .csumResult => 0x020
  | .localAddr => 0x024
  | .localPort => 0x028
  | .fkSrcAddr => 0x02C
  | .fkDstAddr => 0x030
  | .fkSrcPort => 0x034
  | .fkDstPort => 0x038
  | .payloadOff => 0x03C
  | .payloadLen => 0x040
  | .iphVersion => 0x080
  | .iphIhl => 0x084
  | .iphDscp => 0x088
  | .iphEcn => 0x08C
  | .iphTotlen => 0x090
  | .iphId => 0x094
  | .iphFrag => 0x098
  | .iphFragoff => 0x09C
  | .iphTtl => 0x0A0
  | .iphProto => 0x0A4
  | .iphCsum => 0x0A8
  | .iphSrc => 0x0AC
  | .iphDst => 0x0B0
  | .tcphSport => 0x0C0
  | .tcphDport => 0x0C4
  | .tcphSeq => 0x0C8
  | .tcphAck => 0x0CC
  | .tcphDoff => 0x0D0
  | .tcphFlags => 0x0D4
  | .tcphWin => 0x0D8
  | .tcphCsum => 0x0DC
  | .tcphUrg => 0x0E0
  | .tcphOptcnt => 0x0E4
  | .opt i w => 0x100 + 0x30 * i + 4 * w
  | .reserved => 0x044

/-- The classes of registers the hazards and the commands' write sets speak of (30_encoding.md R122,
70_reset_and_hazards.md R353, R354). -/
inductive RegClass where
  | always | results | bind | flow | iph | tcph | optWord | reserved
  deriving DecidableEq, Repr

/-- The class of a register. `always` reads exactly at any time (R353); `reserved` is read-only and has nothing to
write: reserved offsets and the hardwired IPH_VERSION (10_state.md R21, R38). -/
def regClass : Reg → RegClass
  | .cmd | .status | .ctrl | .argStart | .argLen | .argAux => .always
  | .resultLen | .errInfo | .csumResult => .results
  | .localAddr | .localPort => .bind
  | .fkSrcAddr | .fkDstAddr | .fkSrcPort | .fkDstPort | .payloadOff | .payloadLen => .flow
  | .iphVersion => .reserved
  | .iphIhl | .iphDscp | .iphEcn | .iphTotlen | .iphId | .iphFrag | .iphFragoff | .iphTtl | .iphProto | .iphCsum
  | .iphSrc | .iphDst => .iph
  | .tcphSport | .tcphDport | .tcphSeq | .tcphAck | .tcphDoff | .tcphFlags | .tcphWin | .tcphCsum | .tcphUrg
  | .tcphOptcnt => .tcph
  | .opt _ _ => .optWord
  | .reserved => .reserved

/-- The value a host read of register `r` returns when nothing is running (20_memory.md R80): the field zero-extended
(10_state.md R22). -/
def readReg (s : State) (r : Reg) : Except Fault Word :=
  match r with
  | .cmd => .ok (s.cmd.setWidth 32)
  | .status => .ok (statusWord s.status)
  | .ctrl => .ok ((BitVec.ofBool s.ie).setWidth 32)
  | .argStart => .ok s.argStart
  | .argLen => .ok s.argLen
  | .argAux => .ok s.argAux
  | .resultLen => .ok s.resultLen
  | .errInfo => .ok s.errInfo
  | .csumResult => .ok (s.csumResult.setWidth 32)
  | .localAddr => .ok s.localAddr
  | .localPort => .ok (s.localPort.setWidth 32)
  | .fkSrcAddr => .ok s.fk.srcAddr
  | .fkDstAddr => .ok s.fk.dstAddr
  | .fkSrcPort => .ok (s.fk.srcPort.setWidth 32)
  | .fkDstPort => .ok (s.fk.dstPort.setWidth 32)
  | .payloadOff => .ok s.payloadOff
  | .payloadLen => .ok s.payloadLen
  | .iphVersion => .ok 4
  | .iphIhl => .ok (s.iph.ihl.setWidth 32)
  | .iphDscp => .ok (s.iph.dscp.setWidth 32)
  | .iphEcn => .ok (s.iph.ecn.setWidth 32)
  | .iphTotlen => .ok (s.iph.totlen.setWidth 32)
  | .iphId => .ok (s.iph.id.setWidth 32)
  | .iphFrag => .ok (s.iph.frag.setWidth 32)
  | .iphFragoff => .ok (s.iph.fragoff.setWidth 32)
  | .iphTtl => .ok (s.iph.ttl.setWidth 32)
  | .iphProto => .ok (s.iph.proto.setWidth 32)
  | .iphCsum => .ok (s.iph.csum.setWidth 32)
  | .iphSrc => .ok s.iph.src
  | .iphDst => .ok s.iph.dst
  | .tcphSport => .ok (s.tcph.sport.setWidth 32)
  | .tcphDport => .ok (s.tcph.dport.setWidth 32)
  | .tcphSeq => .ok s.tcph.seq
  | .tcphAck => .ok s.tcph.ack
  | .tcphDoff => .ok (s.tcph.doff.setWidth 32)
  | .tcphFlags => .ok (s.tcph.flags.setWidth 32)
  | .tcphWin => .ok (s.tcph.win.setWidth 32)
  | .tcphCsum => .ok (s.tcph.csum.setWidth 32)
  | .tcphUrg => .ok (s.tcph.urg.setWidth 32)
  | .tcphOptcnt => .ok (s.optcnt.setWidth 32)
  | .opt i w =>
    match cellGet s.opt (optKey i w) with
    | some v => .ok v
    | none => .error (.unwrittenOpt i w)
  | .reserved => .ok 0

/-- The implemented width of a register's field (10_state.md sections 2.1 to 2.4). -/
def regWidth : Reg → Nat
  | .cmd => 4
  | .status => 20
  | .ctrl => 1
  | .argStart | .argLen | .argAux | .resultLen | .errInfo | .localAddr | .fkSrcAddr | .fkDstAddr | .payloadOff
  | .payloadLen | .iphSrc | .iphDst | .tcphSeq | .tcphAck => 32
  | .csumResult | .localPort | .fkSrcPort | .fkDstPort | .iphTotlen | .iphId | .iphCsum | .tcphSport | .tcphDport
  | .tcphWin | .tcphCsum | .tcphUrg => 16
  | .iphVersion | .iphIhl | .tcphDoff => 4
  | .iphDscp | .tcphOptcnt => 6
  | .iphEcn | .iphFrag => 2
  | .iphFragoff => 13
  | .iphTtl | .iphProto | .tcphFlags => 8
  | .opt _ w => if w = 0 then 11 else 32
  | .reserved => 0

/-- A host write of `v` to register `r` (20_memory.md R81), hazards apart: an RW field keeps its low bits
(10_state.md R22), RO and reserved registers ignore it (R21), STATUS clears (R25), CMD issues or is refused
(70_reset_and_hazards.md R350, R356). -/
def writeReg (s : State) (r : Reg) (v : Word) : State :=
  match r with
  | .cmd => if s.status.busy then setStatus s { s.status with ovr := true } else issue s (opOfWord v)
  | .status => ackStatus s v
  | .ctrl => { s with ie := v.getLsbD 0 }
  | .argStart => { s with argStart := v }
  | .argLen => { s with argLen := v }
  | .argAux => { s with argAux := v }
  | .localAddr => { s with localAddr := v }
  | .localPort => { s with localPort := v.setWidth 16 }
  | .resultLen | .errInfo | .csumResult | .fkSrcAddr | .fkDstAddr | .fkSrcPort | .fkDstPort | .payloadOff
  | .payloadLen | .iphVersion => s
  | .iphIhl => setIph s { s.iph with ihl := v.setWidth 4 }
  | .iphDscp => setIph s { s.iph with dscp := v.setWidth 6 }
  | .iphEcn => setIph s { s.iph with ecn := v.setWidth 2 }
  | .iphTotlen => setIph s { s.iph with totlen := v.setWidth 16 }
  | .iphId => setIph s { s.iph with id := v.setWidth 16 }
  | .iphFrag => setIph s { s.iph with frag := v.setWidth 2 }
  | .iphFragoff => setIph s { s.iph with fragoff := v.setWidth 13 }
  | .iphTtl => setIph s { s.iph with ttl := v.setWidth 8 }
  | .iphProto => setIph s { s.iph with proto := v.setWidth 8 }
  | .iphCsum => setIph s { s.iph with csum := v.setWidth 16 }
  | .iphSrc => setIph s { s.iph with src := v }
  | .iphDst => setIph s { s.iph with dst := v }
  | .tcphSport => setTcph s { s.tcph with sport := v.setWidth 16 } s.optcnt
  | .tcphDport => setTcph s { s.tcph with dport := v.setWidth 16 } s.optcnt
  | .tcphSeq => setTcph s { s.tcph with seq := v } s.optcnt
  | .tcphAck => setTcph s { s.tcph with ack := v } s.optcnt
  | .tcphDoff => setTcph s { s.tcph with doff := v.setWidth 4 } s.optcnt
  | .tcphFlags => setTcph s { s.tcph with flags := v.setWidth 8 } s.optcnt
  | .tcphWin => setTcph s { s.tcph with win := v.setWidth 16 } s.optcnt
  | .tcphCsum => setTcph s { s.tcph with csum := v.setWidth 16 } s.optcnt
  | .tcphUrg => setTcph s { s.tcph with urg := v.setWidth 16 } s.optcnt
  | .tcphOptcnt => setTcph s s.tcph (v.setWidth 6)
  | .opt i w =>
    setOpt s (cellPut s.opt (optKey i w) (if w = 0 then (v.setWidth 11).setWidth 32 else v))
  | .reserved => s

/-- How many entries a running TCP_DECODE may write: the options of the header it parses, or all 40 where that parse
ends in an error (log 6). -/
def decodeCount (s : State) : Nat :=
  match tcpParse s.pbuf s.latch.start.toNat s.latch.len.toNat with
  | .ok (_, opts, _) => opts.length
  | .error _ => Config.optMax

/-- The running command may write register `r` (70_reset_and_hazards.md R353, 30_encoding.md R122). -/
def mayWriteReg (s : State) (r : Reg) : Bool :=
  match regClass r with
  | .always | .bind | .reserved => false
  | .results => true
  | .iph => s.latch.op == 1 || s.latch.op == 7
  | .tcph => s.latch.op == 3 || s.latch.op == 7
  | .flow => s.latch.op == 7
  | .optWord =>
    match r with
    | .opt i _ => (s.latch.op == 3 && decide (i < decodeCount s)) || s.latch.op == 7
    | _ => false

/-- The running command may write `PBUF[i]` (70_reset_and_hazards.md R353, 20_memory.md R76). -/
def mayWriteBuf (s : State) (i : Nat) : Bool :=
  let size :=
    if s.latch.op = 2 then 20
    else if s.latch.op = 4 then 4 * s.tcph.doff.toNat
    else if s.latch.op = 8 then 20 + 4 * s.tcph.doff.toNat
    else 0
  decide (s.latch.start.toNat ≤ i) && decide (i < s.latch.start.toNat + size)

/-- A host write to `r` is a hazard while BUSY (70_reset_and_hazards.md R354). -/
def hazardous (r : Reg) : Bool :=
  match regClass r with
  | .bind | .iph | .tcph | .optWord => true
  | .always | .results | .flow | .reserved => false

end Sys2Proof.Machine
end

