-- ==== Sys2Proof/Machine/HostPort.lean ====
section
/-!
DEFINITION. The host ports (20_memory.md R80 to R84) with the hazards of 70_reset_and_hazards.md R353 and R354.
-/
namespace Sys2Proof.Machine

/-- Why a host access ends the run: a fault or a refusal. -/
inductive PortStop where
  | fault (f : Fault)
  | refuse (r : Refusal)
  deriving DecidableEq, Repr

/-- A free value of `w` bits, zero-extended (70_reset_and_hazards.md R353): the `n`-th draw. Log 5. -/
def freeField (n w : Nat) : Word := ((Config.freeRead n).setWidth w).setWidth 32

/-- `RegRead(off)` (20_memory.md R80). A read of an unwritten OPT word faults, BUSY or not (10_state.md R48, log 7);
while BUSY a register the running command may write reads as a free value (70_reset_and_hazards.md R353). -/
def regRead (s : State) (off : Nat) : Except PortStop (Word × State) :=
  if regOffsetOk off then
    match readReg s (regAt off) with
    | .error f => .error (.fault f)
    | .ok v =>
      if s.status.busy && mayWriteReg s (regAt off) then
        .ok (freeField s.draws (regWidth (regAt off)), setDraws s (s.draws + 1))
      else .ok (v, s)
  else .error (.refuse (.regOffset off))

/-- `RegWrite(off, v)` (20_memory.md R81). -/
def regWrite (s : State) (off : Nat) (v : Word) : Except PortStop State :=
  if regOffsetOk off then
    if s.status.busy && hazardous (regAt off) then .error (.fault (.hazardReg off))
    else .ok (writeReg s (regAt off) v)
  else .error (.refuse (.regOffset off))

/-- `BufRead(i)` (20_memory.md R82). -/
def bufRead (s : State) (i : Nat) : Except PortStop (Byte × State) :=
  if i < s.pbuf.size then
    match cellGet s.pbuf.bytes i with
    | none => .error (.fault (.unwrittenPbuf i))
    | some b =>
      if s.status.busy && mayWriteBuf s i then
        .ok ((Config.freeRead s.draws).setWidth 8, setDraws s (s.draws + 1))
      else .ok (b, s)
  else .error (.refuse (.bufIndex i))

/-- `BufWrite(i, b)` (20_memory.md R83, 70_reset_and_hazards.md R354). -/
def bufWrite (s : State) (i : Nat) (b : Byte) : Except PortStop State :=
  if i < s.pbuf.size then
    if s.status.busy then .error (.fault (.hazardBuf i)) else .ok (setPbuf s (pbufPut s.pbuf i b))
  else .error (.refuse (.bufIndex i))

end Sys2Proof.Machine
end

