-- ==== Sys2Proof/Machine/HostProgram.lean ====
section
/-!
DEFINITION. The host agent: the expansion of the statements and pseudo-statements of 30_encoding.md R130 and R131 into
host actions, and one action of the host (00_scope.md R13, 20_memory.md R85).
-/
namespace Sys2Proof.Machine

/-- The polling loop `wait` (30_encoding.md R131): until a read of STATUS shows DONE. -/
def expandWait (l t : Nat) : List HostOp :=
  [.label l, .regRead (regOffset .status) t, .branchZero t 0x2 l]

/-- The operand writes of `run` (30_encoding.md R131): ARG_START, ARG_LEN and ARG_AUX, as many as are given. -/
def expandArgs (args : List HostValue) : List HostOp :=
  List.zipWith (fun r v => HostOp.regWrite (regOffset r) v) [Reg.argStart, Reg.argLen, Reg.argAux] args

/-- The host actions a statement stands for (30_encoding.md R130, R131). -/
def expandStmt : HostStmt → List HostOp
  | .bufw i bytes => (List.range bytes.length).zipWith (fun j b => HostOp.bufWrite (i + j) b) bytes
  | .bufr i k => (List.range k).map fun j => HostOp.bufRead (i + j)
  | .wr r v => [.regWrite (regOffset r) v]
  | .rd r t => [.regRead (regOffset r) t]
  | .cmd op => [.regWrite (regOffset .cmd) (.const (op.setWidth 32))]
  | .bz t mask l => [.branchZero t mask l]
  | .label l => [.label l]
  | .wait l t => expandWait l t
  | .run op args l t =>
    expandArgs args ++ [.regWrite (regOffset .cmd) (.const (op.setWidth 32))] ++ expandWait l t
  | .ack => [.regWrite (regOffset .status) (.const 0x0000000A)]

/-- The actions of a host program (30_encoding.md R130). -/
def expandProgram (p : List HostStmt) : List HostOp := p.flatMap expandStmt

/-- The position of a label in a host program: its first, where it stands more than once, also where two `wait` or `run`
statements share one. The spec does not say where such a label leads: DESIGN CHOICE, log 3. -/
def findLabel (l : Nat) (prog : List HostOp) : Option Nat := prog.findIdx? (· == HostOp.label l)

/-- The value a host action writes; a temporary must have been read earlier (30_encoding.md R130). -/
def hostValue (h : HostCtx) : HostValue → Except PortStop Word
  | .const v => .ok v
  | .temp t =>
    match cellGet h.temps t with
    | some v => .ok v
    | none => .error (.refuse (.hostTemp t))

/-- The host moves on to its next action. -/
def hostNext (s : State) : State := setHost s { s.host with pos := s.host.pos + 1 }

/-- One host action (30_encoding.md R130). -/
def hostAction (s : State) : HostOp → Except PortStop State
  | .bufWrite i b => do
    let t ← bufWrite s i b
    pure (hostNext t)
  | .bufRead i => do
    let (b, t) ← bufRead s i
    pure (setHost t { t.host with pos := t.host.pos + 1, received := t.host.received ++ [b] })
  | .regWrite off v => do
    let w ← hostValue s.host v
    let t ← regWrite s off w
    pure (hostNext t)
  | .regRead off k => do
    let (v, t) ← regRead s off
    pure (setHost t { t.host with pos := t.host.pos + 1, temps := cellPut t.host.temps k v })
  | .branchZero k mask l => do
    let v ← hostValue s.host (.temp k)
    if v &&& mask = 0 then
      match findLabel l s.host.prog with
      | some at_ => pure (setHost s { s.host with pos := at_ })
      | none => .error (.refuse (.hostLabel l))
    else pure (hostNext s)
  | .label _ => pure (hostNext s)

/-- The host's turn: its next action, or nothing where its program has ended. -/
def hostTurn (s : State) : Host.Outcome State Fault Refusal :=
  match s.host.prog[s.host.pos]? with
  | none => .next s
  | some op =>
    match hostAction s op with
    | .ok t => .next t
    | .error (.fault f) => .fault f
    | .error (.refuse r) => .refused r

end Sys2Proof.Machine
end

