-- ==== Sys2Proof/Machine/Agents.lean ====
section
/-!
DEFINITION. The turns of the machine (60_exceptions.md R312): the host's, the engine's completion step
(70_reset_and_hazards.md R352), one option of a running option walk (41_tcp_codec.md R181, log 8), and reset; and the
placing of one instruction where a step runs it (log 11).
-/
namespace Sys2Proof.Machine

/-- The engine's turn (70_reset_and_hazards.md R352): it completes the running command; an idle engine does nothing. -/
def engineTurn (s : State) : Host.Outcome State Fault Refusal :=
  if s.status.busy then exec (decodeOp s.latch.op) s else .next s

/-- Where a running TCP_DECODE or DISPATCH begins its option walk: the TCP header start and `tcpHL`, once every check
before the walk has passed (41_tcp_codec.md R180, R195; 43_dispatcher.md R261). -/
def walkFront (s : State) : Except Stop (Nat × Nat) :=
  if s.latch.op = 3 then do
    checkBounds s.pbuf s.latch
    let (_, hl) ← tcpFront s.pbuf s.latch.start.toNat s.latch.len.toNat
    pure (s.latch.start.toNat, hl)
  else do
    let (ip, iphl) ← dispatchFront s.pbuf s.latch s.localPort
    let (_, hl) ← tcpFront s.pbuf (s.latch.start.toNat + iphl) (ip.totlen.toNat - iphl)
    pure (s.latch.start.toNat + iphl, hl)

/-- The next option of a running walk, fetched at its kind byte (41_tcp_codec.md R181). -/
def walkOption (s : State) : Host.Outcome State Fault Refusal :=
  match readByte s.pbuf (s.walk.base + s.walk.p) with
  | .error e => finish s (s.latch.op == 7) (.error e)
  | .ok k =>
    match decodeOptionKind k with
    | .ok i => exec i s
    | .error _ => finishOption s (decodeUnknown s.pbuf s.walk.base s.walk.hl s.walk.p)

/-- The walk's turn (log 8): the running command's option walk is begun, or carried one option further. With no such
command, before a header that does not parse, and after the last option, there is nothing to walk and the turn does
nothing. -/
def walkTurn (s : State) : Host.Outcome State Fault Refusal :=
  if s.status.busy ∧ (s.latch.op = 3 ∨ s.latch.op = 7) then
    if s.walk.active then
      if s.walk.p < s.walk.hl then walkOption s else .next s
    else
      match walkFront s with
      | .ok (base, hl) => .next (setWalk s { active := true, base := base, hl := hl, p := 20, opts := [] })
      | .error _ => .next s
  else .next s

/-- The turn taken when none is scheduled: a running command completes, else the host goes on
(70_reset_and_hazards.md R363, log 2). -/
def defaultTurn (s : State) : Turn := if s.status.busy then .engine else .host

/-- One turn. -/
def takeTurn (t : Turn) (s : State) : Host.Outcome State Fault Refusal :=
  match t with
  | .host => hostTurn s
  | .engine => engineTurn s
  | .walk => walkTurn s
  | .reset => .next (resetBlock s)

/-- The next turn of the schedule, and the state that takes it. -/
def stepTurn (s : State) : Host.Outcome State Fault Refusal :=
  match s.sched with
  | [] => takeTurn (defaultTurn s) s
  | t :: ts => takeTurn t (setSched s ts)

/-- `LATENCY` of a schedule (00_scope.md R3, 70_reset_and_hazards.md R362): the host turns before the engine's. -/
def latency : List Turn → Nat
  | [] => 0
  | .engine :: _ => 0
  | .host :: ts => latency ts + 1
  | .walk :: ts => latency ts
  | .reset :: ts => latency ts

/-- A command placed as if the host had just written its word to an idle block's CMD, with the engine to move. -/
def placeCommand (s : State) (w : Word) : State :=
  setSched (issue s (opOfWord w)) (.engine :: s.sched)

/-- An option placed as the next one of a running TCP_DECODE's walk: its kind byte at offset 20 of a 60-byte TCP
header at PBUF index 0, zero bytes behind it, with the walk to move. -/
def placeOption (s : State) (k : Byte) : State :=
  setSched
    (setWalk (setPbuf (issue s 3) (pbufPutList s.pbuf 20 (k :: List.replicate 39 0)))
      { active := true, base := 0, hl := 60, p := 20, opts := [] })
    (.walk :: s.sched)

/-- A table word placed where the next step runs it (log 11). -/
def placeWord (s : State) : InstrWord → State
  | .command w => placeCommand s w
  | .optionKind k => placeOption s k

end Sys2Proof.Machine
end

