-- ==== Sys2Proof/Machine/Step.lean ====
section
/-!
DEFINITION. One step of the machine, and a table word stored where the next step fetches it.
-/
namespace Sys2Proof.Machine

/-- One step: the next turn (60_exceptions.md R312). -/
def step (s : State) : Host.Outcome State Fault Refusal := stepTurn s

/-- `s` with the instruction of a table word placed where `step` runs it next (log 11). -/
def State.withFetchWord (s : State) (nbits w : Nat) : State := placeWord s (tableSpace nbits w)

end Sys2Proof.Machine
end

