-- ==== Sys2Proof/Safety.lean ====
section
/-!
DEFINITION. The terms the statements use: bytes and option entries that stand in the stores, the running command's
range, the classes of instructions, and the invariants every step keeps.
-/
namespace Sys2Proof.Machine

/-- The bytes `bs` stand written in PBUF from index `a` on. -/
abbrev bytesAt (m : PacketBuffer) (a : Nat) (bs : List Byte) : Prop :=
  ∀ i (h : i < bs.length), cellGet m.bytes (a + i) = some bs[i]

/-- The running command's byte range lies inside PBUF (20_memory.md R75). -/
abbrev inRange (s : State) : Prop := s.latch.start.toNat + s.latch.len.toNat ≤ s.pbuf.size

/-- Entry `i` describes option `e`: KIND, and the fields that kind uses, at the width it encodes (10_state.md R45, R46).
Nothing is asked of a field the kind does not use. -/
def entryHolds (o : List (Nat × Word)) (i : Nat) (e : TcpOption) : Prop :=
  ∃ w0, cellGet o (12 * i) = some w0 ∧ headKind w0 = optKind e ∧
    match e with
    | .endOfList => True
    | .noOp => True
    | .maximumSegmentSize v => ∃ w, cellGet o (12 * i + 1) = some w ∧ w.extractLsb' 0 16 = v
    | .windowScale v => ∃ w, cellGet o (12 * i + 1) = some w ∧ w.extractLsb' 0 8 = v
    | .sackPermitted => True
    | .sack bs => (headNblk w0).toNat = bs.length ∧ ∀ j (h : j < bs.length),
        cellGet o (12 * i + 3 + 2 * j) = some bs[j].1 ∧ cellGet o (12 * i + 4 + 2 * j) = some bs[j].2
    | .timestamp v e => cellGet o (12 * i + 1) = some v ∧ cellGet o (12 * i + 2) = some e
    | .userTimeout v => ∃ w, cellGet o (12 * i + 1) = some w ∧ w.extractLsb' 0 16 = v

/-- The entries from 0 on describe the option list `opts`, in order (10_state.md R42). -/
def entriesHold (o : List (Nat × Word)) (opts : List TcpOption) : Prop :=
  ∀ i (h : i < opts.length), entryHolds o i opts[i]

/-- The bytes of an option list on the wire. -/
def wireBytes (opts : List TcpOption) : List Byte := opts.flatMap optBytes

/-- The size of an option list on the wire. -/
def wireSize (opts : List TcpOption) : Nat := (opts.map optSize).sum

/-- Every option of the list is one the header can hold. -/
abbrev optsOk (opts : List TcpOption) : Prop := ∀ e ∈ opts, e.wellFormed = true

/-- The TCPH and OPT registers describe a valid header with the options `opts` (41_tcp_codec.md R197). -/
def tcpValid (s : State) (opts : List TcpOption) : Prop :=
  5 ≤ s.tcph.doff.toNat ∧ s.optcnt.toNat = opts.length ∧ opts.length ≤ Config.optMax ∧
    wireSize opts = 4 * s.tcph.doff.toNat - 20 ∧ entriesHold s.opt opts

/-- `i` is a command, not an option kind. -/
def isCommand : Instr → Bool
  | .ipDecode | .ipEncode | .tcpDecode | .tcpEncode | .ipCsum | .tcpCsum | .dispatch | .frameEncode => true
  | .illegal0 | .illegal9 | .illegalA | .illegalB | .illegalC | .illegalD | .illegalE | .illegalF => true
  | .optEol | .optNop | .optMss | .optWs | .optSackp | .optSack | .optTs | .optUto | .optAuth | .optMptcp => false

/-- The state after an error completion with error `e`, detail `info` and disposition `disp`: STATUS, ERR_INFO and
RESULT_LEN change, nothing else of the block (60_exceptions.md R304); the working copy is gone. -/
def errorCompletion (s : State) (e : Err) (info : Word) (disp : BitVec 4) : State :=
  { s with
    status := { busy := false, done := true, err := true, ovr := s.status.ovr, csumOk := false, errcode := errCode e,
                disp := disp }
    errInfo := info
    resultLen := 0
    walk := Walk.idle }

/-- The state after a success completion (60_exceptions.md R303) whose working copy is `w`: STATUS, ERR_INFO = 0 and
RESULT_LEN = `len` come on top of it. -/
def successCompletion (w : State) (csumOk : Bool) (disp : BitVec 4) (len : Word) : State :=
  { w with
    status := { busy := false, done := true, err := false, ovr := w.status.ovr, csumOk := csumOk, errcode := 0,
                disp := disp }
    errInfo := 0
    resultLen := len
    walk := Walk.idle }

/-- The state after a drop with disposition `disp` (43_dispatcher.md R263). -/
def dropCompletion (s : State) (disp : BitVec 4) : State :=
  { s with
    status := { busy := false, done := true, err := false, ovr := s.status.ovr, csumOk := false, errcode := 0,
                disp := disp }
    errInfo := 0
    resultLen := 0
    walk := Walk.idle }

/-- The 20 fixed bytes of a TCP header on the wire, with the reserved nibble `r` (30_encoding.md R103). -/
def tcpWire (h : TcpHeader) (r : BitVec 4) : List Byte :=
  [h.sport.extractLsb' 8 8, h.sport.extractLsb' 0 8, h.dport.extractLsb' 8 8, h.dport.extractLsb' 0 8,
   h.seq.extractLsb' 24 8, h.seq.extractLsb' 16 8, h.seq.extractLsb' 8 8, h.seq.extractLsb' 0 8,
   h.ack.extractLsb' 24 8, h.ack.extractLsb' 16 8, h.ack.extractLsb' 8 8, h.ack.extractLsb' 0 8,
   h.doff ++ r, h.flags, h.win.extractLsb' 8 8, h.win.extractLsb' 0 8,
   h.csum.extractLsb' 8 8, h.csum.extractLsb' 0 8, h.urg.extractLsb' 8 8, h.urg.extractLsb' 0 8]

/-- 20 bytes as an IPv4 header lays them out (30_encoding.md R100), every bit free: version `v`, reserved flag bit `rf`,
DF `df`, MF `mf`, the other fields those of `h` (IPH_FRAG is not used). -/
def ipRaw (v : BitVec 4) (rf df mf : Bool) (h : IpHeader) : List Byte :=
  [v ++ h.ihl, h.dscp ++ h.ecn, h.totlen.extractLsb' 8 8, h.totlen.extractLsb' 0 8,
   h.id.extractLsb' 8 8, h.id.extractLsb' 0 8,
   BitVec.ofBool rf ++ BitVec.ofBool df ++ BitVec.ofBool mf ++ h.fragoff.extractLsb' 8 5,
   h.fragoff.extractLsb' 0 8, h.ttl, h.proto, h.csum.extractLsb' 8 8, h.csum.extractLsb' 0 8,
   h.src.extractLsb' 24 8, h.src.extractLsb' 16 8, h.src.extractLsb' 8 8, h.src.extractLsb' 0 8,
   h.dst.extractLsb' 24 8, h.dst.extractLsb' 16 8, h.dst.extractLsb' 8 8, h.dst.extractLsb' 0 8]

/-- IPH_FRAG of the flag bits DF and MF, not both set (10_state.md R39, 30_encoding.md R101). -/
def fragOf (df mf : Bool) : BitVec 2 := if df then 1 else if mf then 2 else 0

/-- The 20 bytes the block writes for an IPv4 header (40_ipv4_codec.md R150): version 4, reserved flag bit 0, DF exactly
for IPH_FRAG 1 and MF exactly for 2. -/
def ipWire (h : IpHeader) : List Byte := ipRaw 4 false (decide (h.frag = 1)) (decide (h.frag = 2)) h

/-- The pseudo-header of a segment of `n` bytes (42_checksum.md R234). -/
def pseudoWire (src dst : Word) (n : Nat) : List Byte :=
  [src.extractLsb' 24 8, src.extractLsb' 16 8, src.extractLsb' 8 8, src.extractLsb' 0 8,
   dst.extractLsb' 24 8, dst.extractLsb' 16 8, dst.extractLsb' 8 8, dst.extractLsb' 0 8,
   0, 6, BitVec.ofNat 8 (n / 256), BitVec.ofNat 8 n]

/-- The sum of the 16-bit big-endian words of a byte list, an odd last byte standing for its high half
(42_checksum.md R230, R232). -/
def wireSum : List Byte → Nat
  | [] => 0
  | [b] => 256 * b.toNat
  | b :: c :: r => 256 * b.toNat + c.toNat + wireSum r

/-- The instruction of a supported option (30_encoding.md R107). -/
def optInstr : TcpOption → Instr
  | .endOfList => .optEol
  | .noOp => .optNop
  | .maximumSegmentSize _ => .optMss
  | .windowScale _ => .optWs
  | .sackPermitted => .optSackp
  | .sack _ => .optSack
  | .timestamp _ _ => .optTs
  | .userTimeout _ => .optUto

/-- The kinds with a length byte, each with its instruction (30_encoding.md R107). -/
def sizedKinds : List (Instr × Byte) :=
  [(.optMss, 2), (.optWs, 3), (.optSackp, 4), (.optSack, 5), (.optTs, 8), (.optUto, 28)]

/-- The kinds the encoder writes (41_tcp_codec.md R194). -/
def encodableKinds : List Byte := [0, 1, 2, 3, 4, 5, 8, 28]

/-- Length byte `l` is wrong for an option of kind `k` (41_tcp_codec.md R182). -/
abbrev badLength (k l : Byte) : Prop :=
  ((k = 2 ∨ k = 28) ∧ l ≠ 4) ∨ (k = 3 ∧ l ≠ 3) ∨ (k = 4 ∧ l ≠ 2) ∨ (k = 8 ∧ l ≠ 10) ∨
    (k = 5 ∧ (l.toNat < 2 ∨ (l.toNat - 2) % 8 ≠ 0))

/-- Who takes the next step (60_exceptions.md R312, log 2). -/
def nextTurn (s : State) : Turn :=
  match s.sched with
  | [] => defaultTurn s
  | t :: _ => t

/-- Offsets of OPT words w0 to w10 (10_state.md R44). -/
abbrev isOptWord (off : Nat) : Prop := 0x100 ≤ off ∧ (off - 0x100) / 4 % 12 ≠ 11

/-- Reserved offsets of the register space (10_state.md R21, R37, R40, R44). -/
abbrev isReserved (off : Nat) : Prop :=
  (0x044 ≤ off ∧ off ≤ 0x07C) ∨ (0x0B4 ≤ off ∧ off ≤ 0x0BC) ∨ (0x0E8 ≤ off ∧ off ≤ 0x0FC) ∨
    (0x100 ≤ off ∧ (off - 0x100) / 4 % 12 = 11)

/-- The register map of 10_state.md sections 2.1 to 2.3: each register's offset, and the value it holds. -/
def registerTable (s : State) : List (Nat × Word) :=
  [(0x000, s.cmd.setWidth 32), (0x004, statusWord s.status), (0x008, (BitVec.ofBool s.ie).setWidth 32),
   (0x00C, s.argStart), (0x010, s.argLen), (0x014, s.argAux),
   (0x018, s.resultLen), (0x01C, s.errInfo), (0x020, s.csumResult.setWidth 32),
   (0x024, s.localAddr), (0x028, s.localPort.setWidth 32)] ++
  [(0x02C, s.fk.srcAddr), (0x030, s.fk.dstAddr), (0x034, s.fk.srcPort.setWidth 32),
   (0x038, s.fk.dstPort.setWidth 32), (0x03C, s.payloadOff), (0x040, s.payloadLen)] ++
  [(0x080, 4), (0x084, s.iph.ihl.setWidth 32), (0x088, s.iph.dscp.setWidth 32), (0x08C, s.iph.ecn.setWidth 32),
   (0x090, s.iph.totlen.setWidth 32), (0x094, s.iph.id.setWidth 32), (0x098, s.iph.frag.setWidth 32),
   (0x09C, s.iph.fragoff.setWidth 32), (0x0A0, s.iph.ttl.setWidth 32), (0x0A4, s.iph.proto.setWidth 32),
   (0x0A8, s.iph.csum.setWidth 32), (0x0AC, s.iph.src), (0x0B0, s.iph.dst)] ++
  [(0x0C0, s.tcph.sport.setWidth 32), (0x0C4, s.tcph.dport.setWidth 32), (0x0C8, s.tcph.seq), (0x0CC, s.tcph.ack),
   (0x0D0, s.tcph.doff.setWidth 32), (0x0D4, s.tcph.flags.setWidth 32), (0x0D8, s.tcph.win.setWidth 32),
   (0x0DC, s.tcph.csum.setWidth 32), (0x0E0, s.tcph.urg.setWidth 32), (0x0E4, s.optcnt.setWidth 32)]

/-- The register or written OPT word at offset `off` holds `v` (10_state.md sections 2.1 to 2.4). -/
def heldAt (s : State) (off : Nat) (v : Word) : Prop :=
  (off, v) ∈ registerTable s ∨
    ∃ i w, i < 40 ∧ w < 11 ∧ off = 0x100 + 0x30 * i + 4 * w ∧ cellGet s.opt (12 * i + w) = some v

/-- Offsets of the registers, OPT words among them, that the running command may write (70_reset_and_hazards.md R353,
30_encoding.md R122): RESULT_LEN, ERR_INFO and CSUM_RESULT; the flow key and payload descriptor of a DISPATCH; IPH of an
IP_DECODE or DISPATCH; TCPH of a TCP_DECODE or DISPATCH; OPT of a DISPATCH, and the first `n` entries of OPT of a
TCP_DECODE. -/
abbrev inWriteSet (op : BitVec 4) (n off : Nat) : Prop :=
  (0x018 ≤ off ∧ off ≤ 0x020) ∨
  (op = 7 ∧ 0x02C ≤ off ∧ off ≤ 0x040) ∨
  ((op = 1 ∨ op = 7) ∧ 0x084 ≤ off ∧ off ≤ 0x0B0) ∨
  ((op = 3 ∨ op = 7) ∧ 0x0C0 ≤ off ∧ off ≤ 0x0E4) ∨
  ((op = 7 ∨ (op = 3 ∧ off < 0x100 + 0x30 * n)) ∧ isOptWord off)

/-- PBUF indices the running command may write (70_reset_and_hazards.md R353, 20_memory.md R76): the headers of an
IP_ENCODE, TCP_ENCODE or FRAME_ENCODE, from lat_start on. -/
abbrev inBufWriteSet (s : State) (i : Nat) : Prop :=
  s.latch.start.toNat ≤ i ∧
    ((s.latch.op = 2 ∧ i < s.latch.start.toNat + 20) ∨
      (s.latch.op = 4 ∧ i < s.latch.start.toNat + 4 * s.tcph.doff.toNat) ∨
      (s.latch.op = 8 ∧ i < s.latch.start.toNat + 20 + 4 * s.tcph.doff.toNat))

/-- The option entries a running TCP_DECODE may write (log 6): those of the options in its header, all 40 where its
header does not parse. -/
abbrev mayDecode (s : State) (n : Nat) : Prop :=
  (∀ h opts hl, tcpParse s.pbuf s.latch.start.toNat s.latch.len.toNat = .ok (h, opts, hl) → n = opts.length) ∧
  (∀ e, tcpParse s.pbuf s.latch.start.toNat s.latch.len.toNat = .error e → n = 40)

/-- Word `w` of the entry of a decoded option (10_state.md R45, R46): KIND and NBLK in word 0, the values the kind uses
in their places, 0 in every other word. -/
def entryWord (e : TcpOption) (w : Nat) : Word :=
  match e with
  | .endOfList => 0
  | .noOp => if w = 0 then 1 else 0
  | .maximumSegmentSize v => if w = 0 then 2 else if w = 1 then v.setWidth 32 else 0
  | .windowScale v => if w = 0 then 3 else if w = 1 then v.setWidth 32 else 0
  | .sackPermitted => if w = 0 then 4 else 0
  | .sack bs =>
    if w = 0 then BitVec.ofNat 32 (5 + 256 * bs.length)
    else if w < 3 then 0
    else match bs[(w - 3) / 2]? with
      | some b => if w % 2 = 1 then b.1 else b.2
      | none => 0
  | .timestamp v e => if w = 0 then 8 else if w = 1 then v else if w = 2 then e else 0
  | .userTimeout v => if w = 0 then 28 else if w = 1 then v.setWidth 32 else 0

/-- The option storage after a decode of `opts` over the storage `o` (41_tcp_codec.md R195): words w0 to w10 of the
entries 0 to len - 1 are those of the options, every entry past the list keeps its words. -/
def entriesWritten (o o' : List (Nat × Word)) (opts : List TcpOption) : Prop :=
  (∀ i (h : i < opts.length), ∀ w, w < 11 → cellGet o' (12 * i + w) = some (entryWord opts[i] w)) ∧
    ∀ k, 12 * opts.length ≤ k → cellGet o' k = cellGet o k

/-- Two states agree on everything but the working copy of the option walk (00_scope.md R9). -/
abbrev sameButWalk (s t : State) : Prop := t = setWalk s t.walk

/-- The status record is consistent: DONE only when not BUSY (70_reset_and_hazards.md R350, R351); ERR exactly with a
code of the table (60_exceptions.md R300); a disposition of the table, DECODE_ERROR only with ERR (43_dispatcher.md
R262); CSUM_OK and a clear ERR_INFO only without an error, RESULT_LEN 0 with one (10_state.md R30, R31). -/
abbrev statusInv (s : State) : Prop :=
  (s.status.busy = true → s.status.done = false) ∧
  (s.status.err = true ↔ s.status.errcode ≠ 0) ∧
  s.status.errcode.toNat ≤ 0x12 ∧
  s.status.disp.toNat ≤ 6 ∧
  (s.status.disp = 6 → s.status.err = true) ∧
  (s.status.csumOk = true → s.status.err = false) ∧
  (s.status.err = false → s.errInfo = 0) ∧
  (s.status.err = true → s.resultLen = 0)

/-- The latches belong to the last command issued: while BUSY, CMD reads the running opcode (10_state.md R23, R47). -/
abbrev latchInv (s : State) : Prop := s.status.busy = true → s.cmd = s.latch.op

/-- A running option walk is a part of the running command's own walk (41_tcp_codec.md R181): the command is a
TCP_DECODE or DISPATCH whose header begins at `base`, and what the walk has gathered so far, followed by the walk from
`p` on, is the walk from offset 20. -/
def walkInv (s : State) : Prop :=
  s.walk.active = true →
    s.status.busy = true ∧ (s.latch.op = 3 ∨ s.latch.op = 7) ∧ walkFront s = .ok (s.walk.base, s.walk.hl) ∧
    20 ≤ s.walk.p ∧
    optWalk s.pbuf s.walk.base s.walk.hl s.walk.hl 20 =
      (do
        let r ← optWalk s.pbuf s.walk.base s.walk.hl s.walk.hl s.walk.p
        pure (s.walk.opts ++ r))

end Sys2Proof.Machine
end

