-- ==== Sys2Proof/Certificates/Slice0/Obligations.lean ====
section
/-!
DEFINITION. The statements about the block, for the provers. Each docstring names the rule of spec/ it rests on, or the
log entry where it rests on the model's own choice.
-/
open Sys2Proof Sys2Proof.Machine

/-! ### Encodings -/

/-- Words of the two tables, written out bit by bit (30_encoding.md R107, R108, R120; 41_tcp_codec.md R193), decode to
the rows they stand for, and each option variant has the bytes the tables give it. -/
def Obligations.WordsOfTheTables : Prop :=
  decodeInstr (.command 0b00000000000000000000000000000001) = .ok .ipDecode ∧
  decodeInstr (.command 0b00000000000000000000000000000011) = .ok .tcpDecode ∧
  decodeInstr (.command 0b11111111111111111111111111110101) = .ok .ipCsum ∧
  decodeInstr (.command 0b11111111111111111111111111110111) = .ok .dispatch ∧
  decodeInstr (.command 0b00000000000000000000000000011000) = .ok .frameEncode ∧
  decodeInstr (.command 0b00000000000000000000000000000000) = .ok .illegal0 ∧
  decodeInstr (.command 0b00000000000000000000000000001001) = .ok .illegal9 ∧
  decodeInstr (.optionKind 0b00000010) = .ok .optMss ∧
  decodeInstr (.optionKind 0b00001000) = .ok .optTs ∧
  decodeInstr (.optionKind 0b00011100) = .ok .optUto ∧
  decodeInstr (.optionKind 0b00011101) = .ok .optAuth ∧
  decodeInstr (.optionKind 0b00000110) = .error (.unknownKind 0b00000110) ∧
  optBytes .endOfList = [0x00] ∧ optBytes .noOp = [0x01] ∧
  (∀ hi lo : Byte, optBytes (.maximumSegmentSize (hi ++ lo)) = [0x02, 0x04, hi, lo]) ∧
  (∀ b : Byte, optBytes (.windowScale b) = [0x03, 0x03, b]) ∧
  optBytes .sackPermitted = [0x04, 0x02] ∧
  (∀ a b c d e f g h : Byte, optBytes (.sack [(a ++ b ++ c ++ d, e ++ f ++ g ++ h)]) =
    [0x05, 0x0A, a, b, c, d, e, f, g, h]) ∧
  (∀ a b c d e f g h : Byte, optBytes (.timestamp (a ++ b ++ c ++ d) (e ++ f ++ g ++ h)) =
    [0x08, 0x0A, a, b, c, d, e, f, g, h]) ∧
  (∀ hi lo : Byte, optBytes (.userTimeout (hi ++ lo)) = [0x1C, 0x04, hi, lo])

/-- The opcode map, for every value of the ignored bits [31:4] (30_encoding.md R120). -/
def Obligations.CommandWordTable : Prop :=
  ∀ ignored : BitVec 28,
    decodeInstr (.command (ignored ++ 0x0#4)) = .ok .illegal0 ∧
    decodeInstr (.command (ignored ++ 0x1#4)) = .ok .ipDecode ∧
    decodeInstr (.command (ignored ++ 0x2#4)) = .ok .ipEncode ∧
    decodeInstr (.command (ignored ++ 0x3#4)) = .ok .tcpDecode ∧
    decodeInstr (.command (ignored ++ 0x4#4)) = .ok .tcpEncode ∧
    decodeInstr (.command (ignored ++ 0x5#4)) = .ok .ipCsum ∧
    decodeInstr (.command (ignored ++ 0x6#4)) = .ok .tcpCsum ∧
    decodeInstr (.command (ignored ++ 0x7#4)) = .ok .dispatch ∧
    decodeInstr (.command (ignored ++ 0x8#4)) = .ok .frameEncode ∧
    decodeInstr (.command (ignored ++ 0x9#4)) = .ok .illegal9 ∧
    decodeInstr (.command (ignored ++ 0xA#4)) = .ok .illegalA ∧
    decodeInstr (.command (ignored ++ 0xB#4)) = .ok .illegalB ∧
    decodeInstr (.command (ignored ++ 0xC#4)) = .ok .illegalC ∧
    decodeInstr (.command (ignored ++ 0xD#4)) = .ok .illegalD ∧
    decodeInstr (.command (ignored ++ 0xE#4)) = .ok .illegalE ∧
    decodeInstr (.command (ignored ++ 0xF#4)) = .ok .illegalF

/-- The decoder reads back what the encoder writes, for every instruction, and a kind byte is the encoding of the
instruction it decodes to (30_encoding.md sections 3 and 4). -/
def Obligations.EncodeDecodeAgree : Prop :=
  (∀ i : Instr, i.wellFormed = true → decodeInstr (encode i) = .ok i) ∧
  (∀ (k : Byte) (i : Instr), decodeOptionKind k = .ok i → encode i = .optionKind k) ∧
  (∀ (w : Word) (i : Instr), decodeInstr (.command w) = .ok i →
    encode i = .command ((w.extractLsb' 0 4).setWidth 32))

/-- Every named register lies at an offset of its own in the register space, and that offset names it; and while idle a
host read at the map's numeric offset answers what the register or written OPT word holds, with no effect (10_state.md
sections 2.1 to 2.4, R44; 20_memory.md section 4; 70_reset_and_hazards.md R361). -/
def Obligations.RegisterMapRoundTrips : Prop :=
  (∀ r : Reg, r.wellFormed = true → r ≠ .reserved → regOffsetOk (regOffset r) = true ∧ regAt (regOffset r) = r) ∧
  (∀ (s : State) (off : Nat) (v : Word), s.status.busy = false → heldAt s off v → regRead s off = .ok (v, s))

/-! ### The host ports -/

/-- A host write to CMD (70_reset_and_hazards.md R350): issue when idle, with nothing else of the block changing (nothing
is said of the model's own working copy `walk`); refused with OVR while BUSY, nothing else changing. -/
def Obligations.IssueLatchesTheOperands : Prop :=
  ∀ (s : State) (w : Word),
    (s.status.busy = false →
      ∃ t, regWrite s 0x000 w = .ok t ∧ t = { s with
        cmd := w.extractLsb' 0 4
        latch := { op := w.extractLsb' 0 4, start := s.argStart, len := s.argLen, aux := s.argAux }
        status := { s.status with busy := true, done := false }
        walk := t.walk }) ∧
    (s.status.busy = true →
      regWrite s 0x000 w = .ok { s with status := { s.status with ovr := true } })

/-- Reading STATUS gives its fields in their places, every other bit 0, at any time and with no effect
(10_state.md R24); a write of v clears DONE if v[1] = 1 and OVR if v[3] = 1 and does nothing else (R25). -/
def Obligations.StatusPort : Prop :=
  ∀ (s : State) (v : Word),
    (∃ r, regRead s 0x004 = .ok (r, s) ∧
      r.getLsbD 0 = s.status.busy ∧ r.getLsbD 1 = s.status.done ∧ r.getLsbD 2 = s.status.err ∧
      r.getLsbD 3 = s.status.ovr ∧ r.getLsbD 4 = s.status.csumOk ∧ r.extractLsb' 5 3 = 0 ∧
      r.extractLsb' 8 8 = s.status.errcode ∧ r.extractLsb' 16 4 = s.status.disp ∧ r.extractLsb' 20 12 = 0) ∧
    regWrite s 0x004 v = .ok { s with status := { s.status with
      done := if v.getLsbD 1 then false else s.status.done
      ovr := if v.getLsbD 3 then false else s.status.ovr } } ∧
    regWrite s 0x004 0 = .ok s ∧
    (s.status.done = false → regWrite s 0x004 0x2 = .ok s)

/-- IPH_VERSION reads 4 and ignores writes, at any time; the header image has version nibble 4; and an IP_DECODE that
succeeds has read a version nibble of 4 (10_state.md R38). -/
def Obligations.VersionIsHardwired : Prop :=
  (∀ s : State, regRead s 0x080 = .ok (4, s)) ∧
  (∀ (s : State) (v : Word), regWrite s 0x080 v = .ok s) ∧
  (∀ (z : Bool) (h : IpHeader) (b : List Byte), ipImage z h = .ok b → ∃ b0 r, b = b0 :: r ∧ b0.extractLsb' 4 4 = 4#4) ∧
  (∀ s t : State, exec .ipDecode s = .next t → t.status.err = false →
    ∃ b0, readByte s.pbuf s.latch.start.toNat = .ok b0 ∧ b0.extractLsb' 4 4 = 4#4)

/-- Reserved offsets, word w11 of every option entry among them, read 0 and ignore writes, at any time (10_state.md
sections 1, 2.2, 2.3 and 2.4). -/
def Obligations.ReservedOffsetsReadZero : Prop :=
  ∀ (s : State) (off : Nat) (v : Word), off % 4 = 0 → off ≤ 0x87C → isReserved off →
    regRead s off = .ok (0, s) ∧ regWrite s off v = .ok s

/-- A read-write register of w bits keeps the low w bits of a written value and reads them back zero-extended; the write
never fails, and every other register that reads before reads the same after (10_state.md R22). CTRL and the ARG
registers are written at any time, the others while the block is idle: a write of these during BUSY is the hazard of
70_reset_and_hazards.md R354. -/
def Obligations.RegisterWriteReadsBack : Prop :=
  ∀ (s : State) (r : Reg) (v : Word), r.wellFormed = true →
    (r = .ctrl ∨ r = .argStart ∨ r = .argLen ∨ r = .argAux ∨
      (s.status.busy = false ∧
        (regClass r = .bind ∨ regClass r = .iph ∨ regClass r = .tcph ∨ regClass r = .optWord))) →
    ∃ t, regWrite s (regOffset r) v = .ok t ∧
      regRead t (regOffset r) = .ok ((v.setWidth (regWidth r)).setWidth 32, t) ∧
      (∀ q : Reg, q.wellFormed = true → q ≠ r → readReg t q = readReg s q) ∧
      t.pbuf = s.pbuf ∧ t.latch = s.latch

/-- A byte written to PBUF reads back; every other byte and everything else of the block is as before (20_memory.md R82,
R83). -/
def Obligations.BufferWriteReadsBack : Prop :=
  ∀ (s : State) (i : Nat) (b : Byte), i < s.pbuf.size → s.status.busy = false →
    ∃ t, bufWrite s i b = .ok t ∧ bufRead t i = .ok (b, t) ∧
      (∀ j, j ≠ i → readByte t.pbuf j = readByte s.pbuf j) ∧
      t = { s with pbuf := { s.pbuf with bytes := t.pbuf.bytes } }

/-- Where a host access ends the run: an offset that is misaligned or above 0x87C and an index at or above PBUF_SIZE are
refused (20_memory.md section 4); a read of a PBUF byte or OPT word that nothing has written faults, BUSY or not
(10_state.md section 3; log 4, log 7). -/
def Obligations.HostAccessStops : Prop :=
  (∀ (s : State) (off : Nat) (v : Word), off % 4 ≠ 0 ∨ 0x87C < off →
    regRead s off = .error (.refuse (.regOffset off)) ∧ regWrite s off v = .error (.refuse (.regOffset off))) ∧
  (∀ (s : State) (i : Nat) (b : Byte), s.pbuf.size ≤ i →
    bufRead s i = .error (.refuse (.bufIndex i)) ∧ bufWrite s i b = .error (.refuse (.bufIndex i))) ∧
  (∀ (s : State) (i : Nat), i < s.pbuf.size → cellGet s.pbuf.bytes i = none →
    bufRead s i = .error (.fault (.unwrittenPbuf i))) ∧
  (∀ (s : State) (i w : Nat), i < 40 → w < 11 → cellGet s.opt (12 * i + w) = none →
    regRead s (0x100 + 0x30 * i + 4 * w) = .error (.fault (.unwrittenOpt i w)))

/-- While BUSY, a host read of a register, written OPT word or written PBUF byte that the running command may write
answers a free value of its width, and every other one answers exactly what it holds; no read changes anything of the
block (70_reset_and_hazards.md section 3; 20_memory.md section 3). The count of free values drawn is the model's own,
log 5; which OPT entries a TCP_DECODE may write is the model's reading, log 6. -/
def Obligations.ReadsDuringBusy : Prop :=
  (∀ (s : State) (off n : Nat) (v : Word), s.status.busy = true → heldAt s off v → mayDecode s n →
    (inWriteSet s.latch.op n off →
      regRead s off = .ok (((Config.freeRead s.draws).setWidth (regWidth (regAt off))).setWidth 32,
        { s with draws := s.draws + 1 })) ∧
    (¬inWriteSet s.latch.op n off → regRead s off = .ok (v, s))) ∧
  (∀ (s : State) (i : Nat) (b : Byte), s.status.busy = true → i < s.pbuf.size → cellGet s.pbuf.bytes i = some b →
    (inBufWriteSet s i →
      bufRead s i = .ok ((Config.freeRead s.draws).setWidth 8, { s with draws := s.draws + 1 })) ∧
    (¬inBufWriteSet s i → bufRead s i = .ok (b, s))) ∧
  (∀ s : State, s.status.busy = true →
    regRead s 0x018 = .ok (Config.freeRead s.draws, { s with draws := s.draws + 1 }) ∧
    regRead s 0x01C = .ok (Config.freeRead s.draws, { s with draws := s.draws + 1 }) ∧
    regRead s 0x020 = .ok (((Config.freeRead s.draws).setWidth 16).setWidth 32, { s with draws := s.draws + 1 }) ∧
    regRead s 0x000 = .ok (s.cmd.setWidth 32, s) ∧
    regRead s 0x008 = .ok ((BitVec.ofBool s.ie).setWidth 32, s) ∧
    regRead s 0x00C = .ok (s.argStart, s) ∧ regRead s 0x010 = .ok (s.argLen, s) ∧
    regRead s 0x014 = .ok (s.argAux, s) ∧ regRead s 0x024 = .ok (s.localAddr, s) ∧
    regRead s 0x028 = .ok (s.localPort.setWidth 32, s) ∧
    (s.latch.op ≠ 1 → s.latch.op ≠ 7 → regRead s 0x0AC = .ok (s.iph.src, s)) ∧
    (s.latch.op = 1 ∨ s.latch.op = 7 →
      regRead s 0x0AC = .ok (Config.freeRead s.draws, { s with draws := s.draws + 1 }))) ∧
  (∀ (s t : State) (off : Nat) (v : Word), regRead s off = .ok (v, t) →
    (s.status.busy = false → t = s) ∧ t = { s with draws := t.draws }) ∧
  (∀ (s t : State) (i : Nat) (b : Byte), bufRead s i = .ok (b, t) →
    (s.status.busy = false → t = s) ∧ t = { s with draws := t.draws })

/-- While BUSY, a host write to an IPH, TCPH or OPT register, LOCAL_ADDR, LOCAL_PORT or a PBUF byte faults, and a write
to a read-only or reserved register is ignored (70_reset_and_hazards.md R354). -/
def Obligations.HazardousWritesFault : Prop :=
  ∀ (s : State) (v : Word) (b : Byte), s.status.busy = true →
    (∀ off, off % 4 = 0 → off ≤ 0x87C →
      off = 0x024 ∨ off = 0x028 ∨ (0x084 ≤ off ∧ off ≤ 0x0B0) ∨ (0x0C0 ≤ off ∧ off ≤ 0x0E4) ∨ isOptWord off →
      regWrite s off v = .error (.fault (.hazardReg off))) ∧
    (∀ i, i < s.pbuf.size → bufWrite s i b = .error (.fault (.hazardBuf i))) ∧
    (∀ off, off % 4 = 0 → off ≤ 0x87C →
      (0x018 ≤ off ∧ off ≤ 0x020) ∨ (0x02C ≤ off ∧ off ≤ 0x040) ∨ off = 0x080 ∨ isReserved off →
      regWrite s off v = .ok s)

/-- A write to an ARG register during BUSY takes effect at once, and no command's completion depends on the ARG
registers, so it does not affect the running command (70_reset_and_hazards.md R355). -/
def Obligations.ArgWritesDoNotReachTheRunningCommand : Prop :=
  (∀ (s : State) (v : Word), s.status.busy = true →
    regWrite s 0x00C v = .ok { s with argStart := v } ∧ regWrite s 0x010 v = .ok { s with argLen := v } ∧
    regWrite s 0x014 v = .ok { s with argAux := v }) ∧
  (∀ (i : Instr) (s : State) (a l x : Word),
    (∀ t, exec i s = .next t →
      exec i { s with argStart := a, argLen := l, argAux := x } =
        .next { t with argStart := a, argLen := l, argAux := x }) ∧
    (∀ f, exec i s = .fault f → exec i { s with argStart := a, argLen := l, argAux := x } = .fault f))

/-- The step that takes a reset leaves every register at its reset value, IPH_VERSION 4, every PBUF byte and OPT word
unwritten, the latches 0 and IRQ 0, whatever was running (70_reset_and_hazards.md R340): the block of `State.resetWith`,
of which `State.reset` is the one with the default `PBUF_SIZE` (nothing is said of the model's own fields, log 12). -/
def Obligations.ResetLeavesTheResetValues : Prop :=
  ∀ (s : State) (ts : List Turn), s.sched = .reset :: ts →
    ∃ t, step s = .next t ∧
      t = { State.resetWith s.pbuf.size with host := t.host, sched := t.sched, draws := t.draws } ∧
      (∀ off, off % 4 = 0 → off ≤ 0x87C → ¬ isOptWord off →
        regRead t off = .ok (if off = 0x080 then 4 else 0, t)) ∧
      (∀ off, off % 4 = 0 → off ≤ 0x87C → isOptWord off → ∃ f, regRead t off = .error (.fault f)) ∧
      (∀ i, i < s.pbuf.size → ∃ f, bufRead t i = .error (.fault f)) ∧
      t.latch = { op := 0, start := 0, len := 0, aux := 0 } ∧ irq t = false

/-- IRQ is CTRL.IE and STATUS.DONE: every command's completion raises it exactly when IE is set, in whichever step it
happens, and a host write of IE = 1 while DONE = 1 raises it (60_exceptions.md R310). -/
def Obligations.CompletionRaisesIrq : Prop :=
  (∀ s : State, irq s = true ↔ s.ie = true ∧ s.status.done = true) ∧
  (∀ (i : Instr) (s t : State), isCommand i = true → exec i s = .next t →
    t.ie = s.ie ∧ t.status.done = true ∧ irq t = s.ie) ∧
  (∀ s t : State, step s = .next t → s.status.busy = true → t.status.busy = false → nextTurn s ≠ .reset →
    t.ie = s.ie ∧ t.status.done = true ∧ irq t = s.ie) ∧
  (∀ (s : State) (v : Word), s.status.done = true → v.getLsbD 0 = true →
    ∃ t, regWrite s 0x008 v = .ok t ∧ irq t = true)

/-- The state after reset meets every invariant the model keeps (70_reset_and_hazards.md section 1; log 8 for the walk).
-/
def Obligations.InvariantsHoldAtReset : Prop :=
  statusInv State.reset ∧ latchInv State.reset ∧ memWf State.reset ∧ walkInv State.reset

/-! ### Steps -/

/-- The engine's step is the meaning of the command that was written: on its scheduled turn, at once where no turn is
scheduled and a command runs, and on the turn after the CMD write that issued it (70_reset_and_hazards.md section 3;
the schedule is the model's own, log 2). -/
def Obligations.EngineTurnRunsTheIssuedCommand : Prop :=
  ∀ (s : State) (w : Word) (i : Instr) (ts : List Turn), decodeInstr (.command w) = .ok i →
    (s.status.busy = true → s.latch.op = w.extractLsb' 0 4 → s.sched = .engine :: ts →
      step s = exec i { s with sched := ts }) ∧
    (s.status.busy = true → s.latch.op = w.extractLsb' 0 4 → s.sched = [] → step s = exec i s) ∧
    (∀ t, s.status.busy = false → regWrite s 0x000 w = .ok t → t.sched = .engine :: ts →
      step t = exec i { t with sched := ts }) ∧
    (s.status.busy = false → s.sched = .engine :: ts → step s = .next { s with sched := ts })

/-- The walk's step is the meaning of the option whose kind byte stands at the walk's offset; an unknown kind ends the
command with TCP_OPT_UNKNOWN and that offset (41_tcp_codec.md sections 1 and 2; the walk's turns are the model's own,
log 8). -/
def Obligations.WalkTurnRunsTheOptionItFetches : Prop :=
  ∀ (s : State) (k : Byte) (ts : List Turn), s.status.busy = true → (s.latch.op = 3 ∨ s.latch.op = 7) →
    s.walk.active = true → s.walk.p < s.walk.hl → readByte s.pbuf (s.walk.base + s.walk.p) = .ok k →
    s.sched = .walk :: ts →
    (∀ i, decodeInstr (.optionKind k) = .ok i → step s = exec i { s with sched := ts }) ∧
    (∀ e, decodeInstr (.optionKind k) = .error e → step s = .next (errorCompletion { s with sched := ts }
      .tcpOptUnknown (BitVec.ofNat 32 s.walk.p) (if s.latch.op = 7 then 6 else 0)))

/-- A table word placed where the machine fetches, with a PBUF of legal size (00_scope.md R3), is the instruction the
next step runs (the placing is the model's own, log 11). -/
def Obligations.PlacedWordIsRunNext : Prop :=
  ∀ (s : State) (nbits w : Nat) (i : Instr), 80 ≤ s.pbuf.size → decodeTableWord nbits w = some i →
    step (s.withFetchWord nbits w) = exec i { s.withFetchWord nbits w with sched := s.sched }

/-! ### Completions and frames -/

/-- The error commit: a command that ends with ERR = 1 has changed STATUS, ERR_INFO and RESULT_LEN as the commit says and
nothing else; DISP is 6 in a DISPATCH unless the error is BOUNDS (60_exceptions.md R304). -/
def Obligations.ErrorCommitEffect : Prop :=
  ∀ (i : Instr) (s t : State), isCommand i = true → exec i s = .next t → t.status.err = true →
    ∃ (e : Err) (info : Word),
      t = errorCompletion s e info (if i = .dispatch ∧ e ≠ .bounds then 6 else 0)

/-- The drop commit: a DISPATCH that ends with a drop disposition has changed STATUS, ERR_INFO and RESULT_LEN as the
commit says and nothing else (43_dispatcher.md R263). -/
def Obligations.DropCommitEffect : Prop :=
  ∀ s t : State, exec .dispatch s = .next t → 2 ≤ t.status.disp.toNat → t.status.disp.toNat ≤ 5 →
    t = dropCompletion s t.status.disp

/-- Frame of the commands that decode nothing (30_encoding.md section 4, 20_memory.md section 3). The checksum commands
change only STATUS, ERR_INFO, RESULT_LEN, CSUM_RESULT and the hidden working copy, and no byte of PBUF. The encoders
change only STATUS, ERR_INFO, RESULT_LEN, the working copy and PBUF, and there only the bytes of the headers they write
from lat_start on. -/
def Obligations.EncoderAndChecksumFrame : Prop :=
  (∀ (i : Instr) (s t : State), i = .ipCsum ∨ i = .tcpCsum → exec i s = .next t →
    t = { s with status := t.status, errInfo := t.errInfo, resultLen := t.resultLen, csumResult := t.csumResult,
                 walk := t.walk } ∧
    t.status.ovr = s.status.ovr ∧ ∀ a, readByte t.pbuf a = readByte s.pbuf a) ∧
  (∀ (i : Instr) (s t : State), i = .ipEncode ∨ i = .tcpEncode ∨ i = .frameEncode → exec i s = .next t →
    t = { s with status := t.status, errInfo := t.errInfo, resultLen := t.resultLen, walk := t.walk,
                 pbuf := { s.pbuf with bytes := t.pbuf.bytes } } ∧
    t.status.ovr = s.status.ovr ∧
    ∀ a, a < s.latch.start.toNat ∨
        s.latch.start.toNat +
          (if i = .ipEncode then 20 else if i = .tcpEncode then 4 * s.tcph.doff.toNat
            else 20 + 4 * s.tcph.doff.toNat) ≤ a →
      readByte t.pbuf a = readByte s.pbuf a)

/-- Frame of the decoders and of the illegal opcodes (30_encoding.md section 4, 41_tcp_codec.md section 4): IP_DECODE
changes the IPH registers besides the results every command writes, TCP_DECODE the TCPH registers and OPT, DISPATCH
these and the flow key and payload descriptor; OPT words past the decoded list keep their contents; none stores to PBUF.
-/
def Obligations.DecoderFrame : Prop :=
  ∀ s t : State,
    (exec .ipDecode s = .next t →
      t = { s with status := t.status, errInfo := t.errInfo, resultLen := t.resultLen, walk := t.walk,
                   iph := t.iph } ∧
      t.status.ovr = s.status.ovr ∧ ∀ a, readByte t.pbuf a = readByte s.pbuf a) ∧
    (exec .tcpDecode s = .next t →
      t = { s with status := t.status, errInfo := t.errInfo, resultLen := t.resultLen, walk := t.walk,
                   tcph := t.tcph, optcnt := t.optcnt, opt := t.opt } ∧
      t.status.ovr = s.status.ovr ∧
      (t.status.err = false → ∀ k, 12 * t.optcnt.toNat ≤ k → cellGet t.opt k = cellGet s.opt k) ∧
      ∀ a, readByte t.pbuf a = readByte s.pbuf a) ∧
    (exec .dispatch s = .next t →
      t = { s with status := t.status, errInfo := t.errInfo, resultLen := t.resultLen, walk := t.walk,
                   iph := t.iph, tcph := t.tcph, optcnt := t.optcnt, opt := t.opt, fk := t.fk,
                   payloadOff := t.payloadOff, payloadLen := t.payloadLen } ∧
      t.status.ovr = s.status.ovr ∧
      (t.status.disp = 1 → ∀ k, 12 * t.optcnt.toNat ≤ k → cellGet t.opt k = cellGet s.opt k) ∧
      (t.status.disp ≠ 1 → t.iph = s.iph ∧ t.tcph = s.tcph ∧ t.optcnt = s.optcnt ∧ t.opt = s.opt ∧ t.fk = s.fk ∧
        t.payloadOff = s.payloadOff ∧ t.payloadLen = s.payloadLen) ∧
      ∀ a, readByte t.pbuf a = readByte s.pbuf a)

/-- An illegal opcode completes with the error commit, ILLEGAL_CMD, ERR_INFO = OP and DISP = 0, and touches nothing else
but CMD, which reads back OP from its issue on (43_dispatcher.md R285). -/
def Obligations.IllegalOpcodesComplete : Prop :=
  ∀ s : State,
    exec .illegal0 s = .next (errorCompletion s .illegalCmd 0x0 0) ∧
    exec .illegal9 s = .next (errorCompletion s .illegalCmd 0x9 0) ∧
    exec .illegalA s = .next (errorCompletion s .illegalCmd 0xA 0) ∧
    exec .illegalB s = .next (errorCompletion s .illegalCmd 0xB 0) ∧
    exec .illegalC s = .next (errorCompletion s .illegalCmd 0xC 0) ∧
    exec .illegalD s = .next (errorCompletion s .illegalCmd 0xD 0) ∧
    exec .illegalE s = .next (errorCompletion s .illegalCmd 0xE 0) ∧
    exec .illegalF s = .next (errorCompletion s .illegalCmd 0xF 0) ∧
    (s.status.busy = false → ∀ w, ∃ t, regWrite s 0x000 w = .ok t ∧
      regRead t 0x000 = .ok ((w.extractLsb' 0 4).setWidth 32, t))

/-! ### IPv4 codec -/

/-- IP_DECODE of a well-formed header of `ihl` words: every IPH register takes its field of the 20 bytes, whatever the
reserved flag bit, RESULT_LEN = 4 IHL (40_ipv4_codec.md sections 1 and 2, 30_encoding.md section 1). -/
def Obligations.IpDecodeSucceeds : Prop :=
  ∀ (s : State) (h : IpHeader) (rf df mf : Bool),
    inRange s → bytesAt s.pbuf s.latch.start.toNat (ipRaw 4 rf df mf h) → ¬(df = true ∧ mf = true) →
    h.frag = fragOf df mf → 5 ≤ h.ihl.toNat → 4 * h.ihl.toNat ≤ s.latch.len.toNat →
    exec .ipDecode s =
      .next (successCompletion { s with iph := h } false 0 (BitVec.ofNat 32 (4 * h.ihl.toNat)))

/-- IP_ENCODE of valid IPH registers writes the 20 bytes of the header at lat_start, RESULT_LEN = 20; every other byte
and every other register keeps its value (40_ipv4_codec.md sections 1 and 3). -/
def Obligations.IpEncodeSucceeds : Prop :=
  ∀ s : State, inRange s → s.iph.ihl = 5 → 20 ≤ s.iph.totlen.toNat → s.iph.totlen.toNat ≤ s.latch.len.toNat →
    s.iph.frag ≠ 3 →
    ∃ t, exec .ipEncode s = .next t ∧ bytesAt t.pbuf s.latch.start.toNat (ipWire s.iph) ∧
      (∀ a, a < s.latch.start.toNat ∨ s.latch.start.toNat + 20 ≤ a → readByte t.pbuf a = readByte s.pbuf a) ∧
      t = successCompletion { s with pbuf := { s.pbuf with bytes := t.pbuf.bytes } } false 0 20

/-- The errors of IP_DECODE and of IP_ENCODE, each in its order, with their ERR_INFO (40_ipv4_codec.md sections 1 to 3,
60_exceptions.md section 1). -/
def Obligations.IpCodecErrors : Prop :=
  (∀ (s : State) (v : BitVec 4) (h : IpHeader) (rf df mf : Bool),
    (s.pbuf.size < s.latch.start.toNat + s.latch.len.toNat →
      exec .ipDecode s = .next (errorCompletion s .bounds 0 0)) ∧
    (inRange s → s.latch.len.toNat < 20 → exec .ipDecode s = .next (errorCompletion s .ipShort s.latch.len 0)) ∧
    (inRange s → 20 ≤ s.latch.len.toNat → bytesAt s.pbuf s.latch.start.toNat (ipRaw v rf df mf h) →
      (v ≠ 4 → exec .ipDecode s = .next (errorCompletion s .ipVersion (v.setWidth 32) 0)) ∧
      (v = 4 → df = true → mf = true → exec .ipDecode s = .next (errorCompletion s .ipFragBoth 0 0)) ∧
      (v = 4 → ¬(df = true ∧ mf = true) → h.ihl.toNat < 5 ∨ s.latch.len.toNat < 4 * h.ihl.toNat →
        exec .ipDecode s = .next (errorCompletion s .ipHdrLen (h.ihl.setWidth 32) 0)))) ∧
  (∀ s : State,
    (s.pbuf.size < s.latch.start.toNat + s.latch.len.toNat →
      exec .ipEncode s = .next (errorCompletion s .bounds 0 0)) ∧
    (inRange s → s.iph.ihl ≠ 5 ∨ s.iph.totlen.toNat < 20 →
      exec .ipEncode s = .next (errorCompletion s .encIpLen (s.iph.ihl.setWidth 32) 0)) ∧
    (inRange s → s.iph.ihl = 5 → 20 ≤ s.iph.totlen.toNat → s.latch.len.toNat < s.iph.totlen.toNat →
      exec .ipEncode s = .next (errorCompletion s .encBuf s.latch.len 0)) ∧
    (inRange s → s.iph.ihl = 5 → 20 ≤ s.iph.totlen.toNat → s.iph.totlen.toNat ≤ s.latch.len.toNat →
      s.iph.frag = 3 → exec .ipEncode s = .next (errorCompletion s .encFrag 0 0)))

/-- IPv4 round trip (40_ipv4_codec.md section 4). Registers to bytes to registers: IP_ENCODE of valid registers
succeeds, and an IP_DECODE of at least 20 of the bytes, whatever IPH holds by then, gives every IPH register back with
RESULT_LEN = 20. Bytes to registers to bytes: a header with IHL 5, reserved flag bit 0 and total length at least 20
that decodes is written back byte for byte. -/
def Obligations.IpRoundTrip : Prop :=
  (∀ (s : State) (g : IpHeader) (n : Word),
    inRange s → s.iph.ihl = 5 → 20 ≤ s.iph.totlen.toNat → s.iph.totlen.toNat ≤ s.latch.len.toNat → s.iph.frag ≠ 3 →
    20 ≤ n.toNat → s.latch.start.toNat + n.toNat ≤ s.pbuf.size →
    ∃ t u, exec .ipEncode s = .next t ∧
      exec .ipDecode { t with iph := g, latch := { t.latch with len := n } } = .next u ∧
      u.status.err = false ∧ u.iph = s.iph ∧ u.resultLen = 20) ∧
  (∀ (s : State) (h : IpHeader) (df mf : Bool) (a n : Word),
    inRange s → bytesAt s.pbuf s.latch.start.toNat (ipRaw 4 false df mf h) → ¬(df = true ∧ mf = true) →
    h.ihl = 5 → 20 ≤ s.latch.len.toNat → 20 ≤ h.totlen.toNat → h.totlen.toNat ≤ n.toNat →
    a.toNat + n.toNat ≤ s.pbuf.size →
    ∃ t u, exec .ipDecode s = .next t ∧
      exec .ipEncode { t with latch := { t.latch with start := a, len := n } } = .next u ∧
      u.status.err = false ∧ bytesAt u.pbuf a.toNat (ipRaw 4 false df mf h))

/-! ### TCP codec -/

/-- TCP_DECODE of a header laid out in PBUF: fixed fields `h`, whatever the reserved nibble `r`, and an option list of
supported kinds that fills the rest of the header exactly. Every TCPH register takes its field, OPTCNT the number of
options, OPT the options in order with unused words 0, RESULT_LEN = 4 DOFF (41_tcp_codec.md sections 1, 2 and 4). -/
def Obligations.TcpDecodeSucceeds : Prop :=
  ∀ (s : State) (h : TcpHeader) (r : BitVec 4) (opts : List TcpOption),
    inRange s → bytesAt s.pbuf s.latch.start.toNat (tcpWire h r ++ wireBytes opts) → optsOk opts →
    5 ≤ h.doff.toNat → 20 + wireSize opts = 4 * h.doff.toNat → 4 * h.doff.toNat ≤ s.latch.len.toNat →
    ∃ t, exec .tcpDecode s = .next t ∧ entriesWritten s.opt t.opt opts ∧ opts.length ≤ 40 ∧
      t = successCompletion { s with tcph := h, optcnt := BitVec.ofNat 6 opts.length, opt := t.opt } false 0
        (BitVec.ofNat 32 (4 * h.doff.toNat))

/-- The errors of TCP_DECODE before its option walk and of TCP_ENCODE before its option list, each in its order, with
their ERR_INFO (41_tcp_codec.md sections 1 and 3 to 5). -/
def Obligations.TcpCodecErrors : Prop :=
  (∀ (s : State) (b12 : Byte),
    (s.pbuf.size < s.latch.start.toNat + s.latch.len.toNat →
      exec .tcpDecode s = .next (errorCompletion s .bounds 0 0)) ∧
    (inRange s → s.latch.len.toNat < 20 → exec .tcpDecode s = .next (errorCompletion s .tcpShort s.latch.len 0)) ∧
    (inRange s → 20 ≤ s.latch.len.toNat → cellGet s.pbuf.bytes (s.latch.start.toNat + 12) = some b12 →
      b12.toNat / 16 < 5 ∨ s.latch.len.toNat < 4 * (b12.toNat / 16) →
      exec .tcpDecode s = .next (errorCompletion s .tcpDoff (BitVec.ofNat 32 (b12.toNat / 16)) 0))) ∧
  (∀ s : State,
    (s.pbuf.size < s.latch.start.toNat + s.latch.len.toNat →
      exec .tcpEncode s = .next (errorCompletion s .bounds 0 0)) ∧
    (inRange s → s.tcph.doff.toNat < 5 →
      exec .tcpEncode s = .next (errorCompletion s .tcpDoff (s.tcph.doff.setWidth 32) 0)) ∧
    (inRange s → 5 ≤ s.tcph.doff.toNat → s.latch.len.toNat < 4 * s.tcph.doff.toNat →
      exec .tcpEncode s = .next (errorCompletion s .encBuf s.latch.len 0)) ∧
    (inRange s → 5 ≤ s.tcph.doff.toNat → 4 * s.tcph.doff.toNat ≤ s.latch.len.toNat → 40 < s.optcnt.toNat →
      exec .tcpEncode s = .next (errorCompletion s .encOptLen (s.optcnt.setWidth 32) 0)))

/-- TCP_DECODE reports the first bad option of the walk, by its offset from the start of the TCP header: after a list of
good options comes an unsupported kind, an unknown kind, a kind whose length byte is missing, wrong for it, or that runs
past the header (41_tcp_codec.md sections 1, 2 and 4). -/
def Obligations.TcpDecodeReportsTheFirstBadOption : Prop :=
  ∀ (s : State) (h : TcpHeader) (r : BitVec 4) (opts : List TcpOption) (k l : Byte) (p : Nat),
    inRange s → 5 ≤ h.doff.toNat → 4 * h.doff.toNat ≤ s.latch.len.toNat → optsOk opts →
    p = 20 + wireSize opts → p < 4 * h.doff.toNat →
    bytesAt s.pbuf s.latch.start.toNat (tcpWire h r ++ wireBytes opts ++ [k]) →
    (k = 29 ∨ k = 30 →
      exec .tcpDecode s = .next (errorCompletion s .tcpOptUnsupported (BitVec.ofNat 32 p) 0)) ∧
    (k ∉ encodableKinds → k ≠ 29 → k ≠ 30 →
      exec .tcpDecode s = .next (errorCompletion s .tcpOptUnknown (BitVec.ofNat 32 p) 0)) ∧
    (k ∈ sizedKinds.map Prod.snd →
      p + 1 = 4 * h.doff.toNat ∨
        (cellGet s.pbuf.bytes (s.latch.start.toNat + p + 1) = some l ∧ (badLength k l ∨ 4 * h.doff.toNat < p + l.toNat)) →
      exec .tcpDecode s = .next (errorCompletion s .tcpOptLen (BitVec.ofNat 32 p) 0))

/-- One round of the option walk, for each supported kind: an option laid out at the walk's offset inside the header is
appended to the list and the offset moves past it; nothing else changes, no byte of PBUF among it (41_tcp_codec.md
sections 1 and 2; the rounds as steps are the model's own, log 8). -/
def Obligations.OptionRoundsDecode : Prop :=
  ∀ (s : State) (e : TcpOption), e.wellFormed = true → s.walk.base + s.walk.hl ≤ s.pbuf.size →
    s.walk.p + optSize e ≤ s.walk.hl → bytesAt s.pbuf (s.walk.base + s.walk.p) (optBytes e) →
    exec (optInstr e) s = .next { s with
      walk := { s.walk with p := s.walk.p + optSize e, opts := s.walk.opts ++ [e] } }

/-- Frame of the option kinds: a round of the walk changes only the hidden working copy, or it ends the running command
with TCP_OPT_LEN or TCP_OPT_UNSUPPORTED and the option's offset, STATUS, ERR_INFO and RESULT_LEN changing and nothing
else of the block; no byte of PBUF changes (41_tcp_codec.md section 1,
60_exceptions.md section 2, log 8). -/
def Obligations.OptionRoundsTouchOnlyTheWalk : Prop :=
  ∀ (i : Instr) (s t : State), isCommand i = false → exec i s = .next t →
    (sameButWalk s t ∨ ∃ e : Err, (e = .tcpOptLen ∨ e = .tcpOptUnsupported) ∧
      t = errorCompletion s e (BitVec.ofNat 32 s.walk.p) (if s.latch.op = 7 then 6 else 0)) ∧
    ∀ a, readByte t.pbuf a = readByte s.pbuf a

/-- The length byte check: an option of kind 2, 3, 4, 5, 8 or 28 whose length byte is not the kind's ends the command
with TCP_OPT_LEN and its offset, and so does one without a length byte or running past the header; one whose length byte
is the kind's and that fits is taken with that size (41_tcp_codec.md sections 1 and 2; the rounds as steps are the
model's own, log 8). -/
def Obligations.OptionLengthErrors : Prop :=
  ∀ (i : Instr) (k l : Byte) (s : State), (i, k) ∈ sizedKinds →
    s.walk.base + s.walk.hl ≤ s.pbuf.size → s.walk.p < s.walk.hl →
    (s.walk.p + 1 = s.walk.hl ∨
      (cellGet s.pbuf.bytes (s.walk.base + s.walk.p + 1) = some l ∧ (badLength k l ∨ s.walk.hl < s.walk.p + l.toNat)) →
      exec i s = .next (errorCompletion s .tcpOptLen (BitVec.ofNat 32 s.walk.p) (if s.latch.op = 7 then 6 else 0))) ∧
    (cellGet s.pbuf.bytes (s.walk.base + s.walk.p + 1) = some l → ¬badLength k l → s.walk.p + l.toNat ≤ s.walk.hl →
      ∀ t, exec i s = .next t →
        t = { s with walk := { s.walk with p := s.walk.p + l.toNat, opts := t.walk.opts } })

/-- Authentication and Multipath end the running command with TCP_OPT_UNSUPPORTED at their kind byte, before any length
byte is read (41_tcp_codec.md section 2; that the two kinds are steps of their own is the model's choice, log 8). -/
def Obligations.UnsupportedOptionsEndTheCommand : Prop :=
  ∀ s : State,
    exec .optAuth s = .next (errorCompletion s .tcpOptUnsupported (BitVec.ofNat 32 s.walk.p)
      (if s.latch.op = 7 then 6 else 0)) ∧
    exec .optMptcp s = .next (errorCompletion s .tcpOptUnsupported (BitVec.ofNat 32 s.walk.p)
      (if s.latch.op = 7 then 6 else 0))

/-- TCP_ENCODE of registers that describe a valid header writes its bytes at lat_start, RESULT_LEN = 4 DOFF; every other
byte and every other register keeps its value (41_tcp_codec.md sections 3 and 5). -/
def Obligations.TcpEncodeSucceeds : Prop :=
  ∀ (s : State) (opts : List TcpOption), inRange s → tcpValid s opts → 4 * s.tcph.doff.toNat ≤ s.latch.len.toNat →
    ∃ t, exec .tcpEncode s = .next t ∧
      bytesAt t.pbuf s.latch.start.toNat (tcpWire s.tcph 0 ++ wireBytes opts) ∧
      (∀ a, a < s.latch.start.toNat ∨ s.latch.start.toNat + 4 * s.tcph.doff.toNat ≤ a →
        readByte t.pbuf a = readByte s.pbuf a) ∧
      t = successCompletion { s with pbuf := { s.pbuf with bytes := t.pbuf.bytes } } false 0 (BitVec.ofNat 32 (4 * s.tcph.doff.toNat))

/-- The option list's errors on encode, for TCP_ENCODE, TCP_CSUM and FRAME_ENCODE alike: the first entry of an
unsupported or unknown kind is reported by its index, before the sizes are looked at; a list of supported kinds whose
sizes do not sum to 4 DOFF - 20 is reported with that sum (41_tcp_codec.md section 3). -/
def Obligations.EncodersRefuseBadOptionLists : Prop :=
  ∀ (i : Instr) (s : State) (heads : List Word) (w : Word),
    inRange s → 5 ≤ s.tcph.doff.toNat → s.optcnt.toNat ≤ 40 →
    ((i = .tcpEncode ∧ 4 * s.tcph.doff.toNat ≤ s.latch.len.toNat) ∨ i = .tcpCsum ∨
      (i = .frameEncode ∧ s.iph.ihl = 5 ∧ s.iph.frag ≠ 3 ∧ s.iph.totlen.toNat ≤ s.latch.len.toNat ∧
        s.iph.totlen.toNat = 20 + 4 * s.tcph.doff.toNat + s.latch.aux.toNat)) →
    (∀ j (h : j < heads.length), cellGet s.opt (12 * j) = some heads[j] ∧ heads[j].extractLsb' 0 8 ∈ encodableKinds) →
    (heads.length < s.optcnt.toNat → cellGet s.opt (12 * heads.length) = some w →
      (w.extractLsb' 0 8 = (29 : Byte) ∨ w.extractLsb' 0 8 = (30 : Byte) →
        exec i s = .next (errorCompletion s .tcpOptUnsupported (BitVec.ofNat 32 heads.length) 0)) ∧
      (w.extractLsb' 0 8 ∉ encodableKinds → w.extractLsb' 0 8 ≠ (29 : Byte) → w.extractLsb' 0 8 ≠ (30 : Byte) →
        exec i s = .next (errorCompletion s .tcpOptUnknown (BitVec.ofNat 32 heads.length) 0))) ∧
    (heads.length = s.optcnt.toNat → (heads.map entrySize).sum ≠ 4 * s.tcph.doff.toNat - 20 →
      exec i s = .next (errorCompletion s .encOptLen (BitVec.ofNat 32 (heads.map entrySize).sum) 0))

/-- TCP round trip (41_tcp_codec.md section 6): TCP_ENCODE of registers that describe a valid header succeeds, and a
TCP_DECODE of at least 4 DOFF of the bytes, whatever TCPH and OPT hold by then, gives back the same fixed fields and
the same options in the same order, with RESULT_LEN = 4 DOFF. -/
def Obligations.TcpRoundTrip : Prop :=
  ∀ (s : State) (opts : List TcpOption) (g : TcpHeader) (c : BitVec 6) (o : List (Nat × Word)) (n : Word),
    inRange s → tcpValid s opts → 4 * s.tcph.doff.toNat ≤ s.latch.len.toNat → 4 * s.tcph.doff.toNat ≤ n.toNat →
    s.latch.start.toNat + n.toNat ≤ s.pbuf.size →
    ∃ t u, exec .tcpEncode s = .next t ∧
      exec .tcpDecode { t with tcph := g, optcnt := c, opt := o, latch := { t.latch with len := n } } = .next u ∧
      u.status.err = false ∧ u.tcph = s.tcph ∧ u.optcnt = s.optcnt ∧ entriesHold u.opt opts ∧
      u.resultLen = BitVec.ofNat 32 (4 * s.tcph.doff.toNat)

/-! ### Checksums -/

/-- The carry-fold: a number above 0xFFFF is replaced by the sum of its low 16 bits and the rest until it fits 16 bits;
it is 0 only for 0 (42_checksum.md R231). -/
def Obligations.FoldIsTheCarryFold : Prop :=
  (∀ x : Nat, 0xFFFF < x → fold x = fold (x % 0x10000 + x / 0x10000)) ∧
  (∀ x : Nat, x ≤ 0xFFFF → fold x = x) ∧
  (∀ x : Nat, fold x ≤ 0xFFFF) ∧
  (∀ x : Nat, fold x = 0 ↔ x = 0)

/-- The checksum in closed form: the complement of the word sum's representative modulo 0xFFFF, 0 only for an all-zero
input; and every sum the block computes fits the accumulator of
`CSUM_ACC_WIDTH` bits (42_checksum.md section 1, 00_scope.md section 3). -/
def Obligations.ChecksumClosedForm : Prop :=
  (∀ bs : List Byte, (csum bs).toNat =
    if wireSum bs = 0 then 0xFFFF else if wireSum bs % 0xFFFF = 0 then 0 else 0xFFFF - wireSum bs % 0xFFFF) ∧
  (∀ bs : List Byte, bs.length ≤ 12 + 0xFFFF → wireSum bs < 2 ^ Config.csumAccWidth)

/-- IP_CSUM: the checksum of the 20-byte image with a zero checksum field goes to CSUM_RESULT, CSUM_OK says whether
IPH_CSUM equals it, RESULT_LEN = 20; IPH_FRAG = 3 ends it with ENC_FRAG; no operand is used (42_checksum.md R233). -/
def Obligations.IpCsumResult : Prop :=
  ∀ (s : State) (c : Half), c = csum (ipWire { s.iph with csum := 0 }) →
    (s.iph.frag ≠ 3 →
      exec .ipCsum s = .next (successCompletion { s with csumResult := c } (decide (c = s.iph.csum)) 0 20)) ∧
    (s.iph.frag = 3 → exec .ipCsum s = .next (errorCompletion s .encFrag 0 0))

/-- TCP_CSUM over the addresses, the header image with a zero checksum field and the payload bytes at lat_start: the
checksum goes to CSUM_RESULT, CSUM_OK says whether TCPH_CSUM equals it, RESULT_LEN = 12 + 4 DOFF + n
(42_checksum.md section 3). -/
def Obligations.TcpCsumSucceeds : Prop :=
  ∀ (s : State) (opts : List TcpOption) (pay : List Byte) (c : Half),
    inRange s → tcpValid s opts → pay.length = s.latch.len.toNat → bytesAt s.pbuf s.latch.start.toNat pay →
    4 * s.tcph.doff.toNat + pay.length ≤ 0xFFFF →
    c = csum (pseudoWire s.iph.src s.iph.dst (4 * s.tcph.doff.toNat + pay.length) ++
      tcpWire { s.tcph with csum := 0 } 0 ++ wireBytes opts ++ pay) →
    exec .tcpCsum s = .next (successCompletion { s with csumResult := c } (decide (c = s.tcph.csum)) 0
      (BitVec.ofNat 32 (12 + 4 * s.tcph.doff.toNat + pay.length)))

/-- TCP_CSUM's errors: BOUNDS first, then the header's, then CSUM_LEN with tcpHL + n when that exceeds 65535
(42_checksum.md sections 3 and 4). -/
def Obligations.TcpCsumErrors : Prop :=
  ∀ (s : State) (opts : List TcpOption),
    (s.pbuf.size < s.latch.start.toNat + s.latch.len.toNat →
      exec .tcpCsum s = .next (errorCompletion s .bounds 0 0)) ∧
    (inRange s → s.tcph.doff.toNat < 5 →
      exec .tcpCsum s = .next (errorCompletion s .tcpDoff (s.tcph.doff.setWidth 32) 0)) ∧
    (inRange s → 5 ≤ s.tcph.doff.toNat → 40 < s.optcnt.toNat →
      exec .tcpCsum s = .next (errorCompletion s .encOptLen (s.optcnt.setWidth 32) 0)) ∧
    (inRange s → tcpValid s opts → 0xFFFF < 4 * s.tcph.doff.toNat + s.latch.len.toNat →
      exec .tcpCsum s = .next
        (errorCompletion s .csumLen (BitVec.ofNat 32 (4 * s.tcph.doff.toNat + s.latch.len.toNat)) 0))

/-- Single-bit sensitivity: flipping any one bit of any byte the checksum covers changes it (42_checksum.md
section 4). -/
def Obligations.FlippedBitChangesTheChecksum : Prop :=
  ∀ (bs : List Byte) (i k : Nat) (h : i < bs.length), k < 8 →
    csum (bs.set i (bs[i] ^^^ (1#8 <<< k))) ≠ csum bs

/-- Stamping verifies: with the checksum IP_CSUM computed written to IPH_CSUM, a second IP_CSUM answers CSUM_OK = 1 and
the 20 bytes of the header sum to 0xFFFF after the carry-fold (42_checksum.md sections 2 and 4, 95_test_vectors.md
section 2). -/
def Obligations.StampedHeaderVerifies : Prop :=
  ∀ s : State, s.iph.frag ≠ 3 →
    ∃ t u, exec .ipCsum s = .next t ∧
      exec .ipCsum { t with iph := { t.iph with csum := t.csumResult } } = .next u ∧
      u.status.csumOk = true ∧ u.csumResult = t.csumResult ∧ fold (wireSum (ipWire u.iph)) = 0xFFFF

/-! ### Dispatcher and frame encoder -/

/-- DISPATCH's silent drops on raw bytes, in their order: too short, wrong version, wrong protocol, wrong port
(43_dispatcher.md section 1). -/
def Obligations.DispatchDrops : Prop :=
  ∀ (s : State) (b0 b9 hi lo : Byte), inRange s →
    (s.latch.len.toNat < 40 → exec .dispatch s = .next (dropCompletion s 2)) ∧
    (40 ≤ s.latch.len.toNat → cellGet s.pbuf.bytes s.latch.start.toNat = some b0 →
      (b0.extractLsb' 4 4 ≠ (4 : BitVec 4) → exec .dispatch s = .next (dropCompletion s 3)) ∧
      (b0.extractLsb' 4 4 = (4 : BitVec 4) → cellGet s.pbuf.bytes (s.latch.start.toNat + 9) = some b9 →
        (b9 ≠ 6 → exec .dispatch s = .next (dropCompletion s 4)) ∧
        (b9 = 6 → 5 ≤ b0.toNat % 16 → 4 * (b0.toNat % 16) + 4 ≤ s.latch.len.toNat →
          cellGet s.pbuf.bytes (s.latch.start.toNat + 4 * (b0.toNat % 16) + 2) = some hi →
          cellGet s.pbuf.bytes (s.latch.start.toNat + 4 * (b0.toNat % 16) + 3) = some lo →
          hi ++ lo ≠ s.localPort → exec .dispatch s = .next (dropCompletion s 5))))

/-- DISPATCH's errors in their order: BOUNDS with DISP 0; then, with DISP 6, a header too short for its port, both
fragment bits, a total length that does not fit the frame or the headers, a TCP header that does not fit, and the first
bad option of its list by its offset from the start of the TCP header (43_dispatcher.md section 1, 41_tcp_codec.md
sections 1 and 2). -/
def Obligations.DispatchErrors : Prop :=
  (∀ (s : State) (b0 : Byte) (h : IpHeader) (th : TcpHeader) (r : BitVec 4) (rf df mf : Bool),
    (s.pbuf.size < s.latch.start.toNat + s.latch.len.toNat →
      exec .dispatch s = .next (errorCompletion s .bounds 0 0)) ∧
    (inRange s → 40 ≤ s.latch.len.toNat → cellGet s.pbuf.bytes s.latch.start.toNat = some b0 →
      cellGet s.pbuf.bytes (s.latch.start.toNat + 9) = some 6 → b0.extractLsb' 4 4 = (4 : BitVec 4) →
      b0.toNat % 16 < 5 ∨ s.latch.len.toNat < 4 * (b0.toNat % 16) + 4 →
      exec .dispatch s = .next (errorCompletion s .ipHdrLen (BitVec.ofNat 32 (b0.toNat % 16)) 6)) ∧
    (inRange s → 40 ≤ s.latch.len.toNat → bytesAt s.pbuf s.latch.start.toNat (ipRaw 4 rf df mf h) → h.proto = 6 →
      5 ≤ h.ihl.toNat → 4 * h.ihl.toNat + 4 ≤ s.latch.len.toNat →
      bytesAt s.pbuf (s.latch.start.toNat + 4 * h.ihl.toNat + 2)
        [s.localPort.extractLsb' 8 8, s.localPort.extractLsb' 0 8] →
      (df = true → mf = true → exec .dispatch s = .next (errorCompletion s .ipFragBoth 0 6)) ∧
      (¬(df = true ∧ mf = true) → s.latch.len.toNat < h.totlen.toNat ∨ h.totlen.toNat < 4 * h.ihl.toNat + 20 →
        exec .dispatch s = .next (errorCompletion s .frameLen (h.totlen.setWidth 32) 6)) ∧
      (¬(df = true ∧ mf = true) → h.totlen.toNat ≤ s.latch.len.toNat → 4 * h.ihl.toNat + 20 ≤ h.totlen.toNat →
        bytesAt s.pbuf (s.latch.start.toNat + 4 * h.ihl.toNat) (tcpWire th r) →
        th.doff.toNat < 5 ∨ h.totlen.toNat - 4 * h.ihl.toNat < 4 * th.doff.toNat →
        exec .dispatch s = .next (errorCompletion s .tcpDoff (th.doff.setWidth 32) 6)))) ∧
  (∀ (s : State) (h : IpHeader) (rf df mf : Bool) (th : TcpHeader) (r : BitVec 4) (opts : List TcpOption) (k l : Byte)
      (p : Nat),
    inRange s → bytesAt s.pbuf s.latch.start.toNat (ipRaw 4 rf df mf h) → ¬(df = true ∧ mf = true) → h.proto = 6 →
    5 ≤ h.ihl.toNat → th.dport = s.localPort → 5 ≤ th.doff.toNat → optsOk opts →
    bytesAt s.pbuf (s.latch.start.toNat + 4 * h.ihl.toNat) (tcpWire th r ++ wireBytes opts ++ [k]) →
    4 * h.ihl.toNat + 4 * th.doff.toNat ≤ h.totlen.toNat → h.totlen.toNat ≤ s.latch.len.toNat →
    p = 20 + wireSize opts → p < 4 * th.doff.toNat →
    (k = 29 ∨ k = 30 →
      exec .dispatch s = .next (errorCompletion s .tcpOptUnsupported (BitVec.ofNat 32 p) 6)) ∧
    (k ∉ encodableKinds → k ≠ 29 → k ≠ 30 →
      exec .dispatch s = .next (errorCompletion s .tcpOptUnknown (BitVec.ofNat 32 p) 6)) ∧
    (k ∈ sizedKinds.map Prod.snd →
      p + 1 = 4 * th.doff.toNat ∨
        (cellGet s.pbuf.bytes (s.latch.start.toNat + 4 * h.ihl.toNat + p + 1) = some l ∧
          (badLength k l ∨ 4 * th.doff.toNat < p + l.toNat)) →
      exec .dispatch s = .next (errorCompletion s .tcpOptLen (BitVec.ofNat 32 p) 6)))

/-- DISPATCH of a well-formed frame for the bound port accepts it: IPH, TCPH and OPT take the headers, the flow key the
inbound source and the bound destination, the payload descriptor the slice behind the headers; bytes past the total
length and IPv4 option bytes are not read (43_dispatcher.md sections 1 and 2). -/
def Obligations.DispatchAccepts : Prop :=
  ∀ (s : State) (h : IpHeader) (rf df mf : Bool) (th : TcpHeader) (r : BitVec 4) (opts : List TcpOption),
    inRange s → bytesAt s.pbuf s.latch.start.toNat (ipRaw 4 rf df mf h) → ¬(df = true ∧ mf = true) →
    h.frag = fragOf df mf → h.proto = 6 → 5 ≤ h.ihl.toNat →
    bytesAt s.pbuf (s.latch.start.toNat + 4 * h.ihl.toNat) (tcpWire th r ++ wireBytes opts) → optsOk opts →
    th.dport = s.localPort → 5 ≤ th.doff.toNat → 20 + wireSize opts = 4 * th.doff.toNat →
    4 * h.ihl.toNat + 4 * th.doff.toNat ≤ h.totlen.toNat → h.totlen.toNat ≤ s.latch.len.toNat →
    ∃ t, exec .dispatch s = .next t ∧ entriesWritten s.opt t.opt opts ∧ opts.length ≤ 40 ∧
      t = successCompletion
        { s with
          iph := h
          tcph := th
          optcnt := BitVec.ofNat 6 opts.length
          opt := t.opt
          fk := { srcAddr := h.src, dstAddr := s.localAddr, srcPort := th.sport, dstPort := s.localPort }
          payloadOff := BitVec.ofNat 32 (s.latch.start.toNat + 4 * h.ihl.toNat + 4 * th.doff.toNat)
          payloadLen := BitVec.ofNat 32 (h.totlen.toNat - 4 * h.ihl.toNat - 4 * th.doff.toNat) }
        false 1 (BitVec.ofNat 32 (4 * h.ihl.toNat + 4 * th.doff.toNat))

/-- Every accepted frame leaves the flow key of its source and the bound destination, whose port is the frame's own
(43_dispatcher.md R270). -/
def Obligations.AcceptedFlowKey : Prop :=
  ∀ s t : State, exec .dispatch s = .next t → t.status.disp = 1 →
    t.fk = { srcAddr := t.iph.src, dstAddr := s.localAddr, srcPort := t.tcph.sport, dstPort := s.localPort } ∧
    t.fk.dstPort = t.tcph.dport

/-- The payload slice of every accepted frame lies inside the frame, behind its headers (43_dispatcher.md section 2), in
a PBUF whose indices fit the 32-bit PAYLOAD_OFF. -/
def Obligations.AcceptedPayloadLiesInsideTheFrame : Prop :=
  ∀ s t : State, s.pbuf.size < 2 ^ 32 → exec .dispatch s = .next t → t.status.disp = 1 →
    t.payloadOff.toNat = s.latch.start.toNat + 4 * t.iph.ihl.toNat + 4 * t.tcph.doff.toNat ∧
    4 * t.iph.ihl.toNat + 4 * t.tcph.doff.toNat + t.payloadLen.toNat = t.iph.totlen.toNat ∧
    t.payloadOff.toNat + t.payloadLen.toNat ≤ s.latch.start.toNat + s.latch.len.toNat

/-- FRAME_ENCODE of valid registers whose total length is 20 + 4 DOFF + lat_aux writes both headers from lat_start on,
RESULT_LEN = IPH_TOTLEN; the payload bytes, every other byte and every other register keep their values
(43_dispatcher.md section 3). -/
def Obligations.FrameEncodeSucceeds : Prop :=
  ∀ (s : State) (opts : List TcpOption), inRange s → tcpValid s opts → s.iph.ihl = 5 → s.iph.frag ≠ 3 →
    s.iph.totlen.toNat = 20 + 4 * s.tcph.doff.toNat + s.latch.aux.toNat →
    s.iph.totlen.toNat ≤ s.latch.len.toNat →
    ∃ t, exec .frameEncode s = .next t ∧
      bytesAt t.pbuf s.latch.start.toNat (ipWire s.iph ++ tcpWire s.tcph 0 ++ wireBytes opts) ∧
      (∀ a, a < s.latch.start.toNat ∨ s.latch.start.toNat + 20 + 4 * s.tcph.doff.toNat ≤ a →
        readByte t.pbuf a = readByte s.pbuf a) ∧
      t = successCompletion { s with pbuf := { s.pbuf with bytes := t.pbuf.bytes } } false 0 (s.iph.totlen.setWidth 32)

/-- FRAME_ENCODE's errors in their order, with their ERR_INFO (43_dispatcher.md section 3). -/
def Obligations.FrameEncodeErrors : Prop :=
  ∀ (s : State) (want : Nat), want = 4 * s.iph.ihl.toNat + 4 * s.tcph.doff.toNat + s.latch.aux.toNat →
    (s.pbuf.size < s.latch.start.toNat + s.latch.len.toNat →
      exec .frameEncode s = .next (errorCompletion s .bounds 0 0)) ∧
    (inRange s → s.iph.totlen.toNat ≠ want →
      exec .frameEncode s = .next (errorCompletion s .encTotlenMismatch (BitVec.ofNat 32 want) 0)) ∧
    (inRange s → s.iph.totlen.toNat = want →
      (s.iph.ihl ≠ 5 ∨ s.iph.totlen.toNat < 20 →
        exec .frameEncode s = .next (errorCompletion s .encIpLen (s.iph.ihl.setWidth 32) 0)) ∧
      (s.iph.ihl = 5 → 20 ≤ s.iph.totlen.toNat →
        (s.latch.len.toNat < s.iph.totlen.toNat →
          exec .frameEncode s = .next (errorCompletion s .encBuf s.latch.len 0)) ∧
        (s.iph.totlen.toNat ≤ s.latch.len.toNat →
          (s.iph.frag = 3 → exec .frameEncode s = .next (errorCompletion s .encFrag 0 0)) ∧
          (s.iph.frag ≠ 3 → s.tcph.doff.toNat < 5 →
            exec .frameEncode s = .next (errorCompletion s .tcpDoff (s.tcph.doff.setWidth 32) 0)) ∧
          (s.iph.frag ≠ 3 → 5 ≤ s.tcph.doff.toNat → 40 < s.optcnt.toNat →
            exec .frameEncode s = .next (errorCompletion s .encOptLen (s.optcnt.setWidth 32) 0)))))

/-- A frame FRAME_ENCODE wrote is accepted by DISPATCH bound to its destination port, whatever the header registers hold
by then, and gives back both headers and the option list, with the payload slice of lat_aux bytes behind them
(43_dispatcher.md sections 1 to 3). -/
def Obligations.EncodedFrameIsAccepted : Prop :=
  ∀ (s : State) (opts : List TcpOption) (g : IpHeader) (gt : TcpHeader) (c : BitVec 6) (o : List (Nat × Word)),
    inRange s → tcpValid s opts → s.iph.ihl = 5 → s.iph.frag ≠ 3 → s.iph.proto = 6 →
    s.iph.totlen.toNat = 20 + 4 * s.tcph.doff.toNat + s.latch.aux.toNat →
    s.iph.totlen.toNat ≤ s.latch.len.toNat → s.tcph.dport = s.localPort →
    ∃ t u, exec .frameEncode s = .next t ∧
      exec .dispatch { t with iph := g, tcph := gt, optcnt := c, opt := o } = .next u ∧
      u.status.disp = 1 ∧ u.iph = s.iph ∧ u.tcph = s.tcph ∧ u.optcnt = s.optcnt ∧ entriesHold u.opt opts ∧
      u.fk = { srcAddr := s.iph.src, dstAddr := s.localAddr, srcPort := s.tcph.sport, dstPort := s.localPort } ∧
      u.payloadOff = BitVec.ofNat 32 (s.latch.start.toNat + 20 + 4 * s.tcph.doff.toNat) ∧
      u.payloadLen = s.latch.aux

/-! ### What every step keeps -/

/-- Every step keeps the status record consistent and, while BUSY, CMD equal to the running opcode (10_state.md
section 2.1, 60_exceptions.md sections 1 and 2, 43_dispatcher.md section 1). -/
def Obligations.StatusStaysConsistent : Prop :=
  ∀ s t : State, statusInv s → latchInv s → step s = .next t → statusInv t ∧ latchInv t

/-- Every step keeps `PBUF_SIZE`, and PBUF and OPT in canonical form: a legal size, addresses rising and inside the
stores, and no bit of an entry's w0 above bit 10 (00_scope.md section 3, 10_state.md section 2.4, 20_memory.md
section 1; the form is the model's own, log 4). -/
def Obligations.MemoryStaysCanonical : Prop :=
  ∀ s t : State, step s = .next t → t.pbuf.size = s.pbuf.size ∧ (memWf s → memWf t)

/-- Every step keeps a running option walk a part of the running command's own walk (41_tcp_codec.md section 1,
log 8). -/
def Obligations.WalkStaysPartOfTheCommand : Prop :=
  ∀ s t : State, walkInv s → step s = .next t → walkInv t

/-- The walk's turns show nothing: from a state that meets the walk's invariant, a walk turn changes only the hidden
working copy, or does exactly what the command's completion step would do; and after a walk turn that leaves the command
running, the completion step ends in the same outcome as before it (00_scope.md sections 4 and 6, 41_tcp_codec.md
section 1; the turns are the model's own, log 8). -/
def Obligations.WalkTurnsAreInvisible : Prop :=
  ∀ s : State, walkInv s →
    (∀ t, walkTurn s = .next t → (sameButWalk s t ∧ engineTurn t = engineTurn s) ∨ engineTurn s = .next t) ∧
    (∀ f, walkTurn s = .fault f → engineTurn s = .fault f) ∧
    (∀ r, walkTurn s ≠ .refused r)

/-- Only the engine's completion, a bad option of the running command's walk or a reset ends BUSY; the first two set
DONE, and reset leaves it clear (70_reset_and_hazards.md sections 1 and 3, log 8). -/
def Obligations.OnlyCompletionOrResetEndsBusy : Prop :=
  ∀ s t : State, step s = .next t → s.status.busy = true → t.status.busy = false →
    (nextTurn s = .engine ∧ t.status.done = true) ∨
    (nextTurn s = .walk ∧ t.status.done = true ∧ t.status.err = true) ∨
    (nextTurn s = .reset ∧ t.status.done = false)

/-- No turn of the host changes a result: RESULT_LEN, ERR_INFO, CSUM_RESULT, the flow key, the payload descriptor and
the error and disposition fields of STATUS stay until the next completion or reset; while BUSY the host also changes no
header register, OPT word, PBUF byte, binding, latch or CMD, and BUSY stays; DONE never rises by the host (10_state.md section 2.1,
60_exceptions.md section 2, 70_reset_and_hazards.md section 3). -/
def Obligations.HostTurnsKeepResults : Prop :=
  ∀ s t : State, nextTurn s = .host → step s = .next t →
    t.resultLen = s.resultLen ∧ t.errInfo = s.errInfo ∧ t.csumResult = s.csumResult ∧ t.fk = s.fk ∧
    t.payloadOff = s.payloadOff ∧ t.payloadLen = s.payloadLen ∧ t.status.err = s.status.err ∧
    t.status.errcode = s.status.errcode ∧ t.status.csumOk = s.status.csumOk ∧ t.status.disp = s.status.disp ∧
    (t.status.done = true → s.status.done = true) ∧
    (s.status.busy = true → t.status.busy = true ∧
      t.iph = s.iph ∧ t.tcph = s.tcph ∧ t.optcnt = s.optcnt ∧ t.opt = s.opt ∧ t.pbuf = s.pbuf ∧
      t.localAddr = s.localAddr ∧ t.localPort = s.localPort ∧ t.latch = s.latch ∧ t.cmd = s.cmd ∧ t.walk = s.walk)
end

