-- ==== Sys2Proof/Laws/Cells.lean ====
section
/-!
SUPPORT. The sparse stores behind PBUF and OPT: read after write, and that every write keeps the canonical form.
-/
namespace Sys2Proof.Machine

variable {α : Type}

@[simp] theorem cellGet_put_self (l : List (Nat × α)) (a : Nat) (v : α) : cellGet (cellPut l a v) a = some v := by
  induction l with
  | nil => simp [cellPut, cellGet]
  | cons c r ih =>
    simp only [cellPut]
    split
    · simp [cellGet]
    · split
      · simp [cellGet]
      · have : c.1 ≠ a := by omega
        simp [cellGet, this, ih]

theorem cellGet_put_ne (l : List (Nat × α)) {a b : Nat} (v : α) (h : b ≠ a) :
    cellGet (cellPut l a v) b = cellGet l b := by
  induction l with
  | nil => simp [cellPut, cellGet, Ne.symm h]
  | cons c r ih =>
    simp only [cellPut]
    split
    · simp [cellGet, Ne.symm h]
    · split
      · next he => subst he; simp [cellGet, Ne.symm h]
      · simp [cellGet, ih]

theorem cellGet_putList_out (l : List (Nat × α)) (a b : Nat) (vs : List α) (h : b < a ∨ a + vs.length ≤ b) :
    cellGet (cellPutList l a vs) b = cellGet l b := by
  induction vs generalizing l a with
  | nil => rfl
  | cons v vs ih =>
    simp only [cellPutList, List.length_cons] at h ⊢
    rw [ih _ _ (by omega), cellGet_put_ne _ _ (by omega)]

theorem cellGet_putList_in (l : List (Nat × α)) (a i : Nat) (vs : List α) (h : i < vs.length) :
    cellGet (cellPutList l a vs) (a + i) = some vs[i] := by
  induction vs generalizing l a i with
  | nil => simp at h
  | cons v vs ih =>
    simp only [cellPutList]
    cases i with
    | zero => rw [cellGet_putList_out _ _ _ _ (by omega)]; simp
    | succ i =>
      have := ih (cellPut l a v) (a + 1) i (by simpa using h)
      simpa [Nat.add_assoc, Nat.add_comm 1] using this

/-- What a key reads after consecutive writes. -/
theorem cellGet_putList (l : List (Nat × α)) (a b : Nat) (vs : List α) :
    cellGet (cellPutList l a vs) b = if a ≤ b ∧ b < a + vs.length then vs[b - a]? else cellGet l b := by
  split
  · next h =>
    obtain ⟨i, rfl⟩ := Nat.exists_eq_add_of_le h.1
    rw [cellGet_putList_in _ _ _ _ (by omega)]
    simp [List.getElem?_eq_getElem (show i < vs.length by omega)]
  · exact cellGet_putList_out _ _ _ _ (by omega)

theorem mem_cellPut {l : List (Nat × α)} {a : Nat} {v : α} {c : Nat × α} (h : c ∈ cellPut l a v) :
    c = (a, v) ∨ c ∈ l := by
  induction l with
  | nil => simpa [cellPut] using h
  | cons d r ih =>
    simp only [cellPut] at h
    split at h
    · simpa using h
    · split at h
      · simp only [List.mem_cons] at h ⊢; tauto
      · simp only [List.mem_cons] at h ⊢
        rcases h with h | h
        · exact .inr (.inl h)
        · rcases ih h with h | h
          · exact .inl h
          · exact .inr (.inr h)

theorem cellPut_pairwise {l : List (Nat × α)} (a : Nat) (v : α) (h : l.Pairwise fun x y => x.1 < y.1) :
    (cellPut l a v).Pairwise fun x y => x.1 < y.1 := by
  induction l with
  | nil => simp [cellPut]
  | cons d r ih =>
    rw [List.pairwise_cons] at h
    simp only [cellPut]
    split
    · next hl =>
      refine List.pairwise_cons.2 ⟨fun x hx => ?_, List.pairwise_cons.2 h⟩
      rcases List.mem_cons.1 hx with rfl | hx
      · exact hl
      · exact lt_trans hl (h.1 x hx)
    · split
      · next he => subst he; exact List.pairwise_cons.2 h
      · refine List.pairwise_cons.2 ⟨fun x hx => ?_, ih h.2⟩
        rcases mem_cellPut hx with rfl | hx
        · show d.1 < a; omega
        · exact h.1 x hx

theorem cellPut_wf {ok : Nat → Prop} {l : List (Nat × α)} {a : Nat} {v : α} (h : cellsWf ok l) (ha : ok a) :
    cellsWf ok (cellPut l a v) :=
  ⟨cellPut_pairwise a v h.1, fun c hc => by
    rcases mem_cellPut hc with rfl | hc
    · exact ha
    · exact h.2 c hc⟩

theorem cellPutList_wf {ok : Nat → Prop} {l : List (Nat × α)} {a : Nat} {vs : List α} (h : cellsWf ok l)
    (ha : ∀ i < vs.length, ok (a + i)) : cellsWf ok (cellPutList l a vs) := by
  induction vs generalizing l a with
  | nil => exact h
  | cons v vs ih =>
    refine ih (cellPut_wf h (by simpa using ha 0)) fun i hi => ?_
    have := ha (i + 1) (by simpa using hi)
    rwa [show a + 1 + i = a + (i + 1) by omega]

/-- A written key is in the store. -/
theorem mem_of_cellGet {l : List (Nat × α)} {a : Nat} {v : α} (h : cellGet l a = some v) : (a, v) ∈ l := by
  induction l with
  | nil => simp [cellGet] at h
  | cons c r ih =>
    simp only [cellGet] at h
    split at h
    · next hc =>
      obtain ⟨k, w⟩ := c
      simp only [Option.some.injEq] at h hc
      subst hc h; simp
    · exact List.mem_cons_of_mem _ (ih h)

/-- In canonical form a store reads what it lists. -/
theorem cellGet_of_mem {l : List (Nat × α)} {a : Nat} {v : α} (hl : l.Pairwise fun x y => x.1 < y.1)
    (h : (a, v) ∈ l) : cellGet l a = some v := by
  induction l with
  | nil => simp at h
  | cons c r ih =>
    rw [List.pairwise_cons] at hl
    rcases List.mem_cons.1 h with rfl | h
    · simp [cellGet]
    · have := hl.1 _ h
      simp only at this
      rw [cellGet, if_neg (by omega), ih hl.2 h]

/-- Equal canonical stores are equal data: a store is determined by what its keys read. -/
theorem cells_ext {l k : List (Nat × α)} (hl : l.Pairwise fun x y => x.1 < y.1)
    (hk : k.Pairwise fun x y => x.1 < y.1) (h : ∀ a, cellGet l a = cellGet k a) : l = k := by
  induction l generalizing k with
  | nil =>
    cases k with
    | nil => rfl
    | cons c r => have := h c.1; simp [cellGet] at this
  | cons c r ih =>
    cases k with
    | nil => have := h c.1; simp [cellGet] at this
    | cons d q =>
      rw [List.pairwise_cons] at hl hk
      have key : c.1 = d.1 := by
        by_contra hne
        have h1 := h c.1
        have h2 := h d.1
        simp only [cellGet, if_true, if_neg hne, if_neg (Ne.symm hne)] at h1 h2
        have m1 := hk.1 _ (mem_of_cellGet h1.symm)
        have m2 := hl.1 _ (mem_of_cellGet h2)
        simp only at m1 m2; omega
      have val : c = d := by
        have := h c.1
        simp only [cellGet, if_true, key] at this
        exact Prod.ext key (by simpa using this)
      subst val
      congr 1
      refine ih hl.2 hk.2 fun a => ?_
      by_cases ha : c.1 = a
      · subst ha
        have e1 : cellGet r c.1 = none := by
          cases hr : cellGet r c.1 with
          | none => rfl
          | some v => have := hl.1 _ (mem_of_cellGet hr); simp at this
        have e2 : cellGet q c.1 = none := by
          cases hr : cellGet q c.1 with
          | none => rfl
          | some v => have := hk.1 _ (mem_of_cellGet hr); simp at this
        rw [e1, e2]
      · have := h a
        simpa [cellGet, ha] using this

end Sys2Proof.Machine
end

