-- ==== Sys2Proof/Laws/State.lean ====
section
/-!
SUPPORT. What each update of State does to each field: one lemma per update and field, true by rfl, so that no proof
unfolds a record update.
-/
namespace Sys2Proof.Machine

variable (s : State)

@[simp] theorem setStatus_status (v : Status) : (setStatus s v).status = v := rfl
@[simp] theorem setStatus_cmd (v : Status) : (setStatus s v).cmd = s.cmd := rfl
@[simp] theorem setStatus_ie (v : Status) : (setStatus s v).ie = s.ie := rfl
@[simp] theorem setStatus_argStart (v : Status) : (setStatus s v).argStart = s.argStart := rfl
@[simp] theorem setStatus_argLen (v : Status) : (setStatus s v).argLen = s.argLen := rfl
@[simp] theorem setStatus_argAux (v : Status) : (setStatus s v).argAux = s.argAux := rfl
@[simp] theorem setStatus_resultLen (v : Status) : (setStatus s v).resultLen = s.resultLen := rfl
@[simp] theorem setStatus_errInfo (v : Status) : (setStatus s v).errInfo = s.errInfo := rfl
@[simp] theorem setStatus_csumResult (v : Status) : (setStatus s v).csumResult = s.csumResult := rfl
@[simp] theorem setStatus_localAddr (v : Status) : (setStatus s v).localAddr = s.localAddr := rfl
@[simp] theorem setStatus_localPort (v : Status) : (setStatus s v).localPort = s.localPort := rfl
@[simp] theorem setStatus_fk (v : Status) : (setStatus s v).fk = s.fk := rfl
@[simp] theorem setStatus_payloadOff (v : Status) : (setStatus s v).payloadOff = s.payloadOff := rfl
@[simp] theorem setStatus_payloadLen (v : Status) : (setStatus s v).payloadLen = s.payloadLen := rfl
@[simp] theorem setStatus_iph (v : Status) : (setStatus s v).iph = s.iph := rfl
@[simp] theorem setStatus_tcph (v : Status) : (setStatus s v).tcph = s.tcph := rfl
@[simp] theorem setStatus_optcnt (v : Status) : (setStatus s v).optcnt = s.optcnt := rfl
@[simp] theorem setStatus_opt (v : Status) : (setStatus s v).opt = s.opt := rfl
@[simp] theorem setStatus_pbuf (v : Status) : (setStatus s v).pbuf = s.pbuf := rfl
@[simp] theorem setStatus_latch (v : Status) : (setStatus s v).latch = s.latch := rfl
@[simp] theorem setStatus_walk (v : Status) : (setStatus s v).walk = s.walk := rfl
@[simp] theorem setStatus_draws (v : Status) : (setStatus s v).draws = s.draws := rfl
@[simp] theorem setStatus_host (v : Status) : (setStatus s v).host = s.host := rfl
@[simp] theorem setStatus_sched (v : Status) : (setStatus s v).sched = s.sched := rfl

@[simp] theorem setResultLen_status (v : Word) : (setResultLen s v).status = s.status := rfl
@[simp] theorem setResultLen_cmd (v : Word) : (setResultLen s v).cmd = s.cmd := rfl
@[simp] theorem setResultLen_ie (v : Word) : (setResultLen s v).ie = s.ie := rfl
@[simp] theorem setResultLen_argStart (v : Word) : (setResultLen s v).argStart = s.argStart := rfl
@[simp] theorem setResultLen_argLen (v : Word) : (setResultLen s v).argLen = s.argLen := rfl
@[simp] theorem setResultLen_argAux (v : Word) : (setResultLen s v).argAux = s.argAux := rfl
@[simp] theorem setResultLen_resultLen (v : Word) : (setResultLen s v).resultLen = v := rfl
@[simp] theorem setResultLen_errInfo (v : Word) : (setResultLen s v).errInfo = s.errInfo := rfl
@[simp] theorem setResultLen_csumResult (v : Word) : (setResultLen s v).csumResult = s.csumResult := rfl
@[simp] theorem setResultLen_localAddr (v : Word) : (setResultLen s v).localAddr = s.localAddr := rfl
@[simp] theorem setResultLen_localPort (v : Word) : (setResultLen s v).localPort = s.localPort := rfl
@[simp] theorem setResultLen_fk (v : Word) : (setResultLen s v).fk = s.fk := rfl
@[simp] theorem setResultLen_payloadOff (v : Word) : (setResultLen s v).payloadOff = s.payloadOff := rfl
@[simp] theorem setResultLen_payloadLen (v : Word) : (setResultLen s v).payloadLen = s.payloadLen := rfl
@[simp] theorem setResultLen_iph (v : Word) : (setResultLen s v).iph = s.iph := rfl
@[simp] theorem setResultLen_tcph (v : Word) : (setResultLen s v).tcph = s.tcph := rfl
@[simp] theorem setResultLen_optcnt (v : Word) : (setResultLen s v).optcnt = s.optcnt := rfl
@[simp] theorem setResultLen_opt (v : Word) : (setResultLen s v).opt = s.opt := rfl
@[simp] theorem setResultLen_pbuf (v : Word) : (setResultLen s v).pbuf = s.pbuf := rfl
@[simp] theorem setResultLen_latch (v : Word) : (setResultLen s v).latch = s.latch := rfl
@[simp] theorem setResultLen_walk (v : Word) : (setResultLen s v).walk = s.walk := rfl
@[simp] theorem setResultLen_draws (v : Word) : (setResultLen s v).draws = s.draws := rfl
@[simp] theorem setResultLen_host (v : Word) : (setResultLen s v).host = s.host := rfl
@[simp] theorem setResultLen_sched (v : Word) : (setResultLen s v).sched = s.sched := rfl

@[simp] theorem setErrInfo_status (v : Word) : (setErrInfo s v).status = s.status := rfl
@[simp] theorem setErrInfo_cmd (v : Word) : (setErrInfo s v).cmd = s.cmd := rfl
@[simp] theorem setErrInfo_ie (v : Word) : (setErrInfo s v).ie = s.ie := rfl
@[simp] theorem setErrInfo_argStart (v : Word) : (setErrInfo s v).argStart = s.argStart := rfl
@[simp] theorem setErrInfo_argLen (v : Word) : (setErrInfo s v).argLen = s.argLen := rfl
@[simp] theorem setErrInfo_argAux (v : Word) : (setErrInfo s v).argAux = s.argAux := rfl
@[simp] theorem setErrInfo_resultLen (v : Word) : (setErrInfo s v).resultLen = s.resultLen := rfl
@[simp] theorem setErrInfo_errInfo (v : Word) : (setErrInfo s v).errInfo = v := rfl
@[simp] theorem setErrInfo_csumResult (v : Word) : (setErrInfo s v).csumResult = s.csumResult := rfl
@[simp] theorem setErrInfo_localAddr (v : Word) : (setErrInfo s v).localAddr = s.localAddr := rfl
@[simp] theorem setErrInfo_localPort (v : Word) : (setErrInfo s v).localPort = s.localPort := rfl
@[simp] theorem setErrInfo_fk (v : Word) : (setErrInfo s v).fk = s.fk := rfl
@[simp] theorem setErrInfo_payloadOff (v : Word) : (setErrInfo s v).payloadOff = s.payloadOff := rfl
@[simp] theorem setErrInfo_payloadLen (v : Word) : (setErrInfo s v).payloadLen = s.payloadLen := rfl
@[simp] theorem setErrInfo_iph (v : Word) : (setErrInfo s v).iph = s.iph := rfl
@[simp] theorem setErrInfo_tcph (v : Word) : (setErrInfo s v).tcph = s.tcph := rfl
@[simp] theorem setErrInfo_optcnt (v : Word) : (setErrInfo s v).optcnt = s.optcnt := rfl
@[simp] theorem setErrInfo_opt (v : Word) : (setErrInfo s v).opt = s.opt := rfl
@[simp] theorem setErrInfo_pbuf (v : Word) : (setErrInfo s v).pbuf = s.pbuf := rfl
@[simp] theorem setErrInfo_latch (v : Word) : (setErrInfo s v).latch = s.latch := rfl
@[simp] theorem setErrInfo_walk (v : Word) : (setErrInfo s v).walk = s.walk := rfl
@[simp] theorem setErrInfo_draws (v : Word) : (setErrInfo s v).draws = s.draws := rfl
@[simp] theorem setErrInfo_host (v : Word) : (setErrInfo s v).host = s.host := rfl
@[simp] theorem setErrInfo_sched (v : Word) : (setErrInfo s v).sched = s.sched := rfl

@[simp] theorem setCsumResult_status (v : Half) : (setCsumResult s v).status = s.status := rfl
@[simp] theorem setCsumResult_cmd (v : Half) : (setCsumResult s v).cmd = s.cmd := rfl
@[simp] theorem setCsumResult_ie (v : Half) : (setCsumResult s v).ie = s.ie := rfl
@[simp] theorem setCsumResult_argStart (v : Half) : (setCsumResult s v).argStart = s.argStart := rfl
@[simp] theorem setCsumResult_argLen (v : Half) : (setCsumResult s v).argLen = s.argLen := rfl
@[simp] theorem setCsumResult_argAux (v : Half) : (setCsumResult s v).argAux = s.argAux := rfl
@[simp] theorem setCsumResult_resultLen (v : Half) : (setCsumResult s v).resultLen = s.resultLen := rfl
@[simp] theorem setCsumResult_errInfo (v : Half) : (setCsumResult s v).errInfo = s.errInfo := rfl
@[simp] theorem setCsumResult_csumResult (v : Half) : (setCsumResult s v).csumResult = v := rfl
@[simp] theorem setCsumResult_localAddr (v : Half) : (setCsumResult s v).localAddr = s.localAddr := rfl
@[simp] theorem setCsumResult_localPort (v : Half) : (setCsumResult s v).localPort = s.localPort := rfl
@[simp] theorem setCsumResult_fk (v : Half) : (setCsumResult s v).fk = s.fk := rfl
@[simp] theorem setCsumResult_payloadOff (v : Half) : (setCsumResult s v).payloadOff = s.payloadOff := rfl
@[simp] theorem setCsumResult_payloadLen (v : Half) : (setCsumResult s v).payloadLen = s.payloadLen := rfl
@[simp] theorem setCsumResult_iph (v : Half) : (setCsumResult s v).iph = s.iph := rfl
@[simp] theorem setCsumResult_tcph (v : Half) : (setCsumResult s v).tcph = s.tcph := rfl
@[simp] theorem setCsumResult_optcnt (v : Half) : (setCsumResult s v).optcnt = s.optcnt := rfl
@[simp] theorem setCsumResult_opt (v : Half) : (setCsumResult s v).opt = s.opt := rfl
@[simp] theorem setCsumResult_pbuf (v : Half) : (setCsumResult s v).pbuf = s.pbuf := rfl
@[simp] theorem setCsumResult_latch (v : Half) : (setCsumResult s v).latch = s.latch := rfl
@[simp] theorem setCsumResult_walk (v : Half) : (setCsumResult s v).walk = s.walk := rfl
@[simp] theorem setCsumResult_draws (v : Half) : (setCsumResult s v).draws = s.draws := rfl
@[simp] theorem setCsumResult_host (v : Half) : (setCsumResult s v).host = s.host := rfl
@[simp] theorem setCsumResult_sched (v : Half) : (setCsumResult s v).sched = s.sched := rfl

@[simp] theorem setIph_status (h : IpHeader) : (setIph s h).status = s.status := rfl
@[simp] theorem setIph_cmd (h : IpHeader) : (setIph s h).cmd = s.cmd := rfl
@[simp] theorem setIph_ie (h : IpHeader) : (setIph s h).ie = s.ie := rfl
@[simp] theorem setIph_argStart (h : IpHeader) : (setIph s h).argStart = s.argStart := rfl
@[simp] theorem setIph_argLen (h : IpHeader) : (setIph s h).argLen = s.argLen := rfl
@[simp] theorem setIph_argAux (h : IpHeader) : (setIph s h).argAux = s.argAux := rfl
@[simp] theorem setIph_resultLen (h : IpHeader) : (setIph s h).resultLen = s.resultLen := rfl
@[simp] theorem setIph_errInfo (h : IpHeader) : (setIph s h).errInfo = s.errInfo := rfl
@[simp] theorem setIph_csumResult (h : IpHeader) : (setIph s h).csumResult = s.csumResult := rfl
@[simp] theorem setIph_localAddr (h : IpHeader) : (setIph s h).localAddr = s.localAddr := rfl
@[simp] theorem setIph_localPort (h : IpHeader) : (setIph s h).localPort = s.localPort := rfl
@[simp] theorem setIph_fk (h : IpHeader) : (setIph s h).fk = s.fk := rfl
@[simp] theorem setIph_payloadOff (h : IpHeader) : (setIph s h).payloadOff = s.payloadOff := rfl
@[simp] theorem setIph_payloadLen (h : IpHeader) : (setIph s h).payloadLen = s.payloadLen := rfl
@[simp] theorem setIph_iph (h : IpHeader) : (setIph s h).iph = h := rfl
@[simp] theorem setIph_tcph (h : IpHeader) : (setIph s h).tcph = s.tcph := rfl
@[simp] theorem setIph_optcnt (h : IpHeader) : (setIph s h).optcnt = s.optcnt := rfl
@[simp] theorem setIph_opt (h : IpHeader) : (setIph s h).opt = s.opt := rfl
@[simp] theorem setIph_pbuf (h : IpHeader) : (setIph s h).pbuf = s.pbuf := rfl
@[simp] theorem setIph_latch (h : IpHeader) : (setIph s h).latch = s.latch := rfl
@[simp] theorem setIph_walk (h : IpHeader) : (setIph s h).walk = s.walk := rfl
@[simp] theorem setIph_draws (h : IpHeader) : (setIph s h).draws = s.draws := rfl
@[simp] theorem setIph_host (h : IpHeader) : (setIph s h).host = s.host := rfl
@[simp] theorem setIph_sched (h : IpHeader) : (setIph s h).sched = s.sched := rfl

@[simp] theorem setTcph_status (h : TcpHeader) (n : BitVec 6) : (setTcph s h n).status = s.status := rfl
@[simp] theorem setTcph_cmd (h : TcpHeader) (n : BitVec 6) : (setTcph s h n).cmd = s.cmd := rfl
@[simp] theorem setTcph_ie (h : TcpHeader) (n : BitVec 6) : (setTcph s h n).ie = s.ie := rfl
@[simp] theorem setTcph_argStart (h : TcpHeader) (n : BitVec 6) : (setTcph s h n).argStart = s.argStart := rfl
@[simp] theorem setTcph_argLen (h : TcpHeader) (n : BitVec 6) : (setTcph s h n).argLen = s.argLen := rfl
@[simp] theorem setTcph_argAux (h : TcpHeader) (n : BitVec 6) : (setTcph s h n).argAux = s.argAux := rfl
@[simp] theorem setTcph_resultLen (h : TcpHeader) (n : BitVec 6) : (setTcph s h n).resultLen = s.resultLen := rfl
@[simp] theorem setTcph_errInfo (h : TcpHeader) (n : BitVec 6) : (setTcph s h n).errInfo = s.errInfo := rfl
@[simp] theorem setTcph_csumResult (h : TcpHeader) (n : BitVec 6) : (setTcph s h n).csumResult = s.csumResult := rfl
@[simp] theorem setTcph_localAddr (h : TcpHeader) (n : BitVec 6) : (setTcph s h n).localAddr = s.localAddr := rfl
@[simp] theorem setTcph_localPort (h : TcpHeader) (n : BitVec 6) : (setTcph s h n).localPort = s.localPort := rfl
@[simp] theorem setTcph_fk (h : TcpHeader) (n : BitVec 6) : (setTcph s h n).fk = s.fk := rfl
@[simp] theorem setTcph_payloadOff (h : TcpHeader) (n : BitVec 6) : (setTcph s h n).payloadOff = s.payloadOff := rfl
@[simp] theorem setTcph_payloadLen (h : TcpHeader) (n : BitVec 6) : (setTcph s h n).payloadLen = s.payloadLen := rfl
@[simp] theorem setTcph_iph (h : TcpHeader) (n : BitVec 6) : (setTcph s h n).iph = s.iph := rfl
@[simp] theorem setTcph_tcph (h : TcpHeader) (n : BitVec 6) : (setTcph s h n).tcph = h := rfl
@[simp] theorem setTcph_optcnt (h : TcpHeader) (n : BitVec 6) : (setTcph s h n).optcnt = n := rfl
@[simp] theorem setTcph_opt (h : TcpHeader) (n : BitVec 6) : (setTcph s h n).opt = s.opt := rfl
@[simp] theorem setTcph_pbuf (h : TcpHeader) (n : BitVec 6) : (setTcph s h n).pbuf = s.pbuf := rfl
@[simp] theorem setTcph_latch (h : TcpHeader) (n : BitVec 6) : (setTcph s h n).latch = s.latch := rfl
@[simp] theorem setTcph_walk (h : TcpHeader) (n : BitVec 6) : (setTcph s h n).walk = s.walk := rfl
@[simp] theorem setTcph_draws (h : TcpHeader) (n : BitVec 6) : (setTcph s h n).draws = s.draws := rfl
@[simp] theorem setTcph_host (h : TcpHeader) (n : BitVec 6) : (setTcph s h n).host = s.host := rfl
@[simp] theorem setTcph_sched (h : TcpHeader) (n : BitVec 6) : (setTcph s h n).sched = s.sched := rfl

@[simp] theorem setFlow_status (k : FlowKey) (off len : Word) : (setFlow s k off len).status = s.status := rfl
@[simp] theorem setFlow_cmd (k : FlowKey) (off len : Word) : (setFlow s k off len).cmd = s.cmd := rfl
@[simp] theorem setFlow_ie (k : FlowKey) (off len : Word) : (setFlow s k off len).ie = s.ie := rfl
@[simp] theorem setFlow_argStart (k : FlowKey) (off len : Word) : (setFlow s k off len).argStart = s.argStart := rfl
@[simp] theorem setFlow_argLen (k : FlowKey) (off len : Word) : (setFlow s k off len).argLen = s.argLen := rfl
@[simp] theorem setFlow_argAux (k : FlowKey) (off len : Word) : (setFlow s k off len).argAux = s.argAux := rfl
@[simp] theorem setFlow_resultLen (k : FlowKey) (off len : Word) : (setFlow s k off len).resultLen = s.resultLen := rfl
@[simp] theorem setFlow_errInfo (k : FlowKey) (off len : Word) : (setFlow s k off len).errInfo = s.errInfo := rfl
@[simp] theorem setFlow_csumResult (k : FlowKey) (off len : Word) : (setFlow s k off len).csumResult = s.csumResult := rfl
@[simp] theorem setFlow_localAddr (k : FlowKey) (off len : Word) : (setFlow s k off len).localAddr = s.localAddr := rfl
@[simp] theorem setFlow_localPort (k : FlowKey) (off len : Word) : (setFlow s k off len).localPort = s.localPort := rfl
@[simp] theorem setFlow_fk (k : FlowKey) (off len : Word) : (setFlow s k off len).fk = k := rfl
@[simp] theorem setFlow_payloadOff (k : FlowKey) (off len : Word) : (setFlow s k off len).payloadOff = off := rfl
@[simp] theorem setFlow_payloadLen (k : FlowKey) (off len : Word) : (setFlow s k off len).payloadLen = len := rfl
@[simp] theorem setFlow_iph (k : FlowKey) (off len : Word) : (setFlow s k off len).iph = s.iph := rfl
@[simp] theorem setFlow_tcph (k : FlowKey) (off len : Word) : (setFlow s k off len).tcph = s.tcph := rfl
@[simp] theorem setFlow_optcnt (k : FlowKey) (off len : Word) : (setFlow s k off len).optcnt = s.optcnt := rfl
@[simp] theorem setFlow_opt (k : FlowKey) (off len : Word) : (setFlow s k off len).opt = s.opt := rfl
@[simp] theorem setFlow_pbuf (k : FlowKey) (off len : Word) : (setFlow s k off len).pbuf = s.pbuf := rfl
@[simp] theorem setFlow_latch (k : FlowKey) (off len : Word) : (setFlow s k off len).latch = s.latch := rfl
@[simp] theorem setFlow_walk (k : FlowKey) (off len : Word) : (setFlow s k off len).walk = s.walk := rfl
@[simp] theorem setFlow_draws (k : FlowKey) (off len : Word) : (setFlow s k off len).draws = s.draws := rfl
@[simp] theorem setFlow_host (k : FlowKey) (off len : Word) : (setFlow s k off len).host = s.host := rfl
@[simp] theorem setFlow_sched (k : FlowKey) (off len : Word) : (setFlow s k off len).sched = s.sched := rfl

@[simp] theorem setPbuf_status (m : PacketBuffer) : (setPbuf s m).status = s.status := rfl
@[simp] theorem setPbuf_cmd (m : PacketBuffer) : (setPbuf s m).cmd = s.cmd := rfl
@[simp] theorem setPbuf_ie (m : PacketBuffer) : (setPbuf s m).ie = s.ie := rfl
@[simp] theorem setPbuf_argStart (m : PacketBuffer) : (setPbuf s m).argStart = s.argStart := rfl
@[simp] theorem setPbuf_argLen (m : PacketBuffer) : (setPbuf s m).argLen = s.argLen := rfl
@[simp] theorem setPbuf_argAux (m : PacketBuffer) : (setPbuf s m).argAux = s.argAux := rfl
@[simp] theorem setPbuf_resultLen (m : PacketBuffer) : (setPbuf s m).resultLen = s.resultLen := rfl
@[simp] theorem setPbuf_errInfo (m : PacketBuffer) : (setPbuf s m).errInfo = s.errInfo := rfl
@[simp] theorem setPbuf_csumResult (m : PacketBuffer) : (setPbuf s m).csumResult = s.csumResult := rfl
@[simp] theorem setPbuf_localAddr (m : PacketBuffer) : (setPbuf s m).localAddr = s.localAddr := rfl
@[simp] theorem setPbuf_localPort (m : PacketBuffer) : (setPbuf s m).localPort = s.localPort := rfl
@[simp] theorem setPbuf_fk (m : PacketBuffer) : (setPbuf s m).fk = s.fk := rfl
@[simp] theorem setPbuf_payloadOff (m : PacketBuffer) : (setPbuf s m).payloadOff = s.payloadOff := rfl
@[simp] theorem setPbuf_payloadLen (m : PacketBuffer) : (setPbuf s m).payloadLen = s.payloadLen := rfl
@[simp] theorem setPbuf_iph (m : PacketBuffer) : (setPbuf s m).iph = s.iph := rfl
@[simp] theorem setPbuf_tcph (m : PacketBuffer) : (setPbuf s m).tcph = s.tcph := rfl
@[simp] theorem setPbuf_optcnt (m : PacketBuffer) : (setPbuf s m).optcnt = s.optcnt := rfl
@[simp] theorem setPbuf_opt (m : PacketBuffer) : (setPbuf s m).opt = s.opt := rfl
@[simp] theorem setPbuf_pbuf (m : PacketBuffer) : (setPbuf s m).pbuf = m := rfl
@[simp] theorem setPbuf_latch (m : PacketBuffer) : (setPbuf s m).latch = s.latch := rfl
@[simp] theorem setPbuf_walk (m : PacketBuffer) : (setPbuf s m).walk = s.walk := rfl
@[simp] theorem setPbuf_draws (m : PacketBuffer) : (setPbuf s m).draws = s.draws := rfl
@[simp] theorem setPbuf_host (m : PacketBuffer) : (setPbuf s m).host = s.host := rfl
@[simp] theorem setPbuf_sched (m : PacketBuffer) : (setPbuf s m).sched = s.sched := rfl

@[simp] theorem setOpt_status (o : List (Nat × Word)) : (setOpt s o).status = s.status := rfl
@[simp] theorem setOpt_cmd (o : List (Nat × Word)) : (setOpt s o).cmd = s.cmd := rfl
@[simp] theorem setOpt_ie (o : List (Nat × Word)) : (setOpt s o).ie = s.ie := rfl
@[simp] theorem setOpt_argStart (o : List (Nat × Word)) : (setOpt s o).argStart = s.argStart := rfl
@[simp] theorem setOpt_argLen (o : List (Nat × Word)) : (setOpt s o).argLen = s.argLen := rfl
@[simp] theorem setOpt_argAux (o : List (Nat × Word)) : (setOpt s o).argAux = s.argAux := rfl
@[simp] theorem setOpt_resultLen (o : List (Nat × Word)) : (setOpt s o).resultLen = s.resultLen := rfl
@[simp] theorem setOpt_errInfo (o : List (Nat × Word)) : (setOpt s o).errInfo = s.errInfo := rfl
@[simp] theorem setOpt_csumResult (o : List (Nat × Word)) : (setOpt s o).csumResult = s.csumResult := rfl
@[simp] theorem setOpt_localAddr (o : List (Nat × Word)) : (setOpt s o).localAddr = s.localAddr := rfl
@[simp] theorem setOpt_localPort (o : List (Nat × Word)) : (setOpt s o).localPort = s.localPort := rfl
@[simp] theorem setOpt_fk (o : List (Nat × Word)) : (setOpt s o).fk = s.fk := rfl
@[simp] theorem setOpt_payloadOff (o : List (Nat × Word)) : (setOpt s o).payloadOff = s.payloadOff := rfl
@[simp] theorem setOpt_payloadLen (o : List (Nat × Word)) : (setOpt s o).payloadLen = s.payloadLen := rfl
@[simp] theorem setOpt_iph (o : List (Nat × Word)) : (setOpt s o).iph = s.iph := rfl
@[simp] theorem setOpt_tcph (o : List (Nat × Word)) : (setOpt s o).tcph = s.tcph := rfl
@[simp] theorem setOpt_optcnt (o : List (Nat × Word)) : (setOpt s o).optcnt = s.optcnt := rfl
@[simp] theorem setOpt_opt (o : List (Nat × Word)) : (setOpt s o).opt = o := rfl
@[simp] theorem setOpt_pbuf (o : List (Nat × Word)) : (setOpt s o).pbuf = s.pbuf := rfl
@[simp] theorem setOpt_latch (o : List (Nat × Word)) : (setOpt s o).latch = s.latch := rfl
@[simp] theorem setOpt_walk (o : List (Nat × Word)) : (setOpt s o).walk = s.walk := rfl
@[simp] theorem setOpt_draws (o : List (Nat × Word)) : (setOpt s o).draws = s.draws := rfl
@[simp] theorem setOpt_host (o : List (Nat × Word)) : (setOpt s o).host = s.host := rfl
@[simp] theorem setOpt_sched (o : List (Nat × Word)) : (setOpt s o).sched = s.sched := rfl

@[simp] theorem setWalk_status (w : Walk) : (setWalk s w).status = s.status := rfl
@[simp] theorem setWalk_cmd (w : Walk) : (setWalk s w).cmd = s.cmd := rfl
@[simp] theorem setWalk_ie (w : Walk) : (setWalk s w).ie = s.ie := rfl
@[simp] theorem setWalk_argStart (w : Walk) : (setWalk s w).argStart = s.argStart := rfl
@[simp] theorem setWalk_argLen (w : Walk) : (setWalk s w).argLen = s.argLen := rfl
@[simp] theorem setWalk_argAux (w : Walk) : (setWalk s w).argAux = s.argAux := rfl
@[simp] theorem setWalk_resultLen (w : Walk) : (setWalk s w).resultLen = s.resultLen := rfl
@[simp] theorem setWalk_errInfo (w : Walk) : (setWalk s w).errInfo = s.errInfo := rfl
@[simp] theorem setWalk_csumResult (w : Walk) : (setWalk s w).csumResult = s.csumResult := rfl
@[simp] theorem setWalk_localAddr (w : Walk) : (setWalk s w).localAddr = s.localAddr := rfl
@[simp] theorem setWalk_localPort (w : Walk) : (setWalk s w).localPort = s.localPort := rfl
@[simp] theorem setWalk_fk (w : Walk) : (setWalk s w).fk = s.fk := rfl
@[simp] theorem setWalk_payloadOff (w : Walk) : (setWalk s w).payloadOff = s.payloadOff := rfl
@[simp] theorem setWalk_payloadLen (w : Walk) : (setWalk s w).payloadLen = s.payloadLen := rfl
@[simp] theorem setWalk_iph (w : Walk) : (setWalk s w).iph = s.iph := rfl
@[simp] theorem setWalk_tcph (w : Walk) : (setWalk s w).tcph = s.tcph := rfl
@[simp] theorem setWalk_optcnt (w : Walk) : (setWalk s w).optcnt = s.optcnt := rfl
@[simp] theorem setWalk_opt (w : Walk) : (setWalk s w).opt = s.opt := rfl
@[simp] theorem setWalk_pbuf (w : Walk) : (setWalk s w).pbuf = s.pbuf := rfl
@[simp] theorem setWalk_latch (w : Walk) : (setWalk s w).latch = s.latch := rfl
@[simp] theorem setWalk_walk (w : Walk) : (setWalk s w).walk = w := rfl
@[simp] theorem setWalk_draws (w : Walk) : (setWalk s w).draws = s.draws := rfl
@[simp] theorem setWalk_host (w : Walk) : (setWalk s w).host = s.host := rfl
@[simp] theorem setWalk_sched (w : Walk) : (setWalk s w).sched = s.sched := rfl

@[simp] theorem setHost_status (h : HostCtx) : (setHost s h).status = s.status := rfl
@[simp] theorem setHost_cmd (h : HostCtx) : (setHost s h).cmd = s.cmd := rfl
@[simp] theorem setHost_ie (h : HostCtx) : (setHost s h).ie = s.ie := rfl
@[simp] theorem setHost_argStart (h : HostCtx) : (setHost s h).argStart = s.argStart := rfl
@[simp] theorem setHost_argLen (h : HostCtx) : (setHost s h).argLen = s.argLen := rfl
@[simp] theorem setHost_argAux (h : HostCtx) : (setHost s h).argAux = s.argAux := rfl
@[simp] theorem setHost_resultLen (h : HostCtx) : (setHost s h).resultLen = s.resultLen := rfl
@[simp] theorem setHost_errInfo (h : HostCtx) : (setHost s h).errInfo = s.errInfo := rfl
@[simp] theorem setHost_csumResult (h : HostCtx) : (setHost s h).csumResult = s.csumResult := rfl
@[simp] theorem setHost_localAddr (h : HostCtx) : (setHost s h).localAddr = s.localAddr := rfl
@[simp] theorem setHost_localPort (h : HostCtx) : (setHost s h).localPort = s.localPort := rfl
@[simp] theorem setHost_fk (h : HostCtx) : (setHost s h).fk = s.fk := rfl
@[simp] theorem setHost_payloadOff (h : HostCtx) : (setHost s h).payloadOff = s.payloadOff := rfl
@[simp] theorem setHost_payloadLen (h : HostCtx) : (setHost s h).payloadLen = s.payloadLen := rfl
@[simp] theorem setHost_iph (h : HostCtx) : (setHost s h).iph = s.iph := rfl
@[simp] theorem setHost_tcph (h : HostCtx) : (setHost s h).tcph = s.tcph := rfl
@[simp] theorem setHost_optcnt (h : HostCtx) : (setHost s h).optcnt = s.optcnt := rfl
@[simp] theorem setHost_opt (h : HostCtx) : (setHost s h).opt = s.opt := rfl
@[simp] theorem setHost_pbuf (h : HostCtx) : (setHost s h).pbuf = s.pbuf := rfl
@[simp] theorem setHost_latch (h : HostCtx) : (setHost s h).latch = s.latch := rfl
@[simp] theorem setHost_walk (h : HostCtx) : (setHost s h).walk = s.walk := rfl
@[simp] theorem setHost_draws (h : HostCtx) : (setHost s h).draws = s.draws := rfl
@[simp] theorem setHost_host (h : HostCtx) : (setHost s h).host = h := rfl
@[simp] theorem setHost_sched (h : HostCtx) : (setHost s h).sched = s.sched := rfl

@[simp] theorem setSched_status (l : List Turn) : (setSched s l).status = s.status := rfl
@[simp] theorem setSched_cmd (l : List Turn) : (setSched s l).cmd = s.cmd := rfl
@[simp] theorem setSched_ie (l : List Turn) : (setSched s l).ie = s.ie := rfl
@[simp] theorem setSched_argStart (l : List Turn) : (setSched s l).argStart = s.argStart := rfl
@[simp] theorem setSched_argLen (l : List Turn) : (setSched s l).argLen = s.argLen := rfl
@[simp] theorem setSched_argAux (l : List Turn) : (setSched s l).argAux = s.argAux := rfl
@[simp] theorem setSched_resultLen (l : List Turn) : (setSched s l).resultLen = s.resultLen := rfl
@[simp] theorem setSched_errInfo (l : List Turn) : (setSched s l).errInfo = s.errInfo := rfl
@[simp] theorem setSched_csumResult (l : List Turn) : (setSched s l).csumResult = s.csumResult := rfl
@[simp] theorem setSched_localAddr (l : List Turn) : (setSched s l).localAddr = s.localAddr := rfl
@[simp] theorem setSched_localPort (l : List Turn) : (setSched s l).localPort = s.localPort := rfl
@[simp] theorem setSched_fk (l : List Turn) : (setSched s l).fk = s.fk := rfl
@[simp] theorem setSched_payloadOff (l : List Turn) : (setSched s l).payloadOff = s.payloadOff := rfl
@[simp] theorem setSched_payloadLen (l : List Turn) : (setSched s l).payloadLen = s.payloadLen := rfl
@[simp] theorem setSched_iph (l : List Turn) : (setSched s l).iph = s.iph := rfl
@[simp] theorem setSched_tcph (l : List Turn) : (setSched s l).tcph = s.tcph := rfl
@[simp] theorem setSched_optcnt (l : List Turn) : (setSched s l).optcnt = s.optcnt := rfl
@[simp] theorem setSched_opt (l : List Turn) : (setSched s l).opt = s.opt := rfl
@[simp] theorem setSched_pbuf (l : List Turn) : (setSched s l).pbuf = s.pbuf := rfl
@[simp] theorem setSched_latch (l : List Turn) : (setSched s l).latch = s.latch := rfl
@[simp] theorem setSched_walk (l : List Turn) : (setSched s l).walk = s.walk := rfl
@[simp] theorem setSched_draws (l : List Turn) : (setSched s l).draws = s.draws := rfl
@[simp] theorem setSched_host (l : List Turn) : (setSched s l).host = s.host := rfl
@[simp] theorem setSched_sched (l : List Turn) : (setSched s l).sched = l := rfl

@[simp] theorem setDraws_status (n : Nat) : (setDraws s n).status = s.status := rfl
@[simp] theorem setDraws_cmd (n : Nat) : (setDraws s n).cmd = s.cmd := rfl
@[simp] theorem setDraws_ie (n : Nat) : (setDraws s n).ie = s.ie := rfl
@[simp] theorem setDraws_argStart (n : Nat) : (setDraws s n).argStart = s.argStart := rfl
@[simp] theorem setDraws_argLen (n : Nat) : (setDraws s n).argLen = s.argLen := rfl
@[simp] theorem setDraws_argAux (n : Nat) : (setDraws s n).argAux = s.argAux := rfl
@[simp] theorem setDraws_resultLen (n : Nat) : (setDraws s n).resultLen = s.resultLen := rfl
@[simp] theorem setDraws_errInfo (n : Nat) : (setDraws s n).errInfo = s.errInfo := rfl
@[simp] theorem setDraws_csumResult (n : Nat) : (setDraws s n).csumResult = s.csumResult := rfl
@[simp] theorem setDraws_localAddr (n : Nat) : (setDraws s n).localAddr = s.localAddr := rfl
@[simp] theorem setDraws_localPort (n : Nat) : (setDraws s n).localPort = s.localPort := rfl
@[simp] theorem setDraws_fk (n : Nat) : (setDraws s n).fk = s.fk := rfl
@[simp] theorem setDraws_payloadOff (n : Nat) : (setDraws s n).payloadOff = s.payloadOff := rfl
@[simp] theorem setDraws_payloadLen (n : Nat) : (setDraws s n).payloadLen = s.payloadLen := rfl
@[simp] theorem setDraws_iph (n : Nat) : (setDraws s n).iph = s.iph := rfl
@[simp] theorem setDraws_tcph (n : Nat) : (setDraws s n).tcph = s.tcph := rfl
@[simp] theorem setDraws_optcnt (n : Nat) : (setDraws s n).optcnt = s.optcnt := rfl
@[simp] theorem setDraws_opt (n : Nat) : (setDraws s n).opt = s.opt := rfl
@[simp] theorem setDraws_pbuf (n : Nat) : (setDraws s n).pbuf = s.pbuf := rfl
@[simp] theorem setDraws_latch (n : Nat) : (setDraws s n).latch = s.latch := rfl
@[simp] theorem setDraws_walk (n : Nat) : (setDraws s n).walk = s.walk := rfl
@[simp] theorem setDraws_draws (n : Nat) : (setDraws s n).draws = n := rfl
@[simp] theorem setDraws_host (n : Nat) : (setDraws s n).host = s.host := rfl
@[simp] theorem setDraws_sched (n : Nat) : (setDraws s n).sched = s.sched := rfl

@[simp] theorem issue_status (op : BitVec 4) : (issue s op).status = statusIssue s.status := rfl
@[simp] theorem issue_cmd (op : BitVec 4) : (issue s op).cmd = op := rfl
@[simp] theorem issue_ie (op : BitVec 4) : (issue s op).ie = s.ie := rfl
@[simp] theorem issue_argStart (op : BitVec 4) : (issue s op).argStart = s.argStart := rfl
@[simp] theorem issue_argLen (op : BitVec 4) : (issue s op).argLen = s.argLen := rfl
@[simp] theorem issue_argAux (op : BitVec 4) : (issue s op).argAux = s.argAux := rfl
@[simp] theorem issue_resultLen (op : BitVec 4) : (issue s op).resultLen = s.resultLen := rfl
@[simp] theorem issue_errInfo (op : BitVec 4) : (issue s op).errInfo = s.errInfo := rfl
@[simp] theorem issue_csumResult (op : BitVec 4) : (issue s op).csumResult = s.csumResult := rfl
@[simp] theorem issue_localAddr (op : BitVec 4) : (issue s op).localAddr = s.localAddr := rfl
@[simp] theorem issue_localPort (op : BitVec 4) : (issue s op).localPort = s.localPort := rfl
@[simp] theorem issue_fk (op : BitVec 4) : (issue s op).fk = s.fk := rfl
@[simp] theorem issue_payloadOff (op : BitVec 4) : (issue s op).payloadOff = s.payloadOff := rfl
@[simp] theorem issue_payloadLen (op : BitVec 4) : (issue s op).payloadLen = s.payloadLen := rfl
@[simp] theorem issue_iph (op : BitVec 4) : (issue s op).iph = s.iph := rfl
@[simp] theorem issue_tcph (op : BitVec 4) : (issue s op).tcph = s.tcph := rfl
@[simp] theorem issue_optcnt (op : BitVec 4) : (issue s op).optcnt = s.optcnt := rfl
@[simp] theorem issue_opt (op : BitVec 4) : (issue s op).opt = s.opt := rfl
@[simp] theorem issue_pbuf (op : BitVec 4) : (issue s op).pbuf = s.pbuf := rfl
@[simp] theorem issue_latch (op : BitVec 4) : (issue s op).latch = { op := op, start := s.argStart, len := s.argLen, aux := s.argAux } := rfl
@[simp] theorem issue_walk (op : BitVec 4) : (issue s op).walk = Walk.idle := rfl
@[simp] theorem issue_draws (op : BitVec 4) : (issue s op).draws = s.draws := rfl
@[simp] theorem issue_host (op : BitVec 4) : (issue s op).host = s.host := rfl
@[simp] theorem issue_sched (op : BitVec 4) : (issue s op).sched = s.sched := rfl

@[simp] theorem commitOk_status (c d : Bool) : (commitOk s c d).status = statusOk s.status c d := rfl
@[simp] theorem commitOk_cmd (c d : Bool) : (commitOk s c d).cmd = s.cmd := rfl
@[simp] theorem commitOk_ie (c d : Bool) : (commitOk s c d).ie = s.ie := rfl
@[simp] theorem commitOk_argStart (c d : Bool) : (commitOk s c d).argStart = s.argStart := rfl
@[simp] theorem commitOk_argLen (c d : Bool) : (commitOk s c d).argLen = s.argLen := rfl
@[simp] theorem commitOk_argAux (c d : Bool) : (commitOk s c d).argAux = s.argAux := rfl
@[simp] theorem commitOk_resultLen (c d : Bool) : (commitOk s c d).resultLen = s.resultLen := rfl
@[simp] theorem commitOk_errInfo (c d : Bool) : (commitOk s c d).errInfo = 0 := rfl
@[simp] theorem commitOk_csumResult (c d : Bool) : (commitOk s c d).csumResult = s.csumResult := rfl
@[simp] theorem commitOk_localAddr (c d : Bool) : (commitOk s c d).localAddr = s.localAddr := rfl
@[simp] theorem commitOk_localPort (c d : Bool) : (commitOk s c d).localPort = s.localPort := rfl
@[simp] theorem commitOk_fk (c d : Bool) : (commitOk s c d).fk = s.fk := rfl
@[simp] theorem commitOk_payloadOff (c d : Bool) : (commitOk s c d).payloadOff = s.payloadOff := rfl
@[simp] theorem commitOk_payloadLen (c d : Bool) : (commitOk s c d).payloadLen = s.payloadLen := rfl
@[simp] theorem commitOk_iph (c d : Bool) : (commitOk s c d).iph = s.iph := rfl
@[simp] theorem commitOk_tcph (c d : Bool) : (commitOk s c d).tcph = s.tcph := rfl
@[simp] theorem commitOk_optcnt (c d : Bool) : (commitOk s c d).optcnt = s.optcnt := rfl
@[simp] theorem commitOk_opt (c d : Bool) : (commitOk s c d).opt = s.opt := rfl
@[simp] theorem commitOk_pbuf (c d : Bool) : (commitOk s c d).pbuf = s.pbuf := rfl
@[simp] theorem commitOk_latch (c d : Bool) : (commitOk s c d).latch = s.latch := rfl
@[simp] theorem commitOk_walk (c d : Bool) : (commitOk s c d).walk = Walk.idle := rfl
@[simp] theorem commitOk_draws (c d : Bool) : (commitOk s c d).draws = s.draws := rfl
@[simp] theorem commitOk_host (c d : Bool) : (commitOk s c d).host = s.host := rfl
@[simp] theorem commitOk_sched (c d : Bool) : (commitOk s c d).sched = s.sched := rfl

@[simp] theorem commitErr_status (e : Err) (i : Word) (d : Bool) : (commitErr s e i d).status = statusErr s.status e d := rfl
@[simp] theorem commitErr_cmd (e : Err) (i : Word) (d : Bool) : (commitErr s e i d).cmd = s.cmd := rfl
@[simp] theorem commitErr_ie (e : Err) (i : Word) (d : Bool) : (commitErr s e i d).ie = s.ie := rfl
@[simp] theorem commitErr_argStart (e : Err) (i : Word) (d : Bool) : (commitErr s e i d).argStart = s.argStart := rfl
@[simp] theorem commitErr_argLen (e : Err) (i : Word) (d : Bool) : (commitErr s e i d).argLen = s.argLen := rfl
@[simp] theorem commitErr_argAux (e : Err) (i : Word) (d : Bool) : (commitErr s e i d).argAux = s.argAux := rfl
@[simp] theorem commitErr_resultLen (e : Err) (i : Word) (d : Bool) : (commitErr s e i d).resultLen = 0 := rfl
@[simp] theorem commitErr_errInfo (e : Err) (i : Word) (d : Bool) : (commitErr s e i d).errInfo = i := rfl
@[simp] theorem commitErr_csumResult (e : Err) (i : Word) (d : Bool) : (commitErr s e i d).csumResult = s.csumResult := rfl
@[simp] theorem commitErr_localAddr (e : Err) (i : Word) (d : Bool) : (commitErr s e i d).localAddr = s.localAddr := rfl
@[simp] theorem commitErr_localPort (e : Err) (i : Word) (d : Bool) : (commitErr s e i d).localPort = s.localPort := rfl
@[simp] theorem commitErr_fk (e : Err) (i : Word) (d : Bool) : (commitErr s e i d).fk = s.fk := rfl
@[simp] theorem commitErr_payloadOff (e : Err) (i : Word) (d : Bool) : (commitErr s e i d).payloadOff = s.payloadOff := rfl
@[simp] theorem commitErr_payloadLen (e : Err) (i : Word) (d : Bool) : (commitErr s e i d).payloadLen = s.payloadLen := rfl
@[simp] theorem commitErr_iph (e : Err) (i : Word) (d : Bool) : (commitErr s e i d).iph = s.iph := rfl
@[simp] theorem commitErr_tcph (e : Err) (i : Word) (d : Bool) : (commitErr s e i d).tcph = s.tcph := rfl
@[simp] theorem commitErr_optcnt (e : Err) (i : Word) (d : Bool) : (commitErr s e i d).optcnt = s.optcnt := rfl
@[simp] theorem commitErr_opt (e : Err) (i : Word) (d : Bool) : (commitErr s e i d).opt = s.opt := rfl
@[simp] theorem commitErr_pbuf (e : Err) (i : Word) (d : Bool) : (commitErr s e i d).pbuf = s.pbuf := rfl
@[simp] theorem commitErr_latch (e : Err) (i : Word) (d : Bool) : (commitErr s e i d).latch = s.latch := rfl
@[simp] theorem commitErr_walk (e : Err) (i : Word) (d : Bool) : (commitErr s e i d).walk = Walk.idle := rfl
@[simp] theorem commitErr_draws (e : Err) (i : Word) (d : Bool) : (commitErr s e i d).draws = s.draws := rfl
@[simp] theorem commitErr_host (e : Err) (i : Word) (d : Bool) : (commitErr s e i d).host = s.host := rfl
@[simp] theorem commitErr_sched (e : Err) (i : Word) (d : Bool) : (commitErr s e i d).sched = s.sched := rfl

@[simp] theorem commitDrop_status (d : Disp) : (commitDrop s d).status = statusDrop s.status d := rfl
@[simp] theorem commitDrop_cmd (d : Disp) : (commitDrop s d).cmd = s.cmd := rfl
@[simp] theorem commitDrop_ie (d : Disp) : (commitDrop s d).ie = s.ie := rfl
@[simp] theorem commitDrop_argStart (d : Disp) : (commitDrop s d).argStart = s.argStart := rfl
@[simp] theorem commitDrop_argLen (d : Disp) : (commitDrop s d).argLen = s.argLen := rfl
@[simp] theorem commitDrop_argAux (d : Disp) : (commitDrop s d).argAux = s.argAux := rfl
@[simp] theorem commitDrop_resultLen (d : Disp) : (commitDrop s d).resultLen = 0 := rfl
@[simp] theorem commitDrop_errInfo (d : Disp) : (commitDrop s d).errInfo = 0 := rfl
@[simp] theorem commitDrop_csumResult (d : Disp) : (commitDrop s d).csumResult = s.csumResult := rfl
@[simp] theorem commitDrop_localAddr (d : Disp) : (commitDrop s d).localAddr = s.localAddr := rfl
@[simp] theorem commitDrop_localPort (d : Disp) : (commitDrop s d).localPort = s.localPort := rfl
@[simp] theorem commitDrop_fk (d : Disp) : (commitDrop s d).fk = s.fk := rfl
@[simp] theorem commitDrop_payloadOff (d : Disp) : (commitDrop s d).payloadOff = s.payloadOff := rfl
@[simp] theorem commitDrop_payloadLen (d : Disp) : (commitDrop s d).payloadLen = s.payloadLen := rfl
@[simp] theorem commitDrop_iph (d : Disp) : (commitDrop s d).iph = s.iph := rfl
@[simp] theorem commitDrop_tcph (d : Disp) : (commitDrop s d).tcph = s.tcph := rfl
@[simp] theorem commitDrop_optcnt (d : Disp) : (commitDrop s d).optcnt = s.optcnt := rfl
@[simp] theorem commitDrop_opt (d : Disp) : (commitDrop s d).opt = s.opt := rfl
@[simp] theorem commitDrop_pbuf (d : Disp) : (commitDrop s d).pbuf = s.pbuf := rfl
@[simp] theorem commitDrop_latch (d : Disp) : (commitDrop s d).latch = s.latch := rfl
@[simp] theorem commitDrop_walk (d : Disp) : (commitDrop s d).walk = Walk.idle := rfl
@[simp] theorem commitDrop_draws (d : Disp) : (commitDrop s d).draws = s.draws := rfl
@[simp] theorem commitDrop_host (d : Disp) : (commitDrop s d).host = s.host := rfl
@[simp] theorem commitDrop_sched (d : Disp) : (commitDrop s d).sched = s.sched := rfl

end Sys2Proof.Machine
end

