-- ==== Sys2Proof/Laws/Ops.lean ====
section
/-!
SUPPORT. What the shared operations answer: the checks and reads a command is chained from, the three commits, and
what each leaves of the state.
-/
namespace Sys2Proof.Machine

variable {α β : Type}

/-! ### Chaining -/

@[simp] theorem ok_bind (a : α) (f : α → Except Stop β) : ((Except.ok a : Except Stop α) >>= f) = f a := rfl

@[simp] theorem error_bind (e : Stop) (f : α → Except Stop β) :
    ((Except.error e : Except Stop α) >>= f) = .error e := rfl

@[simp] theorem pure_eq_ok (a : α) : (pure a : Except Stop α) = .ok a := rfl

/-- A chain answers exactly when its first part does and the rest does on that answer. -/
theorem bind_eq_ok {x : Except Stop α} {f : α → Except Stop β} {b : β} :
    (x >>= f) = .ok b ↔ ∃ a, x = .ok a ∧ f a = .ok b := by
  cases x <;> simp

/-- A chain stops exactly when its first part does, or answers and the rest stops. -/
theorem bind_eq_error {x : Except Stop α} {f : α → Except Stop β} {e : Stop} :
    (x >>= f) = .error e ↔ x = .error e ∨ ∃ a, x = .ok a ∧ f a = .error e := by
  cases x <;> simp

theorem failIf_pos {c : Prop} [Decidable c] {e : Stop} (h : c) : failIf c e = .error e := if_pos h

theorem failIf_neg {c : Prop} [Decidable c] {e : Stop} (h : ¬c) : failIf c e = .ok () := if_neg h

@[simp] theorem failIf_eq_ok {c : Prop} [Decidable c] {e : Stop} {u : Unit} : failIf c e = .ok u ↔ ¬c := by
  unfold failIf; split <;> simp_all

@[simp] theorem failIf_eq_error {c : Prop} [Decidable c] {e e' : Stop} :
    failIf c e = .error e' ↔ c ∧ e = e' := by
  unfold failIf; split <;> simp_all

theorem failIf_bind {c : Prop} [Decidable c] {e : Stop} (f : Unit → Except Stop β) :
    (failIf c e >>= f) = if c then .error e else f () := by
  unfold failIf; split <;> rfl

/-! ### Reading and writing PBUF and OPT -/

@[simp] theorem pbufPut_size (m : PacketBuffer) (i : Nat) (b : Byte) : (pbufPut m i b).size = m.size := rfl
@[simp] theorem pbufPut_bytes (m : PacketBuffer) (i : Nat) (b : Byte) :
    (pbufPut m i b).bytes = cellPut m.bytes i b := rfl
@[simp] theorem pbufPutList_size (m : PacketBuffer) (a : Nat) (bs : List Byte) :
    (pbufPutList m a bs).size = m.size := rfl
@[simp] theorem pbufPutList_bytes (m : PacketBuffer) (a : Nat) (bs : List Byte) :
    (pbufPutList m a bs).bytes = cellPutList m.bytes a bs := rfl

theorem readByte_of_get {m : PacketBuffer} {i : Nat} {b : Byte} (hi : i < m.size)
    (h : cellGet m.bytes i = some b) : readByte m i = .ok b := by simp [readByte, hi, h]

theorem readByte_eq_ok {m : PacketBuffer} {i : Nat} {b : Byte} :
    readByte m i = .ok b ↔ i < m.size ∧ cellGet m.bytes i = some b := by
  unfold readByte; split
  · cases cellGet m.bytes i <;> simp_all
  · simp_all

/-- A read that does not answer is a fault of the model, never an error or a drop. -/
theorem readByte_error {m : PacketBuffer} {i : Nat} {e : Stop} (h : readByte m i = .error e) :
    ∃ f, e = .fault f := by
  unfold readByte at h; split at h
  · cases hc : cellGet m.bytes i <;> simp [hc] at h; exact ⟨_, h.symm⟩
  · simp at h; exact ⟨_, h.symm⟩

theorem bytesAt_cons {m : PacketBuffer} {a : Nat} {b : Byte} {bs : List Byte} :
    bytesAt m a (b :: bs) ↔ cellGet m.bytes a = some b ∧ bytesAt m (a + 1) bs := by
  constructor
  · intro h
    refine ⟨h 0 (by simp), fun i hi => ?_⟩
    have := h (i + 1) (by simpa using hi)
    simpa [Nat.add_assoc, Nat.add_comm 1] using this
  · rintro ⟨h0, h⟩ i hi
    cases i with
    | zero => simpa using h0
    | succ i =>
      have := h i (by simpa using hi)
      simpa [Nat.add_assoc, Nat.add_comm 1] using this

theorem bytesAt_append {m : PacketBuffer} {a : Nat} {bs cs : List Byte} :
    bytesAt m a (bs ++ cs) ↔ bytesAt m a bs ∧ bytesAt m (a + bs.length) cs := by
  induction bs generalizing a with
  | nil => simp [bytesAt]
  | cons b bs ih =>
    rw [List.cons_append, bytesAt_cons, bytesAt_cons, ih, and_assoc, List.length_cons]
    rw [show a + 1 + bs.length = a + (bs.length + 1) by omega]

/-- Written bytes in range are read in order. -/
theorem readBytes_of_bytesAt {m : PacketBuffer} {a n : Nat} {bs : List Byte} (hn : bs.length = n)
    (hr : a + n ≤ m.size) (h : bytesAt m a bs) : readBytes m a n = .ok bs := by
  subst hn
  induction bs generalizing a with
  | nil => rfl
  | cons b bs ih =>
    rw [bytesAt_cons] at h
    simp only [List.length_cons] at hr ⊢
    rw [readBytes, readByte_of_get (by omega) h.1, ok_bind, ih (a := a + 1) h.2 (by omega)]
    rfl

theorem readBytes_eq_ok {m : PacketBuffer} {a n : Nat} {bs : List Byte} (h : readBytes m a n = .ok bs) :
    bs.length = n ∧ bytesAt m a bs := by
  induction n generalizing a bs with
  | zero => simp [readBytes] at h; subst h; simp [bytesAt]
  | succ n ih =>
    simp only [readBytes, bind_eq_ok, pure_eq_ok, Except.ok.injEq] at h
    obtain ⟨b, hb, r, hr, rfl⟩ := h
    obtain ⟨hl, hm⟩ := ih hr
    exact ⟨by simp [hl], bytesAt_cons.2 ⟨(readByte_eq_ok.1 hb).2, hm⟩⟩

theorem readBytes_error {m : PacketBuffer} {a n : Nat} {e : Stop} (h : readBytes m a n = .error e) :
    ∃ f, e = .fault f := by
  induction n generalizing a with
  | zero => simp [readBytes] at h
  | succ n ih =>
    simp only [readBytes, bind_eq_error, pure_eq_ok, reduceCtorEq, and_false, exists_false, or_false] at h
    rcases h with h | ⟨b, -, h⟩
    · exact readByte_error h
    · exact ih h

/-- Bytes just written stand where they were written. -/
theorem bytesAt_putList (m : PacketBuffer) (a : Nat) (bs : List Byte) : bytesAt (pbufPutList m a bs) a bs :=
  fun i hi => cellGet_putList_in m.bytes a i bs hi

/-- A byte outside the range written reads as before. -/
theorem readByte_putList_out {m : PacketBuffer} {a b : Nat} {bs : List Byte} (h : b < a ∨ a + bs.length ≤ b) :
    readByte (pbufPutList m a bs) b = readByte m b := by
  unfold readByte
  rw [pbufPutList_size, pbufPutList_bytes, cellGet_putList_out _ _ _ _ h]

theorem readOpt_of_get {o : List (Nat × Word)} {i w : Nat} {v : Word} (h : cellGet o (12 * i + w) = some v) :
    readOpt o i w = .ok v := by simp [readOpt, optKey, h]

/-! ### Commits -/

@[simp] theorem finish_ok (s w : State) (c d : Bool) : finish s d (.ok (w, c)) = .next (commitOk w c d) := rfl

@[simp] theorem finish_raise (s : State) (d : Bool) (e : Err) (i : Word) :
    finish s d (.error (.raise e i)) = .next (commitErr s e i d) := rfl

@[simp] theorem finish_drop (s : State) (d : Bool) (x : Disp) :
    finish s d (.error (.drop x)) = .next (commitDrop s x) := rfl

@[simp] theorem finish_fault (s : State) (d : Bool) (f : Fault) :
    finish s d (.error (.fault f)) = .fault f := rfl

/-- All a completion can do. -/
theorem finish_cases {s t : State} {d : Bool} {r : Except Stop (State × Bool)} (h : finish s d r = .next t) :
    (∃ w c, r = .ok (w, c) ∧ t = commitOk w c d) ∨
    (∃ e i, r = .error (.raise e i) ∧ t = commitErr s e i d) ∨
    (∃ x, r = .error (.drop x) ∧ t = commitDrop s x) := by
  match r with
  | .ok (w, c) => exact .inl ⟨w, c, rfl, by simpa using h.symm⟩
  | .error (.raise e i) => exact .inr (.inl ⟨e, i, rfl, by simpa using h.symm⟩)
  | .error (.drop x) => exact .inr (.inr ⟨x, rfl, by simpa using h.symm⟩)
  | .error (.fault f) => simp at h

theorem checkBounds_of_le {m : PacketBuffer} {l : Latch} (h : l.start.toNat + l.len.toNat ≤ m.size) :
    checkBounds m l = .ok () := failIf_neg (by omega)

theorem checkBounds_of_gt {m : PacketBuffer} {l : Latch} (h : m.size < l.start.toNat + l.len.toNat) :
    checkBounds m l = .error (.raise .bounds 0) := failIf_pos h

@[simp] theorem checkBounds_eq_ok {m : PacketBuffer} {l : Latch} {u : Unit} :
    checkBounds m l = .ok u ↔ l.start.toNat + l.len.toNat ≤ m.size := by
  unfold checkBounds; simp

@[simp] theorem checkBounds_eq_error {m : PacketBuffer} {l : Latch} {e : Stop} :
    checkBounds m l = .error e ↔ m.size < l.start.toNat + l.len.toNat ∧ e = .raise .bounds 0 := by
  unfold checkBounds; rw [failIf_eq_error, eq_comm (a := e)]

/-- No code of the table is 0, and none passes 0x12 (60_exceptions.md R300). -/
theorem errCode_range (e : Err) : errCode e ≠ 0 ∧ (errCode e).toNat ≤ 0x12 := by cases e <;> decide

theorem dispCode_range (d : Disp) : (dispCode d).toNat ≤ 6 := by cases d <;> decide

end Sys2Proof.Machine
end

