-- ==== Sys2Proof/Laws/Layout.lean ====
section
/-!
SUPPORT. The field layouts: splitting a value into bytes and assembling it again are inverse, so the fields read from a
header image are the fields it was made of (30_encoding.md R100 to R104).
-/
namespace Sys2Proof.Machine

@[simp] theorem extract_append_low {m n : Nat} (x : BitVec m) (y : BitVec n) : (x ++ y).extractLsb' 0 n = y := by
  ext i hi; simp [BitVec.getLsbD_append, hi]

@[simp] theorem extract_append_high {m n : Nat} (x : BitVec m) (y : BitVec n) : (x ++ y).extractLsb' n m = x := by
  ext i hi; simp [BitVec.getLsbD_append, hi]

/-- `MemRead` of two bytes `MemWrite` laid down gives the value back (00_scope.md R8). -/
@[simp] theorem join_bytes16 (v : Half) : (v.extractLsb' 8 8 ++ v.extractLsb' 0 8 : BitVec 16) = v := by
  ext i hi
  simp only [BitVec.getElem_append, BitVec.getElem_extractLsb']
  split <;> simp_all [BitVec.getLsbD_eq_getElem]

@[simp] theorem join_bytes32 (v : Word) :
    (v.extractLsb' 24 8 ++ v.extractLsb' 16 8 ++ v.extractLsb' 8 8 ++ v.extractLsb' 0 8 : BitVec 32) = v := by
  ext i hi
  simp only [BitVec.getElem_append, BitVec.getElem_extractLsb']
  repeat' split
  all_goals (rw [← BitVec.getLsbD_eq_getElem]; congr 1; omega)

@[simp] theorem be16_bytes16 (v : Half) : be16 (bytes16 v) 0 = v := join_bytes16 v

@[simp] theorem be32_bytes32 (v : Word) : be32 (bytes32 v) 0 = v := join_bytes32 v

@[simp] theorem length_bytes16 (v : Half) : (bytes16 v).length = 2 := rfl

@[simp] theorem length_bytes32 (v : Word) : (bytes32 v).length = 4 := rfl

@[simp] theorem length_ipBytes (z : Bool) (h : IpHeader) : (ipBytes z h).length = 20 := by cases z <;> rfl

@[simp] theorem length_tcpBytes (z : Bool) (h : TcpHeader) : (tcpBytes z h).length = 20 := by cases z <;> rfl

/-- Bits 6 and 5 of the flag byte are DF and MF (30_encoding.md R100). -/
theorem flagByte_bits (a b : Bool) (f : BitVec 5) :
    ((0 : BitVec 1) ++ BitVec.ofBool a ++ BitVec.ofBool b ++ f : BitVec 8).getLsbD 6 = a ∧
    ((0 : BitVec 1) ++ BitVec.ofBool a ++ BitVec.ofBool b ++ f : BitVec 8).getLsbD 5 = b := by
  constructor <;> simp only [BitVec.getLsbD_append] <;> simp

theorem flagByte_rf_bits (r a b : Bool) (f : BitVec 5) :
    (BitVec.ofBool r ++ BitVec.ofBool a ++ BitVec.ofBool b ++ f : BitVec 8).getLsbD 6 = a ∧
    (BitVec.ofBool r ++ BitVec.ofBool a ++ BitVec.ofBool b ++ f : BitVec 8).getLsbD 5 = b := by
  constructor <;> simp only [BitVec.getLsbD_append] <;> simp

theorem fragoff_join (f : BitVec 13) : (f.extractLsb' 8 5 ++ f.extractLsb' 0 8 : BitVec 13) = f := by
  ext i hi
  simp only [BitVec.getElem_append, BitVec.getElem_extractLsb']
  split <;> simp_all [BitVec.getLsbD_eq_getElem]

theorem frag_cases (f : BitVec 2) (h : f ≠ 3) : f = 0 ∨ f = 1 ∨ f = 2 := by
  revert h; revert f; decide

/-- The IPv4 image, byte by byte (40_ipv4_codec.md R150). -/
theorem ipBytes_eq (h : IpHeader) : ipBytes false h =
    [(4 : BitVec 4) ++ h.ihl, h.dscp ++ h.ecn, h.totlen.extractLsb' 8 8, h.totlen.extractLsb' 0 8,
     h.id.extractLsb' 8 8, h.id.extractLsb' 0 8,
     (0 : BitVec 1) ++ BitVec.ofBool (h.frag == 1) ++ BitVec.ofBool (h.frag == 2) ++ h.fragoff.extractLsb' 8 5,
     h.fragoff.extractLsb' 0 8, h.ttl, h.proto, h.csum.extractLsb' 8 8, h.csum.extractLsb' 0 8,
     h.src.extractLsb' 24 8, h.src.extractLsb' 16 8, h.src.extractLsb' 8 8, h.src.extractLsb' 0 8,
     h.dst.extractLsb' 24 8, h.dst.extractLsb' 16 8, h.dst.extractLsb' 8 8, h.dst.extractLsb' 0 8] := rfl

/-- The IPv4 fields of 20 bytes (30_encoding.md R101). -/
theorem ipFields_list (b0 b1 b2 b3 b4 b5 b6 b7 b8 b9 b10 b11 b12 b13 b14 b15 b16 b17 b18 b19 : Byte) (r : List Byte) :
    ipFields (b0 :: b1 :: b2 :: b3 :: b4 :: b5 :: b6 :: b7 :: b8 :: b9 :: b10 :: b11 :: b12 :: b13 :: b14 :: b15 ::
      b16 :: b17 :: b18 :: b19 :: r) =
    { ihl := b0.extractLsb' 0 4, dscp := b1.extractLsb' 2 6, ecn := b1.extractLsb' 0 2, totlen := b2 ++ b3,
      id := b4 ++ b5, frag := if b6.getLsbD 6 then 1 else if b6.getLsbD 5 then 2 else 0,
      fragoff := b6.extractLsb' 0 5 ++ b7, ttl := b8, proto := b9, csum := b10 ++ b11,
      src := b12 ++ b13 ++ b14 ++ b15, dst := b16 ++ b17 ++ b18 ++ b19 } := rfl

/-- The fields read from the image of an IPv4 header with a legal IPH_FRAG are that header (30_encoding.md R101). -/
theorem ipFields_ipBytes (h : IpHeader) (hf : h.frag ≠ 3) : ipFields (ipBytes false h) = h := by
  have hb := flagByte_bits (h.frag == 1) (h.frag == 2) (h.fragoff.extractLsb' 8 5)
  have hfrag : (if (h.frag == 1) = true then (1 : BitVec 2) else if (h.frag == 2) = true then 2 else 0) = h.frag := by
    rcases frag_cases h.frag hf with h1 | h1 | h1 <;> rw [h1] <;> rfl
  rw [ipBytes_eq, ipFields_list]
  simp only [extract_append_low, extract_append_high, join_bytes16, join_bytes32, fragoff_join, hb, hfrag]

/-- The fixed part of the TCP image, byte by byte (41_tcp_codec.md R194). -/
theorem tcpBytes_eq (h : TcpHeader) : tcpBytes false h =
    [h.sport.extractLsb' 8 8, h.sport.extractLsb' 0 8, h.dport.extractLsb' 8 8, h.dport.extractLsb' 0 8,
     h.seq.extractLsb' 24 8, h.seq.extractLsb' 16 8, h.seq.extractLsb' 8 8, h.seq.extractLsb' 0 8,
     h.ack.extractLsb' 24 8, h.ack.extractLsb' 16 8, h.ack.extractLsb' 8 8, h.ack.extractLsb' 0 8,
     h.doff ++ (0 : BitVec 4), h.flags, h.win.extractLsb' 8 8, h.win.extractLsb' 0 8,
     h.csum.extractLsb' 8 8, h.csum.extractLsb' 0 8, h.urg.extractLsb' 8 8, h.urg.extractLsb' 0 8] := rfl

/-- The TCP fields of 20 bytes (30_encoding.md R104). -/
theorem tcpFields_list (b0 b1 b2 b3 b4 b5 b6 b7 b8 b9 b10 b11 b12 b13 b14 b15 b16 b17 b18 b19 : Byte) (r : List Byte) :
    tcpFields (b0 :: b1 :: b2 :: b3 :: b4 :: b5 :: b6 :: b7 :: b8 :: b9 :: b10 :: b11 :: b12 :: b13 :: b14 :: b15 ::
      b16 :: b17 :: b18 :: b19 :: r) =
    { sport := b0 ++ b1, dport := b2 ++ b3, seq := b4 ++ b5 ++ b6 ++ b7, ack := b8 ++ b9 ++ b10 ++ b11,
      doff := b12.extractLsb' 4 4, flags := b13, win := b14 ++ b15, csum := b16 ++ b17, urg := b18 ++ b19 } := rfl

/-- The fields read from the 20 fixed bytes of a TCP header are that header (30_encoding.md R104). -/
theorem tcpFields_tcpBytes (h : TcpHeader) : tcpFields (tcpBytes false h) = h := by
  rw [tcpBytes_eq, tcpFields_list]
  simp only [extract_append_high, join_bytes16, join_bytes32]

/-- KIND and NBLK of a w0 are what it was made of (10_state.md R45). -/
@[simp] theorem headKind_entryHead (k : Byte) (n : BitVec 3) : headKind (entryHead k n) = k :=
  extract_append_low _ _

@[simp] theorem headNblk_entryHead (k : Byte) (n : BitVec 3) : headNblk (entryHead k n) = n := by
  unfold headNblk entryHead
  ext i hi
  simp only [BitVec.getElem_extractLsb', BitVec.getLsbD_append]
  have : ¬ (8 + i < 8) := by omega
  simp [hi]

/-- No bit of a w0 above bit 10 is set (10_state.md R45). -/
theorem entryHead_small (k : Byte) (n : BitVec 3) : (entryHead k n).toNat < 2 ^ 11 := by
  have e : entryHead k n = ((n ++ k : BitVec 11)).setWidth 32 := by
    unfold entryHead
    ext i hi
    simp only [BitVec.getElem_append, BitVec.getElem_setWidth, BitVec.getLsbD_append]
    by_cases h1 : i < 8
    · simp [h1]
    · by_cases h2 : i < 11
      · have : i - 8 < 3 := by omega
        simp [h1, this]
      · have h3 : ¬ (i - 8 < 3) := by omega
        simp [h1, h3]
        exact BitVec.getLsbD_of_ge _ _ (by omega)
  rw [e, BitVec.toNat_setWidth]
  have := (n ++ k : BitVec 11).isLt
  omega

@[simp] theorem length_sackWords (bs : List (Word × Word)) : (sackWords bs).length = 8 := by
  simp [sackWords]

@[simp] theorem length_optWords (e : TcpOption) : (optWords e).length = 11 := by cases e <;> simp [optWords]

/-- w0 of a stored option (10_state.md R45). -/
theorem optWords_head (e : TcpOption) :
    (optWords e)[0]? = some (entryHead (optKind e) (match e with | .sack bs => BitVec.ofNat 3 bs.length | _ => 0)) := by
  cases e <;> rfl

theorem length_optBytes (e : TcpOption) : (optBytes e).length = optSize e := by
  cases e with
  | sack bs =>
    simp only [optBytes, optSize, List.length_append, List.length_cons, List.length_nil]
    induction bs with
    | nil => rfl
    | cons b bs ih => simp only [List.flatMap_cons, List.length_append, length_bytes32, List.length_cons]; omega
  | _ => rfl

theorem optSize_pos (e : TcpOption) : 1 ≤ optSize e := by cases e <;> simp [optSize]; omega

end Sys2Proof.Machine
end

