-- ==== Sys2Proof/Laws/Codec.lean ====
section
/-!
SUPPORT. What the parsers and images answer: a header laid out in PBUF parses to its fields and options, and the
registers of a valid header give its image (40_ipv4_codec.md R150, R151; 41_tcp_codec.md R180 to R194).
-/
namespace Sys2Proof.Machine

variable {m : PacketBuffer} {o : List (Nat × Word)}

/-! ### Reads of laid out values -/

theorem memRead16_of_bytesAt {a : Nat} {v : Half} (hr : a + 2 ≤ m.size) (h : bytesAt m a (bytes16 v)) :
    memRead16 m a = .ok v := by
  rw [memRead16, readBytes_of_bytesAt (n := 2) rfl hr h]; simp

theorem memRead32_of_bytesAt {a : Nat} {v : Word} (hr : a + 4 ≤ m.size) (h : bytesAt m a (bytes32 v)) :
    memRead32 m a = .ok v := by
  rw [memRead32, readBytes_of_bytesAt (n := 4) rfl hr h]; simp

theorem readByte_of_bytesAt {a : Nat} {b : Byte} {r : List Byte} (hr : a < m.size)
    (h : bytesAt m a (b :: r)) : readByte m a = .ok b :=
  readByte_of_get hr (bytesAt_cons.1 h).1

/-! ### IPv4 -/

/-- `ipParse` on 20 written bytes, check by check (40_ipv4_codec.md R151). -/
theorem ipParse_eq {a n : Nat} {b : List Byte} (hl : b.length = 20) (hr : a + 20 ≤ m.size)
    (hb : bytesAt m a b) :
    ipParse m a n =
      if n < 20 then .error (.raise .ipShort (BitVec.ofNat 32 n))
      else if (byteAt b 0).extractLsb' 4 4 ≠ (4 : BitVec 4) then
        .error (.raise .ipVersion (((byteAt b 0).extractLsb' 4 4).setWidth 32))
      else if (byteAt b 6).getLsbD 6 = true ∧ (byteAt b 6).getLsbD 5 = true then .error (.raise .ipFragBoth 0)
      else if (ipFields b).ihl.toNat < 5 ∨ n < 4 * (ipFields b).ihl.toNat then
        .error (.raise .ipHdrLen ((ipFields b).ihl.setWidth 32))
      else .ok (ipFields b, 4 * (ipFields b).ihl.toNat) := by
  simp only [ipParse, failIf_bind, readBytes_of_bytesAt hl hr hb, ok_bind, pure_eq_ok]

/-- A header `ipParse` answers has the length it answers, at least 20 and inside the input. -/
theorem ipParse_ok {a n : Nat} {h : IpHeader} {hl : Nat} (hp : ipParse m a n = .ok (h, hl)) :
    hl = 4 * h.ihl.toNat ∧ 20 ≤ hl ∧ hl ≤ n ∧ h.frag ≠ 3 := by
  simp only [ipParse, bind_eq_ok, failIf_eq_ok, pure_eq_ok, Except.ok.injEq, Prod.mk.injEq] at hp
  obtain ⟨-, -, b, -, -, -, -, -, -, hn, rfl, rfl⟩ := hp
  refine ⟨rfl, by omega, by omega, ?_⟩
  simp only [ipFields]
  split
  · decide
  · split <;> decide

/-! ### TCP, fixed part -/

/-- `tcpFront` on 20 written bytes, check by check (41_tcp_codec.md R180). -/
theorem tcpFront_eq {a n : Nat} {t : List Byte} (hl : t.length = 20) (hr : a + 20 ≤ m.size)
    (ht : bytesAt m a t) :
    tcpFront m a n =
      if n < 20 then .error (.raise .tcpShort (BitVec.ofNat 32 n))
      else if (tcpFields t).doff.toNat < 5 ∨ n < 4 * (tcpFields t).doff.toNat then
        .error (.raise .tcpDoff ((tcpFields t).doff.setWidth 32))
      else .ok (tcpFields t, 4 * (tcpFields t).doff.toNat) := by
  have h12 : readByte m (a + 12) = .ok (byteAt t 12) := by
    refine readByte_of_get (by omega) ?_
    have := ht 12 (by omega)
    simp only [byteAt, List.getD_eq_getElem?_getD, List.getElem?_eq_getElem (show 12 < t.length by omega)]
    simpa using this
  simp only [tcpFront, failIf_bind, h12, readBytes_of_bytesAt hl hr ht, ok_bind, pure_eq_ok, tcpFields]
  rfl

theorem tcpFront_ok {a n : Nat} {h : TcpHeader} {hl : Nat} (hp : tcpFront m a n = .ok (h, hl)) :
    20 ≤ hl ∧ hl ≤ n ∧ hl ≤ 60 := by
  simp only [tcpFront, bind_eq_ok, failIf_eq_ok, pure_eq_ok, Except.ok.injEq, Prod.mk.injEq] at hp
  obtain ⟨-, -, b, -, -, hn, t, -, -, rfl⟩ := hp
  have := (b.extractLsb' 4 4).isLt
  omega

/-! ### TCP options, decode -/

/-- The length byte of a well-sized option inside the region (41_tcp_codec.md R182). -/
theorem optLength_ok {a hl p k : Nat} {l : Byte} (hr : a + hl ≤ m.size) (h : cellGet m.bytes (a + p + 1) = some l)
    (hk : lenOk k l.toNat = true) (hp : p + l.toNat ≤ hl) (h2 : 2 ≤ l.toNat) : optLength m a hl p k = .ok l.toNat := by
  simp only [optLength, failIf_bind, readByte_of_get (show a + p + 1 < m.size by omega) h, ok_bind, pure_eq_ok]
  rw [if_neg (by omega), if_neg (by simp [hk]; omega)]

/-- A length `optLength` answers is right for the kind and stays inside the region. -/
theorem optLength_eq_ok {a hl p k size : Nat} (h : optLength m a hl p k = .ok size) :
    lenOk k size = true ∧ p + size ≤ hl := by
  simp only [optLength, bind_eq_ok, failIf_eq_ok, pure_eq_ok, Except.ok.injEq] at h
  obtain ⟨-, -, b, -, -, hn, rfl⟩ := h
  simp only [not_or, Bool.not_eq_false, Nat.not_lt] at hn
  exact hn

theorem lenOk_ge {k size : Nat} (h : lenOk k size = true) : 2 ≤ size := by
  unfold lenOk at h
  split at h <;> simp_all

theorem readBlocks_of_bytesAt {a : Nat} {bs : List (Word × Word)} (hr : a + 8 * bs.length ≤ m.size)
    (h : bytesAt m a (bs.flatMap fun (b : Word × Word) => bytes32 b.1 ++ bytes32 b.2)) :
    readBlocks m a bs.length = .ok bs := by
  induction bs generalizing a with
  | nil => rfl
  | cons b bs ih =>
    simp only [List.flatMap_cons, List.append_assoc, bytesAt_append, length_bytes32, List.length_cons] at h hr ⊢
    rw [readBlocks, memRead32_of_bytesAt (by omega) h.1, ok_bind, memRead32_of_bytesAt (by omega) h.2.1, ok_bind,
      ih (a := a + 8) (by omega) (by simpa using h.2.2)]
    rfl

theorem readBlocks_length {a n : Nat} {bs : List (Word × Word)} (h : readBlocks m a n = .ok bs) : bs.length = n := by
  induction n generalizing a bs with
  | zero => simp [readBlocks] at h; simp [← h]
  | succ n ih =>
    simp only [readBlocks, bind_eq_ok, pure_eq_ok, Except.ok.injEq] at h
    obtain ⟨_, -, _, -, r, hr, rfl⟩ := h
    simp [ih hr]

/-- A round of the walk is the decoding of the option whose kind the decoder reads (30_encoding.md R107): one table
serves both. -/
theorem optStep_unknown {a hl p : Nat} {k : Byte} (hk : readByte m (a + p) = .ok k)
    (hd : decodeOptionKind k = .error (.unknownKind k)) :
    optStep m a hl p = decodeUnknown m a hl p := by
  simp only [optStep, hk, ok_bind]
  unfold decodeOptionKind at hd
  split at hd <;> simp_all

theorem optStep_of_kind {a hl p : Nat} {k : Byte} (hk : readByte m (a + p) = .ok k) :
    optStep m a hl p = match k.toNat with
      | 0 => decodeEol m a hl p
      | 1 => decodeNop m a hl p
      | 2 => decodeMss m a hl p
      | 3 => decodeWs m a hl p
      | 4 => decodeSackp m a hl p
      | 5 => decodeSack m a hl p
      | 8 => decodeTs m a hl p
      | 28 => decodeUto m a hl p
      | 29 => decodeUnsupported m a hl p
      | 30 => decodeUnsupported m a hl p
      | _ => decodeUnknown m a hl p := by
  simp only [optStep, hk, ok_bind] <;> rfl

/-- An option laid out at offset `p` inside the region is decoded to itself (41_tcp_codec.md R183 to R190). -/
theorem optStep_wire {a hl p : Nat} {e : TcpOption} (hw : e.wellFormed = true) (hr : a + hl ≤ m.size)
    (hp : p + optSize e ≤ hl) (h : bytesAt m (a + p) (optBytes e)) : optStep m a hl p = .ok (e, optSize e) := by
  have hpos := optSize_pos e
  cases e with
  | endOfList => rw [optStep_of_kind (readByte_of_bytesAt (by omega) h)]; rfl
  | noOp => rw [optStep_of_kind (readByte_of_bytesAt (by omega) h)]; rfl
  | maximumSegmentSize v =>
    rw [optStep_of_kind (readByte_of_bytesAt (by omega) h)]
    simp only [optBytes, optSize, List.cons_append, List.nil_append, bytesAt_cons] at h hp
    show decodeMss m a hl p = _
    rw [decodeMss, optLength_ok hr h.2.1 rfl hp (by decide), ok_bind,
      memRead16_of_bytesAt (by omega) (by simpa [Nat.add_assoc] using h.2.2)]
    rfl
  | windowScale v =>
    rw [optStep_of_kind (readByte_of_bytesAt (by omega) h)]
    simp only [optBytes, optSize, bytesAt_cons] at h hp
    show decodeWs m a hl p = _
    rw [decodeWs, optLength_ok hr h.2.1 rfl hp (by decide), ok_bind, readByte_of_get (by omega) h.2.2.1]
    rfl
  | sackPermitted =>
    rw [optStep_of_kind (readByte_of_bytesAt (by omega) h)]
    simp only [optBytes, optSize, bytesAt_cons] at h hp
    show decodeSackp m a hl p = _
    rw [decodeSackp, optLength_ok hr h.2.1 rfl hp (by decide)]
    rfl
  | sack bs =>
    rw [optStep_of_kind (readByte_of_bytesAt (by omega) h)]
    simp only [optBytes, optSize, List.cons_append, List.nil_append, bytesAt_cons] at h hp
    have hw4 : bs.length ≤ 4 := of_decide_eq_true hw
    have hn : (BitVec.ofNat 8 (2 + 8 * bs.length)).toNat = 2 + 8 * bs.length := by
      rw [BitVec.toNat_ofNat, Nat.mod_eq_of_lt (by omega)]
    show decodeSack m a hl p = _
    rw [decodeSack, optLength_ok hr h.2.1 (by rw [hn]; simp [lenOk]) (by omega) (by omega), ok_bind, hn,
      show (2 + 8 * bs.length - 2) / 8 = bs.length by omega,
      readBlocks_of_bytesAt (by omega) (by simpa [Nat.add_assoc] using h.2.2)]
    rfl
  | timestamp v e =>
    rw [optStep_of_kind (readByte_of_bytesAt (by omega) h)]
    simp only [optBytes, optSize, List.cons_append, List.nil_append, bytesAt_cons, bytesAt_append, length_bytes32]
      at h hp
    show decodeTs m a hl p = _
    rw [decodeTs, optLength_ok hr h.2.1 rfl hp (by decide), ok_bind,
      memRead32_of_bytesAt (by omega) (by simpa [Nat.add_assoc] using h.2.2.1), ok_bind,
      memRead32_of_bytesAt (by omega) (by simpa [Nat.add_assoc] using h.2.2.2)]
    rfl
  | userTimeout v =>
    rw [optStep_of_kind (readByte_of_bytesAt (by omega) h)]
    simp only [optBytes, optSize, List.cons_append, List.nil_append, bytesAt_cons] at h hp
    show decodeUto m a hl p = _
    rw [decodeUto, optLength_ok hr h.2.1 rfl hp (by decide), ok_bind,
      memRead16_of_bytesAt (by omega) (by simpa [Nat.add_assoc] using h.2.2)]
    rfl

/-- Every answered round of the walk moves forward by the size of its option and stays inside the region. -/
theorem optStep_ok {a hl p size : Nat} {e : TcpOption} (hlt : p < hl) (h : optStep m a hl p = .ok (e, size)) :
    size = optSize e ∧ 1 ≤ size ∧ p + size ≤ hl := by
  simp only [optStep, bind_eq_ok] at h
  obtain ⟨k, -, h⟩ := h
  split at h
  · simp [decodeEol] at h; obtain ⟨rfl, rfl⟩ := h; exact ⟨rfl, by omega, by omega⟩
  · simp [decodeNop] at h; obtain ⟨rfl, rfl⟩ := h; exact ⟨rfl, by omega, by omega⟩
  · simp only [decodeMss, bind_eq_ok, pure_eq_ok, Except.ok.injEq, Prod.mk.injEq] at h
    obtain ⟨l, hl', v, -, rfl, rfl⟩ := h
    have := optLength_eq_ok hl'; simp [lenOk] at this; simp [optSize]; omega
  · simp only [decodeWs, bind_eq_ok, pure_eq_ok, Except.ok.injEq, Prod.mk.injEq] at h
    obtain ⟨l, hl', v, -, rfl, rfl⟩ := h
    have := optLength_eq_ok hl'; simp [lenOk] at this; simp [optSize]; omega
  · simp only [decodeSackp, bind_eq_ok, pure_eq_ok, Except.ok.injEq, Prod.mk.injEq] at h
    obtain ⟨l, hl', rfl, rfl⟩ := h
    have := optLength_eq_ok hl'; simp [lenOk] at this; simp [optSize]; omega
  · simp only [decodeSack, bind_eq_ok, pure_eq_ok, Except.ok.injEq, Prod.mk.injEq] at h
    obtain ⟨l, hl', bs, hbs, rfl, rfl⟩ := h
    have := optLength_eq_ok hl'; have hb := readBlocks_length hbs
    simp [lenOk] at this; simp [optSize, hb]; omega
  · simp only [decodeTs, bind_eq_ok, pure_eq_ok, Except.ok.injEq, Prod.mk.injEq] at h
    obtain ⟨l, hl', v, -, w, -, rfl, rfl⟩ := h
    have := optLength_eq_ok hl'; simp [lenOk] at this; simp [optSize]; omega
  · simp only [decodeUto, bind_eq_ok, pure_eq_ok, Except.ok.injEq, Prod.mk.injEq] at h
    obtain ⟨l, hl', v, -, rfl, rfl⟩ := h
    have := optLength_eq_ok hl'; simp [lenOk] at this; simp [optSize]; omega
  all_goals simp [decodeUnsupported, decodeUnknown] at h

/-- An option list laid out from offset `p` to the end of the region is walked to itself (41_tcp_codec.md R181). -/
theorem optWalk_wire {a hl fuel p : Nat} {opts : List TcpOption} (hw : optsOk opts) (hr : a + hl ≤ m.size)
    (hp : p + wireSize opts = hl) (hf : opts.length < fuel) (h : bytesAt m (a + p) (wireBytes opts)) :
    optWalk m a hl fuel p = .ok opts := by
  induction opts generalizing fuel p with
  | nil =>
    cases fuel with
    | zero => simp at hf
    | succ fuel => simp [wireSize] at hp; simp [optWalk, hp]
  | cons e opts ih =>
    cases fuel with
    | zero => simp at hf
    | succ fuel =>
      have hpos := optSize_pos e
      simp only [wireSize, List.map_cons, List.sum_cons, List.length_cons] at hp hf
      simp only [wireBytes, List.flatMap_cons, bytesAt_append, length_optBytes] at h
      have hs : wireSize opts = (opts.map optSize).sum := rfl
      rw [optWalk, if_pos (by omega), optStep_wire (hw e (by simp)) hr (by omega) h.1]
      simp only [ok_bind]
      rw [ih (fun e he => hw e (by simp [he])) (by omega) (by omega) (by rw [← Nat.add_assoc]; exact h.2)]
      rfl

/-- Enough rounds are enough: the walk does not depend on the bound on its rounds. -/
theorem optWalk_fuel {a hl f g p : Nat} (hf : hl < f + p) (hg : hl < g + p) :
    optWalk m a hl f p = optWalk m a hl g p := by
  induction f generalizing g p with
  | zero =>
    cases g with
    | zero => rfl
    | succ g => simp [optWalk, show ¬ p < hl by omega]
  | succ f ih =>
    cases g with
    | zero => simp [optWalk, show ¬ p < hl by omega]
    | succ g =>
      simp only [optWalk]
      split
      · next hlt =>
        cases hs : optStep m a hl p with
        | error e => simp
        | ok r =>
          obtain ⟨e, size⟩ := r
          have := optStep_ok hlt hs
          simp only [ok_bind]
          rw [ih (g := g) (by omega) (by omega)]
      · rfl

/-- The options walked fill the region from `p` to its end, so they are no more than its bytes (00_scope.md R4). -/
theorem optWalk_size {a hl fuel p : Nat} {opts : List TcpOption} (hf : hl < fuel + p) (hp : p ≤ hl)
    (h : optWalk m a hl fuel p = .ok opts) : p + wireSize opts = hl ∧ opts.length ≤ wireSize opts := by
  induction fuel generalizing p opts with
  | zero => omega
  | succ fuel ih =>
    simp only [optWalk] at h
    split at h
    · next hlt =>
      simp only [bind_eq_ok, pure_eq_ok, Except.ok.injEq] at h
      obtain ⟨⟨e, size⟩, hs, r, hr, rfl⟩ := h
      have hst := optStep_ok hlt hs
      have := ih (by omega) (by omega) hr
      simp only [wireSize, List.map_cons, List.sum_cons, List.length_cons] at this ⊢
      omega
    · simp only [Except.ok.injEq] at h; subst h; simp [wireSize]; omega

theorem tcpParse_ok {a n : Nat} {h : TcpHeader} {opts : List TcpOption} {hl : Nat}
    (hp : tcpParse m a n = .ok (h, opts, hl)) :
    20 ≤ hl ∧ hl ≤ n ∧ hl ≤ 60 ∧ 20 + wireSize opts = hl ∧ opts.length ≤ Config.optMax := by
  simp only [tcpParse, bind_eq_ok, pure_eq_ok, Except.ok.injEq, Prod.mk.injEq] at hp
  obtain ⟨⟨h', hl'⟩, hf, opts', hw, rfl, rfl, rfl⟩ := hp
  have h1 := tcpFront_ok hf
  have h2 := optWalk_size (by omega) (by omega) hw
  simp only [Config.optMax]; omega

/-! ### TCP options, register form -/

theorem checkKind_ok (e : TcpOption) (i : Nat) : checkKind (optKind e) i = .ok () := by
  cases e <;> rfl

theorem readHeads_of_entries {i : Nat} {opts : List TcpOption}
    (h : ∀ j (hj : j < opts.length), entryHolds o (i + j) opts[j]) :
    ∃ heads, readHeads o i opts.length = .ok heads ∧ heads.length = opts.length ∧
      ∀ j < opts.length, ∃ w0, heads[j]? = some w0 ∧ cellGet o (12 * (i + j)) = some w0 := by
  induction opts generalizing i with
  | nil => exact ⟨[], rfl, rfl, by simp⟩
  | cons e opts ih =>
    obtain ⟨heads, hh, hlen, hj⟩ := ih (i := i + 1) fun j hj => by
      have := h (j + 1) (by simpa using hj)
      simpa [Nat.add_assoc, Nat.add_comm 1] using this
    obtain ⟨w0, hw0, hk, -⟩ := h 0 (by simp)
    refine ⟨w0 :: heads, ?_, by simp [hlen], fun j hj' => ?_⟩
    · have hk0 : headKind w0 = optKind e := hk
      rw [List.length_cons, readHeads, readOpt_of_get (by simpa using hw0), ok_bind, hk0, checkKind_ok, ok_bind, hh]
      rfl
    · cases j with
      | zero => exact ⟨w0, by simp, by simpa using hw0⟩
      | succ j =>
        obtain ⟨w, hw, hc⟩ := hj j (by simpa using hj')
        exact ⟨w, by simpa using hw, by simpa [Nat.add_assoc, Nat.add_comm 1] using hc⟩

theorem entrySize_of_holds {i : Nat} {e : TcpOption} {w0 : Word} (h : entryHolds o i e)
    (hw : cellGet o (12 * i) = some w0) : entrySize w0 = optSize e := by
  obtain ⟨w, hw', hk, hf⟩ := h
  rw [hw] at hw'; cases hw'
  unfold entrySize
  rw [hk]
  cases e with
  | sack bs => simp only at hf; simp [optKind, optSize, hf.1]
  | _ => rfl

theorem readSack_of_holds {i j : Nat} {bs : List (Word × Word)}
    (h : ∀ k (hk : k < bs.length), cellGet o (12 * i + 3 + 2 * (j + k)) = some bs[k].1 ∧
      cellGet o (12 * i + 4 + 2 * (j + k)) = some bs[k].2) : readSack o i j bs.length = .ok bs := by
  induction bs generalizing j with
  | nil => rfl
  | cons b bs ih =>
    have h0 := h 0 (by simp)
    rw [List.length_cons, readSack, readOpt_of_get (by simpa [Nat.add_assoc] using h0.1), ok_bind,
      readOpt_of_get (by simpa [Nat.add_assoc] using h0.2), ok_bind,
      ih (j := j + 1) fun k hk => by
        have := h (k + 1) (by simpa using hk)
        simpa [Nat.add_assoc, Nat.add_comm 1] using this]
    rfl

theorem readEntry_of_holds {i : Nat} {e : TcpOption} {w0 : Word} (h : entryHolds o i e)
    (hw : cellGet o (12 * i) = some w0) : readEntry o i w0 = .ok e := by
  obtain ⟨w, hw', hk, hf⟩ := h
  rw [hw] at hw'; cases hw'
  unfold readEntry
  rw [hk]
  cases e with
  | endOfList => rfl
  | noOp => rfl
  | maximumSegmentSize v =>
    obtain ⟨x, hx, rfl⟩ := hf
    show (do let v ← readOpt o i 1; pure (TcpOption.maximumSegmentSize (v.extractLsb' 0 16))) = _
    rw [readOpt_of_get hx]; rfl
  | windowScale v =>
    obtain ⟨x, hx, rfl⟩ := hf
    show (do let v ← readOpt o i 1; pure (TcpOption.windowScale (v.extractLsb' 0 8))) = _
    rw [readOpt_of_get hx]; rfl
  | sackPermitted => rfl
  | sack bs =>
    show (do let bs ← readSack o i 0 (headNblk w0).toNat; pure (TcpOption.sack bs)) = _
    rw [hf.1, readSack_of_holds (by simpa using hf.2)]; rfl
  | timestamp v e =>
    show (do let v ← readOpt o i 1; let e ← readOpt o i 2; pure (TcpOption.timestamp v e)) = _
    rw [readOpt_of_get hf.1, ok_bind, readOpt_of_get hf.2]; rfl
  | userTimeout v =>
    obtain ⟨x, hx, rfl⟩ := hf
    show (do let v ← readOpt o i 1; pure (TcpOption.userTimeout (v.extractLsb' 0 16))) = _
    rw [readOpt_of_get hx]; rfl

theorem readEntries_of_holds {i : Nat} {opts : List TcpOption} {heads : List Word} (hl : heads.length = opts.length)
    (h : ∀ j (hj : j < opts.length), entryHolds o (i + j) opts[j])
    (hh : ∀ j < opts.length, ∃ w0, heads[j]? = some w0 ∧ cellGet o (12 * (i + j)) = some w0) :
    readEntries o i heads = .ok opts ∧ (heads.map entrySize).sum = wireSize opts := by
  induction opts generalizing i heads with
  | nil => simp at hl; subst hl; exact ⟨rfl, rfl⟩
  | cons e opts ih =>
    cases heads with
    | nil => simp at hl
    | cons w0 heads =>
      obtain ⟨w, hw, hc⟩ := hh 0 (by simp)
      simp only [List.getElem?_cons_zero, Option.some.injEq, Nat.add_zero] at hw hc
      subst hw
      have h0 : entryHolds o i e := h 0 (by simp)
      obtain ⟨h1, h2⟩ := ih (i := i + 1) (heads := heads) (by simpa using hl)
        (fun j hj => by
          have := h (j + 1) (by simpa using hj)
          simpa [Nat.add_assoc, Nat.add_comm 1] using this)
        (fun j hj => by
          obtain ⟨w, hw, hc⟩ := hh (j + 1) (by simpa using hj)
          exact ⟨w, by simpa using hw, by simpa [Nat.add_assoc, Nat.add_comm 1] using hc⟩)
      constructor
      · rw [readEntries, readEntry_of_holds h0 hc, ok_bind, h1]; rfl
      · simp only [List.map_cons, List.sum_cons, wireSize, entrySize_of_holds h0 hc] at h2 ⊢
        omega

/-- The image of a valid header: its fixed part, then its options in order (41_tcp_codec.md R193, R194). -/
theorem tcpImage_of_valid {s : State} {opts : List TcpOption} (z : Bool) (h : tcpValid s opts) :
    tcpImage z s.tcph s.optcnt s.opt = .ok (tcpBytes z s.tcph ++ wireBytes opts) := by
  obtain ⟨hd, hn, hm, hs, he⟩ := h
  obtain ⟨heads, hh, hlen, hj⟩ := readHeads_of_entries (o := s.opt) (i := 0) (opts := opts)
    (fun j hj => by simpa using he j hj)
  obtain ⟨h1, h2⟩ := readEntries_of_holds (i := 0) hlen (fun j hj => by simpa using he j hj) hj
  simp only [tcpImage, failIf_bind, hn, hh, ok_bind, h1, h2, pure_eq_ok]
  rw [if_neg (by omega), if_neg (by omega), if_neg (by omega)]
  rfl

theorem length_wireBytes (opts : List TcpOption) : (wireBytes opts).length = wireSize opts := by
  induction opts with
  | nil => rfl
  | cons e opts ih =>
    simp only [wireBytes, wireSize, List.flatMap_cons, List.length_append, List.map_cons, List.sum_cons,
      length_optBytes] at ih ⊢
    omega

theorem readSack_length {i j n : Nat} {bs : List (Word × Word)} (h : readSack o i j n = .ok bs) : bs.length = n := by
  induction n generalizing j bs with
  | zero => simp [readSack] at h; simp [← h]
  | succ n ih =>
    simp only [readSack, bind_eq_ok, pure_eq_ok, Except.ok.injEq] at h
    obtain ⟨_, -, _, -, r, hr, rfl⟩ := h
    simp [ih hr]

theorem readEntry_size {i : Nat} {w0 : Word} {e : TcpOption} (h : readEntry o i w0 = .ok e) :
    entrySize w0 = optSize e := by
  unfold readEntry at h
  unfold entrySize
  split at h <;> simp_all only [bind_eq_ok, pure_eq_ok, Except.ok.injEq, reduceCtorEq]
  · simp [← h, optSize]
  · simp [← h, optSize]
  · obtain ⟨v, -, rfl⟩ := h; rfl
  · obtain ⟨v, -, rfl⟩ := h; rfl
  · simp [← h, optSize]
  · obtain ⟨bs, hb, rfl⟩ := h; simp [optSize, readSack_length hb]
  · obtain ⟨v, -, w, -, rfl⟩ := h; rfl
  · obtain ⟨v, -, rfl⟩ := h; rfl

theorem readEntries_size {i : Nat} {heads : List Word} {opts : List TcpOption}
    (h : readEntries o i heads = .ok opts) : (heads.map entrySize).sum = wireSize opts := by
  induction heads generalizing i opts with
  | nil => simp [readEntries] at h; subst h; rfl
  | cons w0 heads ih =>
    simp only [readEntries, bind_eq_ok, pure_eq_ok, Except.ok.injEq] at h
    obtain ⟨e, he, es, hes, rfl⟩ := h
    have := ih hes
    simp only [List.map_cons, List.sum_cons, wireSize, readEntry_size he] at this ⊢
    omega

/-- An image `tcpImage` answers has exactly `tcpHL` bytes (41_tcp_codec.md R194). -/
theorem tcpImage_length {z : Bool} {h : TcpHeader} {n : BitVec 6} {img : List Byte} (hi : tcpImage z h n o = .ok img) :
    img.length = 4 * h.doff.toNat ∧ 5 ≤ h.doff.toNat := by
  simp only [tcpImage, bind_eq_ok, failIf_eq_ok, pure_eq_ok, Except.ok.injEq] at hi
  obtain ⟨-, hd, -, -, heads, -, -, ht, opts, ho, rfl⟩ := hi
  have h1 := readEntries_size ho
  have h2 := length_wireBytes opts
  simp only [wireBytes] at h2
  simp only [List.length_append, length_tcpBytes, h2]
  omega

/-! ### Writing a decoded option list -/

theorem writeEntries_out {i k : Nat} {opts : List TcpOption} (h : k < 12 * i ∨ 12 * (i + opts.length) ≤ k) :
    cellGet (writeEntries o i opts) k = cellGet o k := by
  induction opts generalizing o i with
  | nil => rfl
  | cons e opts ih =>
    simp only [List.length_cons] at h
    rw [writeEntries, ih (by omega), cellGet_putList_out _ _ _ _ (by simp [optKey]; omega)]

/-- Words w0 to w10 of every entry written are the option's words (41_tcp_codec.md R195). -/
theorem writeEntries_in {i j w : Nat} {opts : List TcpOption} (hj : j < opts.length) (hw : w < 11) :
    cellGet (writeEntries o i opts) (12 * (i + j) + w) = (optWords opts[j])[w]? := by
  induction opts generalizing o i j with
  | nil => simp at hj
  | cons e opts ih =>
    cases j with
    | zero =>
      rw [writeEntries, writeEntries_out (by omega), cellGet_putList, if_pos (by simp [optKey]; omega)]
      simp [optKey]
    | succ j =>
      rw [writeEntries, show i + (j + 1) = i + 1 + j by omega, ih (by simpa using hj)]
      simp

theorem writeEntries_wf {i : Nat} {opts : List TcpOption} (ho : optWf o) (hn : i + opts.length ≤ Config.optMax) :
    optWf (writeEntries o i opts) := by
  induction opts generalizing o i with
  | nil => exact ho
  | cons e opts ih =>
    simp only [List.length_cons] at hn
    refine ih ⟨cellPutList_wf ho.1 fun k hk => ?_, ?_⟩ (by omega)
    · simp only [length_optWords] at hk; simp only [optKey]; omega
    · intro c hc h0
      obtain ⟨k, v⟩ := c
      have hp : (cellPutList o (optKey i 0) (optWords e)).Pairwise fun x y => x.1 < y.1 :=
        (cellPutList_wf (ok := fun _ => True) ⟨ho.1.1, by simp⟩ (by simp)).1
      have hget := cellGet_of_mem hp hc
      rw [cellGet_putList] at hget
      simp only [optKey, length_optWords] at hget
      split at hget
      · next hin =>
        have : k = 12 * i := by simp only at h0; omega
        subst this
        rw [Nat.add_zero, Nat.sub_self, optWords_head] at hget
        simp only [Option.some.injEq] at hget
        subst hget
        exact entryHead_small _ _
      · exact ho.2 _ (mem_of_cellGet hget) h0

/-! ### The layouts of the statements -/

/-- The header the block writes is the image of 40_ipv4_codec.md R150. -/
theorem ipWire_eq (h : IpHeader) : ipWire h = ipBytes false h := by
  simp only [ipWire, ipRaw, ipBytes_eq]
  rfl

/-- The fields of a header laid out bit by bit (30_encoding.md R101): the version, the reserved flag bit are none. -/
theorem ipFields_ipRaw (v : BitVec 4) (rf df mf : Bool) (h : IpHeader) :
    ipFields (ipRaw v rf df mf h) = { h with frag := fragOf df mf } := by
  have hb := flagByte_rf_bits rf df mf (h.fragoff.extractLsb' 8 5)
  simp only [ipRaw, ipFields_list, extract_append_low, extract_append_high, join_bytes16, join_bytes32, fragoff_join,
    hb, fragOf]

/-- `ipParse` on a header laid out bit by bit, check by check (40_ipv4_codec.md R151). -/
theorem ipParse_ipRaw {a n : Nat} (v : BitVec 4) (rf df mf : Bool) (h : IpHeader) (hr : a + 20 ≤ m.size)
    (hb : bytesAt m a (ipRaw v rf df mf h)) :
    ipParse m a n =
      if n < 20 then .error (.raise .ipShort (BitVec.ofNat 32 n))
      else if v ≠ (4 : BitVec 4) then .error (.raise .ipVersion (v.setWidth 32))
      else if df = true ∧ mf = true then .error (.raise .ipFragBoth 0)
      else if h.ihl.toNat < 5 ∨ n < 4 * h.ihl.toNat then .error (.raise .ipHdrLen (h.ihl.setWidth 32))
      else .ok ({ h with frag := fragOf df mf }, 4 * h.ihl.toNat) := by
  have hbits := flagByte_rf_bits rf df mf (h.fragoff.extractLsb' 8 5)
  have e0 : byteAt (ipRaw v rf df mf h) 0 = v ++ h.ihl := rfl
  have e6 : byteAt (ipRaw v rf df mf h) 6 =
    BitVec.ofBool rf ++ BitVec.ofBool df ++ BitVec.ofBool mf ++ h.fragoff.extractLsb' 8 5 := rfl
  rw [ipParse_eq (b := ipRaw v rf df mf h) rfl hr hb, ipFields_ipRaw, e0, e6, extract_append_high, hbits.1, hbits.2]

/-- The fixed part the block writes has the reserved nibble 0 (30_encoding.md R104). -/
theorem tcpWire_eq (h : TcpHeader) : tcpWire h 0 = tcpBytes false h := rfl

/-- The fields of a fixed part with any reserved nibble (30_encoding.md R104). -/
theorem tcpFields_tcpWire (h : TcpHeader) (r : BitVec 4) : tcpFields (tcpWire h r) = h := by
  rw [tcpWire, tcpFields_list]
  simp only [extract_append_high, join_bytes16, join_bytes32]

/-- `tcpFront` on a fixed part laid out in PBUF, check by check (41_tcp_codec.md R180). -/
theorem tcpFront_tcpWire {a n : Nat} (h : TcpHeader) (r : BitVec 4) (hr : a + 20 ≤ m.size)
    (ht : bytesAt m a (tcpWire h r)) :
    tcpFront m a n =
      if n < 20 then .error (.raise .tcpShort (BitVec.ofNat 32 n))
      else if h.doff.toNat < 5 ∨ n < 4 * h.doff.toNat then .error (.raise .tcpDoff (h.doff.setWidth 32))
      else .ok (h, 4 * h.doff.toNat) := by
  rw [tcpFront_eq (t := tcpWire h r) rfl hr ht, tcpFields_tcpWire]

/-- Every option takes at least one byte. -/
theorem length_le_wireSize (opts : List TcpOption) : opts.length ≤ wireSize opts := by
  induction opts with
  | nil => simp
  | cons e opts ih =>
    have := optSize_pos e
    simp only [wireSize, List.map_cons, List.sum_cons, List.length_cons] at ih ⊢; omega

/-- `tcpParse` of a header laid out in PBUF with an option list that fills it (41_tcp_codec.md R180, R181). -/
theorem tcpParse_wire {a n : Nat} {h : TcpHeader} {r : BitVec 4} {opts : List TcpOption} (ho : optsOk opts)
    (h5 : 5 ≤ h.doff.toNat) (hs : 20 + wireSize opts = 4 * h.doff.toNat) (hn : 4 * h.doff.toNat ≤ n)
    (hr : a + n ≤ m.size) (hb : bytesAt m a (tcpWire h r ++ wireBytes opts)) :
    tcpParse m a n = .ok (h, opts, 4 * h.doff.toNat) := by
  rw [bytesAt_append] at hb
  have hl := length_le_wireSize opts
  rw [tcpParse, tcpFront_tcpWire h r (by omega) hb.1, if_neg (by omega), if_neg (by omega), ok_bind]
  simp only
  rw [optWalk_wire ho (by omega) hs (by omega) hb.2]
  rfl

/-- A walk over good options ends as its first bad round does (41_tcp_codec.md R181). -/
theorem optWalk_error {m : PacketBuffer} {a hl fuel p : Nat} {e : Stop} {opts : List TcpOption} (hw : optsOk opts)
    (hr : a + hl ≤ m.size)
    (hp : p + wireSize opts < hl) (hf : opts.length < fuel) (h : bytesAt m (a + p) (wireBytes opts))
    (hbad : optStep m a hl (p + wireSize opts) = .error e) :
    optWalk m a hl fuel p = .error e := by
  induction opts generalizing fuel p with
  | nil =>
    cases fuel with
    | zero => simp at hf
    | succ fuel =>
      simp [wireSize] at hp hbad
      rw [optWalk, if_pos hp, hbad]; rfl
  | cons x opts ih =>
    cases fuel with
    | zero => simp at hf
    | succ fuel =>
      have hpos := optSize_pos x
      simp only [wireSize, List.map_cons, List.sum_cons, List.length_cons] at hp hf hbad
      simp only [wireBytes, List.flatMap_cons, bytesAt_append, length_optBytes] at h
      have hs : wireSize opts = (opts.map optSize).sum := rfl
      rw [optWalk, if_pos (by omega), optStep_wire (hw x (by simp)) hr (by omega) h.1]
      simp only [ok_bind]
      rw [ih (fun e he => hw e (by simp [he])) (by omega) (by omega)
        (by rw [← Nat.add_assoc]; exact h.2) (by rw [hs, Nat.add_assoc]; exact hbad)]
      rfl

/-- A length byte that is missing, wrong for its kind, or that runs past the header (41_tcp_codec.md R181, R182). -/
theorem optLength_error {m : PacketBuffer} {a hl p : Nat} {k l : Byte} (hk : k ∈ sizedKinds.map Prod.snd)
    (hr : a + hl ≤ m.size) (hp : p < hl)
    (h : p + 1 = hl ∨ (cellGet m.bytes (a + p + 1) = some l ∧ (badLength k l ∨ hl < p + l.toNat))) :
    optLength m a hl p k.toNat = .error (.raise .tcpOptLen (BitVec.ofNat 32 p)) := by
  by_cases h1 : p + 1 = hl
  · rw [optLength, failIf_pos (by omega)]; rfl
  · rcases h with h | ⟨hc, hb⟩
    · exact absurd h h1
    · rw [optLength, failIf_neg (by omega), ok_bind, readByte_of_get (by omega) hc, ok_bind, failIf_pos]
      · rfl
      · rcases hb with hb | hb
        · left
          simp only [badLength] at hb
          rcases hb with ⟨rfl | rfl, h⟩ | ⟨rfl, h⟩ | ⟨rfl, h⟩ | ⟨rfl, h⟩ | ⟨rfl, h⟩
          · simp [lenOk]; intro e; exact h (BitVec.eq_of_toNat_eq e)
          · simp [lenOk]; intro e; exact h (BitVec.eq_of_toNat_eq e)
          · simp [lenOk]; intro e; exact h (BitVec.eq_of_toNat_eq e)
          · simp [lenOk]; intro e; exact h (BitVec.eq_of_toNat_eq e)
          · simp [lenOk]; intro e; exact h (BitVec.eq_of_toNat_eq e)
          · simp [lenOk]; omega
        · right; exact hb

/-- The kinds with a length byte. -/
theorem sizedKinds_cases {k : Byte} (hk : k ∈ sizedKinds.map Prod.snd) : k = 2 ∨ k = 3 ∨ k = 4 ∨ k = 5 ∨ k = 8 ∨ k = 28 := by
  simpa [sizedKinds] using hk

/-- A round ends as its length check does (41_tcp_codec.md R185 to R190). -/
theorem optStep_length_error {m : PacketBuffer} {a hl p : Nat} {k : Byte} {e : Stop} (hk : k ∈ sizedKinds.map Prod.snd)
    (hb : readByte m (a + p) = .ok k) (h : optLength m a hl p k.toNat = .error e) : optStep m a hl p = .error e := by
  rw [optStep_of_kind hb]
  rcases sizedKinds_cases hk with rfl | rfl | rfl | rfl | rfl | rfl
  · show decodeMss m a hl p = _; rw [decodeMss]; erw [h]; rfl
  · show decodeWs m a hl p = _; rw [decodeWs]; erw [h]; rfl
  · show decodeSackp m a hl p = _; rw [decodeSackp]; erw [h]; rfl
  · show decodeSack m a hl p = _; rw [decodeSack]; erw [h]; rfl
  · show decodeTs m a hl p = _; rw [decodeTs]; erw [h]; rfl
  · show decodeUto m a hl p = _; rw [decodeUto]; erw [h]; rfl

/-- The first bad option of a header, by its offset `p` from the header's start: an unsupported kind, an unknown kind, a
length byte that is missing, wrong or runs past the header (41_tcp_codec.md R180 to R182, R191, R192). -/
theorem tcpParse_badOption {a n p : Nat} {h : TcpHeader} {r : BitVec 4} {opts : List TcpOption} {k l : Byte}
    (hr : a + n ≤ m.size) (h5 : 5 ≤ h.doff.toNat) (hn : 4 * h.doff.toNat ≤ n) (ho : optsOk opts)
    (hp : p = 20 + wireSize opts) (hlt : p < 4 * h.doff.toNat)
    (hb : bytesAt m a (tcpWire h r ++ wireBytes opts ++ [k])) :
    (k = 29 ∨ k = 30 → tcpParse m a n = .error (.raise .tcpOptUnsupported (BitVec.ofNat 32 p))) ∧
    (k ∉ encodableKinds → k ≠ 29 → k ≠ 30 → tcpParse m a n = .error (.raise .tcpOptUnknown (BitVec.ofNat 32 p))) ∧
    (k ∈ sizedKinds.map Prod.snd →
      p + 1 = 4 * h.doff.toNat ∨
        (cellGet m.bytes (a + p + 1) = some l ∧ (badLength k l ∨ 4 * h.doff.toNat < p + l.toNat)) →
      tcpParse m a n = .error (.raise .tcpOptLen (BitVec.ofNat 32 p))) := by
  rw [bytesAt_append, bytesAt_append] at hb
  obtain ⟨⟨hb1, hb2⟩, hb3⟩ := hb
  have hlen : (tcpWire h r).length = 20 := rfl
  rw [hlen] at hb2
  rw [List.length_append, hlen, length_wireBytes] at hb3
  have hk := readByte_of_bytesAt (by omega) hb3
  have main : ∀ er, optStep m a (4 * h.doff.toNat) p = .error er → tcpParse m a n = .error er := by
    intro er hst
    have hll := length_le_wireSize opts
    rw [tcpParse, tcpFront_tcpWire h r (by omega) hb1, if_neg (by omega), if_neg (by omega), ok_bind]
    simp only
    rw [optWalk_error (e := er) ho (by omega) (by omega) (by omega) hb2 (by rw [← hp]; exact hst)]
    rfl
  rw [← hp] at hk
  refine ⟨fun hkk => main _ ?_, fun h1 h2 h3 => main _ ?_,
    fun hks hbad => main _ (optStep_length_error hks hk (optLength_error hks (by omega) hlt hbad))⟩
  · rw [optStep_of_kind hk]; rcases hkk with rfl | rfl <;> rfl
  · rw [optStep_of_kind hk]
    simp only [encodableKinds, List.mem_cons, List.not_mem_nil, or_false, not_or] at h1
    have t : ∀ n : Nat, n < 256 → k ≠ BitVec.ofNat 8 n → k.toNat ≠ n := by
      intro n hn hne he; apply hne; rw [← he]; simp
    split
    · exact absurd ‹_› (t 0 (by omega) h1.1)
    · exact absurd ‹_› (t 1 (by omega) h1.2.1)
    · exact absurd ‹_› (t 2 (by omega) h1.2.2.1)
    · exact absurd ‹_› (t 3 (by omega) h1.2.2.2.1)
    · exact absurd ‹_› (t 4 (by omega) h1.2.2.2.2.1)
    · exact absurd ‹_› (t 5 (by omega) h1.2.2.2.2.2.1)
    · exact absurd ‹_› (t 8 (by omega) h1.2.2.2.2.2.2.1)
    · exact absurd ‹_› (t 28 (by omega) h1.2.2.2.2.2.2.2)
    · exact absurd ‹_› (t 29 (by omega) h2)
    · exact absurd ‹_› (t 30 (by omega) h3)
    · rfl

end Sys2Proof.Machine
end

