-- ==== Sys2Proof/Laws/Exec.lean ====
section
/-!
SUPPORT. What each command's pseudocode can answer (30_encoding.md R122), that only DISPATCH drops (43_dispatcher.md
R262), and that a meaning ends in a completion or a fault, never in a refusal.
-/
namespace Sys2Proof.Machine

variable {s t w : State} {c : Bool}

/-! ### Stops that are not drops -/

/-- A stop that is no drop: an error of the command or a fault of the model. -/
abbrev Stop.plain (e : Stop) : Prop := ∀ d, e ≠ .drop d

/-- A chain of parts whose stops are no drops stops with no drop. -/
theorem plain_bind {α β : Type} {x : Except Stop α} {f : α → Except Stop β} (hx : ∀ e, x = .error e → e.plain)
    (hf : ∀ a e, x = .ok a → f a = .error e → e.plain) : ∀ e, (x >>= f) = .error e → e.plain := by
  intro e h
  rcases bind_eq_error.1 h with h | ⟨a, ha, h⟩
  · exact hx e h
  · exact hf a e ha h

theorem plain_fault {e : Stop} (h : ∃ f, e = .fault f) : e.plain := by
  obtain ⟨f, rfl⟩ := h; intro d; simp

theorem failIf_plain {p : Prop} [Decidable p] {er : Err} {i : Word} :
    ∀ e, failIf p (.raise er i) = .error e → e.plain := by
  intro e h; rw [failIf_eq_error] at h; rw [← h.2]; intro d; simp

theorem checkBounds_plain {m : PacketBuffer} {l : Latch} : ∀ e, checkBounds m l = .error e → e.plain := failIf_plain

theorem readByte_plain {m : PacketBuffer} {i : Nat} : ∀ e, readByte m i = .error e → e.plain :=
  fun _ h => plain_fault (readByte_error h)

theorem readBytes_plain {m : PacketBuffer} {a n : Nat} : ∀ e, readBytes m a n = .error e → e.plain :=
  fun _ h => plain_fault (readBytes_error h)

theorem readOpt_plain {o : List (Nat × Word)} {i k : Nat} : ∀ e, readOpt o i k = .error e → e.plain := by
  intro e h; unfold readOpt at h; split at h
  · cases h
  · cases h; intro d; simp

theorem ok_plain {α : Type} {a : α} : ∀ e, (pure a : Except Stop α) = .error e → e.plain := by
  intro e h; cases h

theorem memRead16_plain {m : PacketBuffer} {a : Nat} : ∀ e, memRead16 m a = .error e → e.plain :=
  plain_bind readBytes_plain fun _ _ _ h => ok_plain _ h

theorem memRead32_plain {m : PacketBuffer} {a : Nat} : ∀ e, memRead32 m a = .error e → e.plain :=
  plain_bind readBytes_plain fun _ _ _ h => ok_plain _ h

theorem ipParse_plain {m : PacketBuffer} {a n : Nat} : ∀ e, ipParse m a n = .error e → e.plain :=
  plain_bind failIf_plain fun _ _ _ => plain_bind readBytes_plain (fun _ _ _ => plain_bind failIf_plain
    (fun _ _ _ => plain_bind failIf_plain (fun _ _ _ => plain_bind failIf_plain (fun _ _ _ h => ok_plain _ h) _) _) _) _

theorem tcpFront_plain {m : PacketBuffer} {a n : Nat} : ∀ e, tcpFront m a n = .error e → e.plain :=
  plain_bind failIf_plain fun _ _ _ => plain_bind readByte_plain (fun _ _ _ => plain_bind failIf_plain
    (fun _ _ _ => plain_bind readBytes_plain (fun _ _ _ h => ok_plain _ h) _) _) _

theorem optLength_plain {m : PacketBuffer} {a hl p k : Nat} : ∀ e, optLength m a hl p k = .error e → e.plain :=
  plain_bind failIf_plain fun _ _ _ => plain_bind readByte_plain (fun _ _ _ => plain_bind failIf_plain
    (fun _ _ _ h => ok_plain _ h) _) _

theorem readBlocks_plain {m : PacketBuffer} {a n : Nat} : ∀ e, readBlocks m a n = .error e → e.plain := by
  induction n generalizing a with
  | zero => intro e h; cases h
  | succ n ih =>
    exact plain_bind memRead32_plain fun _ _ _ => plain_bind memRead32_plain
      (fun _ _ _ => plain_bind ih (fun _ _ _ h => ok_plain _ h) _) _

theorem optStep_plain {m : PacketBuffer} {a hl p : Nat} : ∀ e, optStep m a hl p = .error e → e.plain := by
  refine plain_bind readByte_plain fun k e _ h => ?_
  split at h
  · cases h
  · cases h
  · exact plain_bind optLength_plain (fun _ _ _ => plain_bind memRead16_plain (fun _ _ _ h => ok_plain _ h) _) _ h
  · exact plain_bind optLength_plain (fun _ _ _ => plain_bind readByte_plain (fun _ _ _ h => ok_plain _ h) _) _ h
  · exact plain_bind optLength_plain (fun _ _ _ h => ok_plain _ h) _ h
  · exact plain_bind optLength_plain (fun _ _ _ => plain_bind readBlocks_plain (fun _ _ _ h => ok_plain _ h) _) _ h
  · exact plain_bind optLength_plain (fun _ _ _ => plain_bind memRead32_plain
      (fun _ _ _ => plain_bind memRead32_plain (fun _ _ _ h => ok_plain _ h) _) _) _ h
  · exact plain_bind optLength_plain (fun _ _ _ => plain_bind memRead16_plain (fun _ _ _ h => ok_plain _ h) _) _ h
  all_goals cases h; intro d; simp

theorem optWalk_plain {m : PacketBuffer} {a hl fuel p : Nat} : ∀ e, optWalk m a hl fuel p = .error e → e.plain := by
  induction fuel generalizing p with
  | zero => intro e h; cases h
  | succ fuel ih =>
    intro e h
    simp only [optWalk] at h
    split at h
    · exact plain_bind optStep_plain (fun _ _ _ => plain_bind ih (fun _ _ _ h => ok_plain _ h) _) _ h
    · cases h

theorem tcpParse_plain {m : PacketBuffer} {a n : Nat} : ∀ e, tcpParse m a n = .error e → e.plain :=
  plain_bind tcpFront_plain fun _ _ _ => plain_bind optWalk_plain (fun _ _ _ h => ok_plain _ h) _

theorem ipImage_plain {z : Bool} {h : IpHeader} : ∀ e, ipImage z h = .error e → e.plain :=
  plain_bind failIf_plain fun _ _ _ h => ok_plain _ h

theorem checkKind_plain {k : Byte} {i : Nat} : ∀ e, checkKind k i = .error e → e.plain :=
  plain_bind failIf_plain fun _ _ _ h => failIf_plain _ h

theorem readHeads_plain {o : List (Nat × Word)} {i n : Nat} : ∀ e, readHeads o i n = .error e → e.plain := by
  induction n generalizing i with
  | zero => intro e h; cases h
  | succ n ih =>
    exact plain_bind readOpt_plain fun _ _ _ => plain_bind checkKind_plain
      (fun _ _ _ => plain_bind ih (fun _ _ _ h => ok_plain _ h) _) _

theorem readSack_plain {o : List (Nat × Word)} {i j n : Nat} : ∀ e, readSack o i j n = .error e → e.plain := by
  induction n generalizing j with
  | zero => intro e h; cases h
  | succ n ih =>
    exact plain_bind readOpt_plain fun _ _ _ => plain_bind readOpt_plain
      (fun _ _ _ => plain_bind ih (fun _ _ _ h => ok_plain _ h) _) _

theorem readEntry_plain {o : List (Nat × Word)} {i : Nat} {w0 : Word} :
    ∀ e, readEntry o i w0 = .error e → e.plain := by
  intro e h
  unfold readEntry at h
  split at h
  · cases h
  · cases h
  · exact plain_bind readOpt_plain (fun _ _ _ h => ok_plain _ h) _ h
  · exact plain_bind readOpt_plain (fun _ _ _ h => ok_plain _ h) _ h
  · cases h
  · exact plain_bind readSack_plain (fun _ _ _ h => ok_plain _ h) _ h
  · exact plain_bind readOpt_plain (fun _ _ _ => plain_bind readOpt_plain (fun _ _ _ h => ok_plain _ h) _) _ h
  · exact plain_bind readOpt_plain (fun _ _ _ h => ok_plain _ h) _ h
  · cases h; intro d; simp

theorem readEntries_plain {o : List (Nat × Word)} {i : Nat} {l : List Word} :
    ∀ e, readEntries o i l = .error e → e.plain := by
  induction l generalizing i with
  | nil => intro e h; cases h
  | cons w0 r ih =>
    exact plain_bind readEntry_plain fun _ _ _ => plain_bind ih (fun _ _ _ h => ok_plain _ h) _

theorem tcpImage_plain {z : Bool} {h : TcpHeader} {n : BitVec 6} {o : List (Nat × Word)} :
    ∀ e, tcpImage z h n o = .error e → e.plain :=
  plain_bind failIf_plain fun _ _ _ => plain_bind failIf_plain (fun _ _ _ => plain_bind readHeads_plain
    (fun _ _ _ => plain_bind failIf_plain (fun _ _ _ => plain_bind readEntries_plain
      (fun _ _ _ h => ok_plain _ h) _) _) _) _

theorem checkIpEncode_plain {h : IpHeader} {n : Word} : ∀ e, checkIpEncode h n = .error e → e.plain :=
  plain_bind failIf_plain fun _ _ _ h => failIf_plain _ h

/-- The four drops of DISPATCH (43_dispatcher.md R262). -/
theorem dispatchFront_drop {m : PacketBuffer} {l : Latch} {lp : Half} {d : Disp}
    (h : dispatchFront m l lp = .error (.drop d)) :
    d = .dropShort ∨ d = .dropVersion ∨ d = .dropProto ∨ d = .dropPort := by
  simp only [dispatchFront, bind_eq_error, failIf_eq_error, Stop.drop.injEq, reduceCtorEq, and_false,
    exists_false, or_false, pure_eq_ok, checkBounds_eq_error] at h
  simp only [false_or] at h
  obtain ⟨_, -, h⟩ := h
  rcases h with h | ⟨_, -, h⟩
  · exact .inl h.2.symm
  rcases h with h | ⟨_, -, h⟩
  · exact absurd rfl (readByte_plain _ h d)
  rcases h with h | ⟨_, -, h⟩
  · exact .inr (.inl h.2.symm)
  rcases h with h | ⟨_, -, h⟩
  · exact absurd rfl (readByte_plain _ h d)
  rcases h with h | ⟨_, -, h⟩
  · exact .inr (.inr (.inl h.2.symm))
  obtain ⟨_, -, h⟩ := h
  rcases h with h | ⟨_, -, h⟩
  · exact absurd rfl (memRead16_plain _ h d)
  rcases h with h | ⟨_, -, h⟩
  · exact .inr (.inr (.inr h.2.symm))
  · exact absurd rfl (ipParse_plain _ h d)

/-! ### What each pseudocode answers -/

theorem bodyIpDecode_ok (h : bodyIpDecode s = .ok (w, c)) :
    c = false ∧ inRange s ∧ ∃ ip hl, ipParse s.pbuf s.latch.start.toNat s.latch.len.toNat = .ok (ip, hl) ∧
      w = setResultLen (setIph s ip) (BitVec.ofNat 32 hl) := by
  simp only [bodyIpDecode, bind_eq_ok, checkBounds_eq_ok, pure_eq_ok, Except.ok.injEq, Prod.mk.injEq] at h
  obtain ⟨-, hr, ⟨ip, hl⟩, hp, rfl, rfl⟩ := h
  exact ⟨rfl, hr, ip, hl, hp, rfl⟩

theorem ipImage_eq_ok {z : Bool} {h : IpHeader} {b : List Byte} :
    ipImage z h = .ok b ↔ h.frag ≠ 3 ∧ b = ipBytes z h := by
  simp only [ipImage, bind_eq_ok, failIf_eq_ok, pure_eq_ok, Except.ok.injEq]
  constructor
  · rintro ⟨-, hf, rfl⟩; exact ⟨hf, rfl⟩
  · rintro ⟨hf, rfl⟩; exact ⟨(), hf, rfl⟩

theorem checkIpEncode_eq_ok {h : IpHeader} {n : Word} {u : Unit} :
    checkIpEncode h n = .ok u ↔ h.ihl = 5 ∧ 20 ≤ h.totlen.toNat ∧ h.totlen.toNat ≤ n.toNat := by
  simp only [checkIpEncode, bind_eq_ok, failIf_eq_ok, not_or, ne_eq, Decidable.not_not, not_lt]
  constructor
  · rintro ⟨-, ⟨h1, h2⟩, h3⟩; exact ⟨h1, h2, h3⟩
  · rintro ⟨h1, h2, h3⟩; exact ⟨(), ⟨h1, h2⟩, h3⟩

theorem bodyIpEncode_ok (h : bodyIpEncode s = .ok (w, c)) :
    c = false ∧ inRange s ∧ 20 ≤ s.latch.len.toNat ∧ s.iph.frag ≠ 3 ∧
      w = setResultLen (setPbuf s (pbufPutList s.pbuf s.latch.start.toNat (ipBytes false s.iph))) 20 := by
  simp only [bodyIpEncode, bind_eq_ok, checkBounds_eq_ok, checkIpEncode_eq_ok, ipImage_eq_ok, pure_eq_ok,
    Except.ok.injEq, Prod.mk.injEq] at h
  obtain ⟨-, hr, -, ⟨-, h1, h2⟩, b, ⟨hf, rfl⟩, rfl, rfl⟩ := h
  exact ⟨rfl, hr, by omega, hf, rfl⟩

theorem bodyTcpDecode_ok (h : bodyTcpDecode s = .ok (w, c)) :
    c = false ∧ inRange s ∧ ∃ tcp opts hl,
      tcpParse s.pbuf s.latch.start.toNat s.latch.len.toNat = .ok (tcp, opts, hl) ∧
      w = setResultLen (storeTcp s tcp opts) (BitVec.ofNat 32 hl) := by
  simp only [bodyTcpDecode, bind_eq_ok, checkBounds_eq_ok, pure_eq_ok, Except.ok.injEq, Prod.mk.injEq] at h
  obtain ⟨-, hr, ⟨tcp, opts, hl⟩, hp, rfl, rfl⟩ := h
  exact ⟨rfl, hr, tcp, opts, hl, hp, rfl⟩

theorem bodyTcpEncode_ok (h : bodyTcpEncode s = .ok (w, c)) :
    c = false ∧ inRange s ∧ 4 * s.tcph.doff.toNat ≤ s.latch.len.toNat ∧
      ∃ img, tcpImage false s.tcph s.optcnt s.opt = .ok img ∧
        w = setResultLen (setPbuf s (pbufPutList s.pbuf s.latch.start.toNat img))
          (BitVec.ofNat 32 (4 * s.tcph.doff.toNat)) := by
  simp only [bodyTcpEncode, bind_eq_ok, checkBounds_eq_ok, failIf_eq_ok, not_lt, pure_eq_ok, Except.ok.injEq,
    Prod.mk.injEq] at h
  obtain ⟨-, hr, -, -, -, hl, img, hi, rfl, rfl⟩ := h
  exact ⟨rfl, hr, hl, img, hi, rfl⟩

theorem bodyIpCsum_ok (h : bodyIpCsum s = .ok (w, c)) :
    s.iph.frag ≠ 3 ∧ c = (csum (ipBytes true s.iph) == s.iph.csum) ∧
      w = setResultLen (setCsumResult s (csum (ipBytes true s.iph))) 20 := by
  simp only [bodyIpCsum, bind_eq_ok, ipImage_eq_ok, pure_eq_ok, Except.ok.injEq, Prod.mk.injEq] at h
  obtain ⟨b, ⟨hf, rfl⟩, rfl, rfl⟩ := h
  exact ⟨hf, rfl, rfl⟩

theorem bodyTcpCsum_ok (h : bodyTcpCsum s = .ok (w, c)) :
    inRange s ∧ ∃ img pay x, tcpImage true s.tcph s.optcnt s.opt = .ok img ∧
      readBytes s.pbuf s.latch.start.toNat s.latch.len.toNat = .ok pay ∧
      x = csum (pseudoHeader s.iph.src s.iph.dst (img.length + s.latch.len.toNat) ++ img ++ pay) ∧
      c = (x == s.tcph.csum) ∧
      w = setResultLen (setCsumResult s x) (BitVec.ofNat 32 (12 + (img.length + s.latch.len.toNat))) := by
  simp only [bodyTcpCsum, bind_eq_ok, checkBounds_eq_ok, failIf_eq_ok, pure_eq_ok, Except.ok.injEq,
    Prod.mk.injEq] at h
  obtain ⟨-, hr, img, hi, -, -, pay, hp, rfl, rfl⟩ := h
  exact ⟨hr, img, pay, _, hi, hp, rfl, rfl, rfl⟩

theorem dispatchFront_ok {m : PacketBuffer} {l : Latch} {lp : Half} {ip : IpHeader} {iphl : Nat}
    (h : dispatchFront m l lp = .ok (ip, iphl)) :
    l.start.toNat + l.len.toNat ≤ m.size ∧ 40 ≤ l.len.toNat ∧
      ipParse m l.start.toNat l.len.toNat = .ok (ip, iphl) ∧
      memRead16 m (l.start.toNat + iphl + 2) = .ok lp ∧
      ip.totlen.toNat ≤ l.len.toNat ∧ iphl + 20 ≤ ip.totlen.toNat := by
  simp only [dispatchFront, bind_eq_ok, checkBounds_eq_ok, failIf_eq_ok, pure_eq_ok, Except.ok.injEq, not_or, not_lt,
    ne_eq, Decidable.not_not] at h
  obtain ⟨-, hr, -, hn, b0, hb0, -, hv, b9, hb9, -, h9, -, ⟨h5, h4⟩, port, hport, -, hp, ⟨ip', hl'⟩, hip, -, ⟨ht1, ht2⟩, he⟩ := h
  simp only [Prod.mk.injEq] at he
  obtain ⟨rfl, rfl⟩ := he
  subst hp
  have hb := ipParse_ok hip
  have hihl : ip'.ihl = b0.extractLsb' 0 4 := by
    simp only [ipParse, bind_eq_ok, failIf_eq_ok, pure_eq_ok, Except.ok.injEq, Prod.mk.injEq] at hip
    obtain ⟨-, -, b, hbs, -, -, -, -, -, -, rfl, -⟩ := hip
    have hrb := readBytes_eq_ok hbs
    have h0 := hrb.2 0 (by omega)
    have := (readByte_eq_ok.1 hb0).2
    rw [Nat.add_zero, this, Option.some.injEq] at h0
    simp only [ipFields, byteAt, List.getD_eq_getElem?_getD, List.getElem?_eq_getElem (show 0 < b.length by omega),
      Option.getD_some, ← h0]
  refine ⟨hr, hn, hip, ?_, ht1, ht2⟩
  rw [hb.1, hihl]; exact hport

theorem bodyDispatch_ok (h : bodyDispatch s = .ok (w, c)) :
    c = false ∧ ∃ ip iphl tcp opts tcphl, dispatchFront s.pbuf s.latch s.localPort = .ok (ip, iphl) ∧
      tcpParse s.pbuf (s.latch.start.toNat + iphl) (ip.totlen.toNat - iphl) = .ok (tcp, opts, tcphl) ∧
      w = setResultLen (setFlow (storeTcp (setIph s ip) tcp opts) (flowKey s ip tcp)
        (BitVec.ofNat 32 (s.latch.start.toNat + iphl + tcphl))
        (BitVec.ofNat 32 (ip.totlen.toNat - iphl - tcphl))) (BitVec.ofNat 32 (iphl + tcphl)) := by
  simp only [bodyDispatch, bind_eq_ok, pure_eq_ok, Except.ok.injEq, Prod.mk.injEq] at h
  obtain ⟨⟨ip, iphl⟩, hf, ⟨tcp, opts, tcphl⟩, hp, rfl, rfl⟩ := h
  exact ⟨rfl, ip, iphl, tcp, opts, tcphl, hf, hp, rfl⟩

theorem bodyFrameEncode_ok (h : bodyFrameEncode s = .ok (w, c)) :
    c = false ∧ inRange s ∧ s.iph.ihl = 5 ∧ s.iph.totlen.toNat = frameLength s ∧
      s.iph.totlen.toNat ≤ s.latch.len.toNat ∧ s.iph.frag ≠ 3 ∧
      ∃ img, tcpImage false s.tcph s.optcnt s.opt = .ok img ∧
        w = setResultLen (setPbuf s (pbufPutList s.pbuf s.latch.start.toNat (ipBytes false s.iph ++ img)))
          (s.iph.totlen.setWidth 32) := by
  simp only [bodyFrameEncode, bind_eq_ok, checkBounds_eq_ok, checkIpEncode_eq_ok, ipImage_eq_ok, failIf_eq_ok,
    pure_eq_ok, Except.ok.injEq, Prod.mk.injEq, ne_eq, Decidable.not_not] at h
  obtain ⟨-, hr, -, ht, -, ⟨h5, -, hn⟩, b, ⟨hf, rfl⟩, img, hi, rfl, rfl⟩ := h
  exact ⟨rfl, hr, h5, ht, hn, hf, img, hi, rfl⟩

/-! ### Drops -/

theorem bodyIpDecode_plain : ∀ e, bodyIpDecode s = .error e → e.plain :=
  plain_bind checkBounds_plain fun _ _ _ => plain_bind ipParse_plain (fun _ _ _ h => ok_plain _ h) _

theorem bodyIpEncode_plain : ∀ e, bodyIpEncode s = .error e → e.plain :=
  plain_bind checkBounds_plain fun _ _ _ => plain_bind checkIpEncode_plain
    (fun _ _ _ => plain_bind ipImage_plain (fun _ _ _ h => ok_plain _ h) _) _

theorem bodyTcpDecode_plain : ∀ e, bodyTcpDecode s = .error e → e.plain :=
  plain_bind checkBounds_plain fun _ _ _ => plain_bind tcpParse_plain (fun _ _ _ h => ok_plain _ h) _

theorem bodyTcpEncode_plain : ∀ e, bodyTcpEncode s = .error e → e.plain :=
  plain_bind checkBounds_plain fun _ _ _ => plain_bind failIf_plain (fun _ _ _ => plain_bind failIf_plain
    (fun _ _ _ => plain_bind tcpImage_plain (fun _ _ _ h => ok_plain _ h) _) _) _

theorem bodyIpCsum_plain : ∀ e, bodyIpCsum s = .error e → e.plain :=
  plain_bind ipImage_plain fun _ _ _ h => ok_plain _ h

theorem bodyTcpCsum_plain : ∀ e, bodyTcpCsum s = .error e → e.plain :=
  plain_bind checkBounds_plain fun _ _ _ => plain_bind tcpImage_plain (fun _ _ _ => plain_bind failIf_plain
    (fun _ _ _ => plain_bind readBytes_plain (fun _ _ _ h => ok_plain _ h) _) _) _

theorem bodyFrameEncode_plain : ∀ e, bodyFrameEncode s = .error e → e.plain :=
  plain_bind checkBounds_plain fun _ _ _ => plain_bind failIf_plain (fun _ _ _ => plain_bind checkIpEncode_plain
    (fun _ _ _ => plain_bind ipImage_plain (fun _ _ _ => plain_bind tcpImage_plain
      (fun _ _ _ h => ok_plain _ h) _) _) _) _

theorem bodyDispatch_drop {d : Disp} (h : bodyDispatch s = .error (.drop d)) :
    d = .dropShort ∨ d = .dropVersion ∨ d = .dropProto ∨ d = .dropPort := by
  simp only [bodyDispatch, bind_eq_error, pure_eq_ok, reduceCtorEq, and_false, exists_false, or_false] at h
  rcases h with h | ⟨_, -, h⟩
  · exact dispatchFront_drop h
  · exact absurd rfl (tcpParse_plain _ h d)

/-! ### All a command's completion can do -/

/-- What no working copy touches (30_encoding.md R122): CMD, STATUS, CTRL, the ARG and LOCAL registers, the latches,
`PBUF_SIZE`, and the model's own fields. -/
abbrev sameControl (s w : State) : Prop :=
  w.cmd = s.cmd ∧ w.status = s.status ∧ w.ie = s.ie ∧ w.argStart = s.argStart ∧ w.argLen = s.argLen ∧
    w.argAux = s.argAux ∧ w.localAddr = s.localAddr ∧ w.localPort = s.localPort ∧ w.latch = s.latch ∧
    w.walk = s.walk ∧ w.draws = s.draws ∧ w.host = s.host ∧ w.sched = s.sched ∧ w.pbuf.size = s.pbuf.size

theorem sameControl_refl (s : State) : sameControl s s :=
  ⟨rfl, rfl, rfl, rfl, rfl, rfl, rfl, rfl, rfl, rfl, rfl, rfl, rfl, rfl⟩

theorem bodyIpDecode_control (h : bodyIpDecode s = .ok (w, c)) : sameControl s w ∧ c = false := by
  obtain ⟨rfl, -, ip, hl, -, rfl⟩ := bodyIpDecode_ok h
  exact ⟨by simp [sameControl], rfl⟩

theorem bodyIpEncode_control (h : bodyIpEncode s = .ok (w, c)) : sameControl s w ∧ c = false := by
  obtain ⟨rfl, -, -, -, rfl⟩ := bodyIpEncode_ok h
  exact ⟨by simp [sameControl], rfl⟩

theorem bodyTcpDecode_control (h : bodyTcpDecode s = .ok (w, c)) : sameControl s w ∧ c = false := by
  obtain ⟨rfl, -, tcp, opts, hl, -, rfl⟩ := bodyTcpDecode_ok h
  exact ⟨by simp [sameControl, storeTcp], rfl⟩

theorem bodyTcpEncode_control (h : bodyTcpEncode s = .ok (w, c)) : sameControl s w ∧ c = false := by
  obtain ⟨rfl, -, -, img, -, rfl⟩ := bodyTcpEncode_ok h
  exact ⟨by simp [sameControl], rfl⟩

theorem bodyIpCsum_control (h : bodyIpCsum s = .ok (w, c)) : sameControl s w := by
  obtain ⟨-, -, rfl⟩ := bodyIpCsum_ok h
  simp [sameControl]

theorem bodyTcpCsum_control (h : bodyTcpCsum s = .ok (w, c)) : sameControl s w := by
  obtain ⟨-, img, pay, x, -, -, -, -, rfl⟩ := bodyTcpCsum_ok h
  simp [sameControl]

theorem bodyDispatch_control (h : bodyDispatch s = .ok (w, c)) : sameControl s w ∧ c = false := by
  obtain ⟨rfl, ip, iphl, tcp, opts, tcphl, -, -, rfl⟩ := bodyDispatch_ok h
  exact ⟨by simp [sameControl, storeTcp], rfl⟩

theorem bodyFrameEncode_control (h : bodyFrameEncode s = .ok (w, c)) : sameControl s w ∧ c = false := by
  obtain ⟨rfl, -, -, -, -, -, img, -, rfl⟩ := bodyFrameEncode_ok h
  exact ⟨by simp [sameControl], rfl⟩

/-- How a command ended, `d` saying whether it is DISPATCH and `k` whether it is a checksum command: a success of a
working copy of its own, an error, or, in DISPATCH, one of the four drops (60_exceptions.md R303, R304; 43_dispatcher.md
R262, R263). -/
def completed (s t : State) (d k : Bool) : Prop :=
  (∃ w c, t = commitOk w c d ∧ sameControl s w ∧ (c = true → k = true)) ∨
  (∃ e info, t = commitErr s e info d) ∨
  (d = true ∧ ∃ x, (x = .dropShort ∨ x = .dropVersion ∨ x = .dropProto ∨ x = .dropPort) ∧ t = commitDrop s x)

theorem completed_of_finish {d k : Bool} {r : Except Stop (State × Bool)} (h : finish s d r = .next t)
    (hok : ∀ w c, r = .ok (w, c) → sameControl s w ∧ (c = true → k = true))
    (hdrop : ∀ x, r = .error (.drop x) →
      d = true ∧ (x = .dropShort ∨ x = .dropVersion ∨ x = .dropProto ∨ x = .dropPort)) : completed s t d k := by
  rcases finish_cases h with ⟨w, c, hb, rfl⟩ | ⟨e, i, -, rfl⟩ | ⟨x, hb, rfl⟩
  · exact .inl ⟨w, c, rfl, hok w c hb⟩
  · exact .inr (.inl ⟨e, i, rfl⟩)
  · exact .inr (.inr ⟨(hdrop x hb).1, x, (hdrop x hb).2, rfl⟩)

theorem no_drop {α : Type} {r : Except Stop α} (h : ∀ e, r = .error e → e.plain) {P : Disp → Prop} :
    ∀ x, r = .error (.drop x) → P x :=
  fun x hx => absurd rfl (h _ hx x)

/-- All a command's completion can do. -/
theorem exec_command_cases {i : Instr} (hi : isCommand i = true) (h : exec i s = .next t) :
    completed s t (decide (i = .dispatch)) (decide (i = .ipCsum ∨ i = .tcpCsum)) := by
  cases i with
  | ipDecode =>
    exact completed_of_finish (r := bodyIpDecode s) h
      (fun _ _ hb => ⟨(bodyIpDecode_control hb).1, by simp [(bodyIpDecode_control hb).2]⟩) (no_drop bodyIpDecode_plain)
  | ipEncode =>
    exact completed_of_finish (r := bodyIpEncode s) h
      (fun _ _ hb => ⟨(bodyIpEncode_control hb).1, by simp [(bodyIpEncode_control hb).2]⟩) (no_drop bodyIpEncode_plain)
  | tcpDecode =>
    exact completed_of_finish (r := bodyTcpDecode s) h
      (fun _ _ hb => ⟨(bodyTcpDecode_control hb).1, by simp [(bodyTcpDecode_control hb).2]⟩)
      (no_drop bodyTcpDecode_plain)
  | tcpEncode =>
    exact completed_of_finish (r := bodyTcpEncode s) h
      (fun _ _ hb => ⟨(bodyTcpEncode_control hb).1, by simp [(bodyTcpEncode_control hb).2]⟩)
      (no_drop bodyTcpEncode_plain)
  | ipCsum =>
    exact completed_of_finish (r := bodyIpCsum s) h (fun _ _ hb => ⟨bodyIpCsum_control hb, by simp⟩)
      (no_drop bodyIpCsum_plain)
  | tcpCsum =>
    exact completed_of_finish (r := bodyTcpCsum s) h (fun _ _ hb => ⟨bodyTcpCsum_control hb, by simp⟩)
      (no_drop bodyTcpCsum_plain)
  | dispatch =>
    exact completed_of_finish (r := bodyDispatch s) h
      (fun _ _ hb => ⟨(bodyDispatch_control hb).1, by simp [(bodyDispatch_control hb).2]⟩)
      (fun x hx => ⟨rfl, bodyDispatch_drop hx⟩)
  | frameEncode =>
    exact completed_of_finish (r := bodyFrameEncode s) h
      (fun _ _ hb => ⟨(bodyFrameEncode_control hb).1, by simp [(bodyFrameEncode_control hb).2]⟩)
      (no_drop bodyFrameEncode_plain)
  | illegal0 | illegal9 | illegalA | illegalB | illegalC | illegalD | illegalE | illegalF =>
    exact completed_of_finish (r := .error (.raise .illegalCmd _)) h (fun _ _ hb => by cases hb) (fun _ hb => by cases hb)
  | _ => simp [isCommand] at hi

/-- What an option at offset `p` may stop with: a fault of the model, or TCP_OPT_LEN or TCP_OPT_UNSUPPORTED with that
offset (41_tcp_codec.md R181 to R191). -/
abbrev optStop (p : Nat) (e : Stop) : Prop :=
  (∃ f, e = .fault f) ∨ e = .raise .tcpOptLen (BitVec.ofNat 32 p) ∨ e = .raise .tcpOptUnsupported (BitVec.ofNat 32 p)

/-- The chain rule of such stops. -/
theorem optStop_bind {α β : Type} {p : Nat} {x : Except Stop α} {f : α → Except Stop β}
    (hx : ∀ e, x = .error e → optStop p e) (hf : ∀ a e, f a = .error e → optStop p e) :
    ∀ e, (x >>= f) = .error e → optStop p e := by
  intro e h
  rcases bind_eq_error.1 h with h | ⟨a, -, h⟩
  · exact hx e h
  · exact hf a e h

theorem optLength_stop {m : PacketBuffer} {a hl p k : Nat} : ∀ e, optLength m a hl p k = .error e → optStop p e := by
  refine optStop_bind (fun e h => ?_) fun _ => optStop_bind (fun e h => .inl (readByte_error h)) fun _ =>
    optStop_bind (fun e h => ?_) fun _ e h => by cases h
  all_goals rw [failIf_eq_error] at h; exact .inr (.inl h.2.symm)

theorem memRead16_stop {m : PacketBuffer} {a p : Nat} : ∀ e, memRead16 m a = .error e → optStop p e :=
  optStop_bind (fun _ h => .inl (readBytes_error h)) fun _ e h => by cases h

theorem memRead32_stop {m : PacketBuffer} {a p : Nat} : ∀ e, memRead32 m a = .error e → optStop p e :=
  optStop_bind (fun _ h => .inl (readBytes_error h)) fun _ e h => by cases h

theorem readBlocks_stop {m : PacketBuffer} {a n p : Nat} : ∀ e, readBlocks m a n = .error e → optStop p e := by
  induction n generalizing a with
  | zero => intro e h; cases h
  | succ n ih =>
    exact optStop_bind memRead32_stop fun _ => optStop_bind memRead32_stop fun _ =>
      optStop_bind ih fun _ e h => by cases h

/-- All a round of the walk can do: the walk moves past one option, or the running command ends with one of the two
errors and the option's offset. -/
theorem finishOption_cases {r : Except Stop (TcpOption × Nat)} (hp : ∀ e, r = .error e → optStop s.walk.p e)
    (h : finishOption s r = .next t) :
    (∃ o size, r = .ok (o, size) ∧
      t = setWalk s { s.walk with p := s.walk.p + size, opts := s.walk.opts ++ [o] }) ∨
    (∃ e, (e = .tcpOptLen ∨ e = .tcpOptUnsupported) ∧ r = .error (.raise e (BitVec.ofNat 32 s.walk.p)) ∧
      t = commitErr s e (BitVec.ofNat 32 s.walk.p) (s.latch.op == 7)) := by
  match r with
  | .ok (o, size) => exact .inl ⟨o, size, rfl, by simpa [finishOption] using h.symm⟩
  | .error e =>
    rcases hp e rfl with ⟨f, rfl⟩ | rfl | rfl
    · simp [finishOption] at h
    · exact .inr ⟨_, .inl rfl, rfl, by simpa [finishOption] using h.symm⟩
    · exact .inr ⟨_, .inr rfl, rfl, by simpa [finishOption] using h.symm⟩

/-- Every option kind that answers a next state moves the walk past one option, or ends the running command with an error
at that option's offset (41_tcp_codec.md R181, 60_exceptions.md R304). -/
theorem exec_option_cases {i : Instr} (hi : isCommand i = false) (h : exec i s = .next t) :
    (∃ o size, t = setWalk s { s.walk with p := s.walk.p + size, opts := s.walk.opts ++ [o] }) ∨
    (∃ e, (e = .tcpOptLen ∨ e = .tcpOptUnsupported) ∧
      t = commitErr s e (BitVec.ofNat 32 s.walk.p) (s.latch.op == 7)) := by
  have key : ∀ r : Except Stop (TcpOption × Nat), (∀ e, r = .error e → optStop s.walk.p e) →
      finishOption s r = .next t →
      (∃ o size, t = setWalk s { s.walk with p := s.walk.p + size, opts := s.walk.opts ++ [o] }) ∨
      (∃ e, (e = .tcpOptLen ∨ e = .tcpOptUnsupported) ∧
        t = commitErr s e (BitVec.ofNat 32 s.walk.p) (s.latch.op == 7)) := fun r hp h => by
    rcases finishOption_cases hp h with ⟨o, size, -, rfl⟩ | ⟨e, he, -, rfl⟩
    · exact .inl ⟨o, size, rfl⟩
    · exact .inr ⟨e, he, rfl⟩
  have none : ∀ {α : Type} {a : α} {p : Nat} (e : Stop), (Except.ok a : Except Stop α) = .error e → optStop p e :=
    fun e h => by cases h
  have unsup : ∀ e, decodeUnsupported s.pbuf s.walk.base s.walk.hl s.walk.p = .error e → optStop s.walk.p e :=
    fun e h => by cases h; exact .inr (.inr rfl)
  cases i with
  | optEol => exact key (decodeEol s.pbuf s.walk.base s.walk.hl s.walk.p) none h
  | optNop => exact key (decodeNop s.pbuf s.walk.base s.walk.hl s.walk.p) none h
  | optMss => exact key _ (optStop_bind optLength_stop fun _ => optStop_bind memRead16_stop fun _ => none) h
  | optWs =>
    exact key _ (optStop_bind optLength_stop fun _ => optStop_bind (fun _ h => .inl (readByte_error h)) fun _ => none) h
  | optSackp => exact key _ (optStop_bind optLength_stop fun _ => none) h
  | optSack => exact key _ (optStop_bind optLength_stop fun _ => optStop_bind readBlocks_stop fun _ => none) h
  | optTs =>
    exact key _ (optStop_bind optLength_stop fun _ => optStop_bind memRead32_stop fun _ =>
      optStop_bind memRead32_stop fun _ => none) h
  | optUto => exact key _ (optStop_bind optLength_stop fun _ => optStop_bind memRead16_stop fun _ => none) h
  | optAuth | optMptcp => exact key _ unsup h
  | _ => simp [isCommand] at hi

/-! ### The commits in the statements' words -/

/-- The error commit (60_exceptions.md R304). -/
theorem commitErr_eq (s : State) (e : Err) (info : Word) (d : Bool) :
    commitErr s e info d = errorCompletion s e info (dispCode (errDisp d e)) := rfl

theorem commitDrop_eq (s : State) (d : Disp) : commitDrop s d = dropCompletion s (dispCode d) := rfl

/-- The success commit on a working copy whose RESULT_LEN is written last (60_exceptions.md R303). -/
theorem commitOk_eq (s : State) (v : Word) (c d : Bool) :
    commitOk (setResultLen s v) c d = successCompletion s c (dispCode (if d then .accept else .none)) v := rfl

/-- The success commit of an encoder (60_exceptions.md R303): the bytes stand where they were written, every other byte
and the size of PBUF are kept, and nothing else changes. -/
theorem commitOk_encode (s : State) (a : Nat) (bs : List Byte) (n : Word) :
    ∃ t, commitOk (setResultLen (setPbuf s (pbufPutList s.pbuf a bs)) n) false false = t ∧ bytesAt t.pbuf a bs ∧
      (∀ b, b < a ∨ a + bs.length ≤ b → readByte t.pbuf b = readByte s.pbuf b) ∧
      t = successCompletion { s with pbuf := { s.pbuf with bytes := t.pbuf.bytes } } false 0 n :=
  ⟨_, rfl, bytesAt_putList _ _ _, fun _ h => readByte_putList_out h, rfl⟩

theorem setPbuf_eq (s : State) (m : PacketBuffer) : setPbuf s m = { s with pbuf := m } := rfl

/-- The disposition of an error commit: 6 in a DISPATCH but for BOUNDS (60_exceptions.md R304). -/
theorem errDisp_eq (d : Bool) (e : Err) (P : Prop) [Decidable P] (h : d = true ↔ P) :
    dispCode (errDisp d e) = if P ∧ e ≠ .bounds then 6 else 0 := by
  by_cases hP : P
  · have hd : d = true := h.2 hP
    subst hd
    by_cases he : e = .bounds
    · subst he; simp [errDisp, dispCode]
    · simp [errDisp, he, hP, dispCode]
  · have hd : d = false := by simpa using fun h' => hP (h.1 h')
    subst hd; simp [errDisp, hP, dispCode]

end Sys2Proof.Machine
end

