-- ==== Sys2Proof/Laws/Checksum.lean ====
section
/-!
SUPPORT. The checksum primitive: the bound on the rounds of the carry-fold is never felt, and the word sum is the sum
the statements speak of (42_checksum.md R230 to R232).
-/
namespace Sys2Proof.Machine

/-- A number that fits 16 bits is left alone. -/
theorem foldLoop_small {f x : Nat} (h : x ≤ 0xFFFF) : foldLoop f x = x := by
  cases f with
  | zero => rfl
  | succ f => rw [foldLoop, if_neg (by omega)]

/-- Every round makes a number above 0xFFFF smaller. -/
theorem carry_lt {x : Nat} (h : 0xFFFF < x) : x % 0x10000 + x / 0x10000 < x := by omega

/-- As many rounds as the number itself are enough. -/
theorem foldLoop_fuel {f g x : Nat} (hf : x ≤ f) (hg : x ≤ g) : foldLoop f x = foldLoop g x := by
  induction x using Nat.strongRecOn generalizing f g with
  | _ x ih =>
    by_cases h : x ≤ 0xFFFF
    · rw [foldLoop_small h, foldLoop_small h]
    · obtain ⟨f, rfl⟩ : ∃ k, f = k + 1 := ⟨f - 1, by omega⟩
      obtain ⟨g, rfl⟩ : ∃ k, g = k + 1 := ⟨g - 1, by omega⟩
      rw [foldLoop, foldLoop, if_pos (by omega), if_pos (by omega)]
      have := carry_lt (x := x) (by omega)
      exact ih _ this (by omega) (by omega)

/-- The value of a word put together from two bytes (00_scope.md R8). -/
theorem toNat_join (b c : Byte) : (b ++ c : BitVec 16).toNat = 256 * b.toNat + c.toNat := by
  rw [BitVec.toNat_append, Nat.shiftLeft_eq, ← Nat.mul_comm 256]
  exact (Nat.two_pow_add_eq_or_of_lt (i := 8) c.isLt b.toNat).symm

/-- The word sum (42_checksum.md R230, R232). -/
theorem wordSum_eq (bs : List Byte) : wordSum bs = wireSum bs := by
  match bs with
  | [] => rfl
  | [b] =>
    have := toNat_join b 0
    simp only [wordSum, words16, wireSum, List.map_cons, List.map_nil, List.sum_cons, List.sum_nil, this]
    rfl
  | b :: c :: r =>
    have := wordSum_eq r
    simp only [wordSum] at this
    simp only [wordSum, words16, wireSum, List.map_cons, List.sum_cons, this, toNat_join]

end Sys2Proof.Machine
end

