-- ==== Sys2Proof/Laws/Registers.lean ====
section
/-!
SUPPORT. The register map: which offsets are reserved, which hold option words, and what a write to a named register
leaves alone (10_state.md section 2, 70_reset_and_hazards.md R354).
-/
namespace Sys2Proof.Machine

/-- Words w0 to w10 of the option entries (10_state.md R44). -/
theorem regAt_optWord {off : Nat} (h : off ≤ 0x87C) (ho : isOptWord off) :
    regAt off = .opt ((off - 0x100) / 0x30) ((off - 0x100) / 4 % 12) := by
  have hlt : off < 0x100 + 0x30 * Config.optMax := by have : Config.optMax = 40 := rfl; omega
  unfold regAt
  rw [if_pos ho.1, if_pos hlt, if_neg ho.2]

/-- The offset of an option word, found again (10_state.md R44). -/
theorem regAt_opt {i w : Nat} (hi : i < 40) (hw : w < 11) : regAt (0x100 + 0x30 * i + 4 * w) = .opt i w := by
  have e1 : 256 + 48 * i + 4 * w - 256 = 48 * i + 4 * w := by omega
  have e2 : (48 * i + 4 * w) / 4 = 12 * i + w := by omega
  have e3 : (12 * i + w) % 12 = w := by omega
  have e4 : (48 * i + 4 * w) / 48 = i := by omega
  rw [regAt_optWord (by omega) ⟨by omega, by rw [e1, e2, e3]; omega⟩, e1, e2, e3, e4]

/-- Reserved offsets name no register (10_state.md R21). -/
theorem regAt_reserved {off : Nat} (h4 : off % 4 = 0) (h : off ≤ 0x87C) (hr : isReserved off) :
    regAt off = .reserved := by
  by_cases ho : 0x100 ≤ off
  · have hlt : off < 0x100 + 0x30 * Config.optMax := by have : Config.optMax = 40 := rfl; omega
    have h11 : (off - 0x100) / 4 % 12 = 11 := by omega
    unfold regAt
    rw [if_pos ho, if_pos hlt, if_pos h11]
  · have key : ∀ off < 0x100, off % 4 = 0 → isReserved off → regAt off = .reserved := by decide +kernel
    exact key off (by omega) h4 hr

/-- The writes that are hazards while BUSY, by offset (70_reset_and_hazards.md R354). -/
theorem hazardous_of_offset {off : Nat} (h4 : off % 4 = 0) (h : off ≤ 0x87C)
    (hh : off = 0x024 ∨ off = 0x028 ∨ (0x084 ≤ off ∧ off ≤ 0x0B0) ∨ (0x0C0 ≤ off ∧ off ≤ 0x0E4) ∨ isOptWord off) :
    hazardous (regAt off) = true := by
  by_cases ho : 0x100 ≤ off
  · rw [regAt_optWord h (by omega)]; rfl
  · have key : ∀ off < 0x100, off % 4 = 0 → (off = 0x024 ∨ off = 0x028 ∨ (0x084 ≤ off ∧ off ≤ 0x0B0) ∨
      (0x0C0 ≤ off ∧ off ≤ 0x0E4) ∨ isOptWord off) → hazardous (regAt off) = true := by decide +kernel
    exact key off (by omega) h4 hh

/-- The read-only and reserved registers, by offset: not hazardous, and a write leaves the state as it is
(10_state.md R21, 70_reset_and_hazards.md R354). -/
theorem readOnly_of_offset {off : Nat} (h4 : off % 4 = 0) (h : off ≤ 0x87C)
    (hh : (0x018 ≤ off ∧ off ≤ 0x020) ∨ (0x02C ≤ off ∧ off ≤ 0x040) ∨ off = 0x080 ∨ isReserved off) :
    hazardous (regAt off) = false ∧ ∀ (s : State) (v : Word), writeReg s (regAt off) v = s := by
  by_cases hr : isReserved off
  · rw [regAt_reserved h4 h hr]; exact ⟨rfl, fun _ _ => rfl⟩
  · have h' : (0x018 ≤ off ∧ off ≤ 0x020) ∨ (0x02C ≤ off ∧ off ≤ 0x040) ∨ off = 0x080 := by tauto
    have key : ∀ off < 0x81, off % 4 = 0 →
        ((0x018 ≤ off ∧ off ≤ 0x020) ∨ (0x02C ≤ off ∧ off ≤ 0x040) ∨ off = 0x080) →
        regClass (regAt off) = .results ∨ regClass (regAt off) = .flow ∨ regClass (regAt off) = .reserved := by
      decide +kernel
    have ht := key off (by omega) h4 h'
    refine ⟨by unfold hazardous; rcases ht with e | e | e <;> rw [e], fun s v => ?_⟩
    revert ht
    cases regAt off <;> simp [regClass, writeReg]

/-- A named register's offset names it (10_state.md section 2). -/
theorem regAt_low {off : Nat} (h : off < 0x100) : ∀ i w, regAt off ≠ .opt i w := by
  intro i w
  unfold regAt
  rw [if_neg (by omega)]
  split <;> simp

/-- All a host write to a register does where it is no hazard. -/
theorem regWrite_idle {s : State} {off : Nat} {v : Word} (ho : regOffsetOk off = true)
    (h : (s.status.busy && hazardous (regAt off)) = false) : regWrite s off v = .ok (writeReg s (regAt off) v) := by
  simp [regWrite, ho, h]

theorem regWrite_eq_ok {s t : State} {off : Nat} {v : Word} (h : regWrite s off v = .ok t) :
    regOffsetOk off = true ∧ (s.status.busy && hazardous (regAt off)) = false ∧ t = writeReg s (regAt off) v := by
  unfold regWrite at h
  split at h
  · split at h
    · simp at h
    · next ho hb => simp at h; exact ⟨ho, by simpa using hb, h.symm⟩
  · simp at h

theorem bufWrite_eq_ok {s t : State} {i : Nat} {b : Byte} (h : bufWrite s i b = .ok t) :
    i < s.pbuf.size ∧ s.status.busy = false ∧ t = setPbuf s (pbufPut s.pbuf i b) := by
  unfold bufWrite at h
  split at h
  · split at h
    · simp at h
    · next hi hb => simp at h; exact ⟨hi, by simpa using hb, h.symm⟩
  · simp at h

/-- A host read changes at most the count of free values drawn (20_memory.md R78, log 5). -/
theorem regRead_eq_ok {s t : State} {off : Nat} {v : Word} (h : regRead s off = .ok (v, t)) :
    (s.status.busy = false → t = s) ∧ (t = s ∨ t = setDraws s (s.draws + 1)) := by
  unfold regRead at h
  split at h
  · split at h
    · simp at h
    · split at h
      · next hb =>
        simp only [Except.ok.injEq, Prod.mk.injEq] at h
        simp only [Bool.and_eq_true] at hb
        exact ⟨fun hf => by simp [hf] at hb, .inr h.2.symm⟩
      · simp only [Except.ok.injEq, Prod.mk.injEq] at h
        exact ⟨fun _ => h.2.symm, .inl h.2.symm⟩
  · simp at h

theorem bufRead_eq_ok {s t : State} {i : Nat} {b : Byte} (h : bufRead s i = .ok (b, t)) :
    (s.status.busy = false → t = s) ∧ (t = s ∨ t = setDraws s (s.draws + 1)) := by
  unfold bufRead at h
  split at h
  · split at h
    · simp at h
    · split at h
      · next hb =>
        simp only [Except.ok.injEq, Prod.mk.injEq] at h
        simp only [Bool.and_eq_true] at hb
        exact ⟨fun hf => by simp [hf] at hb, .inr h.2.symm⟩
      · simp only [Except.ok.injEq, Prod.mk.injEq] at h
        exact ⟨fun _ => h.2.symm, .inl h.2.symm⟩
  · simp at h

/-- Where the block is idle a register reads as its stored value (20_memory.md R80). -/
theorem regRead_idle {s : State} {off : Nat} {v : Word} (ho : regOffsetOk off = true) (hb : s.status.busy = false)
    (hv : readReg s (regAt off) = .ok v) : regRead s off = .ok (v, s) := by
  simp [regRead, ho, hb, hv]

/-- A register the running command does not write reads exactly at any time (70_reset_and_hazards.md R353). -/
theorem regRead_exact {s : State} {off : Nat} {v : Word} (ho : regOffsetOk off = true)
    (hm : mayWriteReg s (regAt off) = false) (hv : readReg s (regAt off) = .ok v) : regRead s off = .ok (v, s) := by
  simp [regRead, ho, hm, hv]

/-- Every host-visible register is `REG_WIDTH` bits wide (00_scope.md R3). -/
theorem word_width : Word = BitVec Config.regWidth := rfl

/-- Each entry of the register map is what its offset reads (10_state.md sections 2.1 to 2.3). -/
theorem readReg_of_table (s : State) :
    ∀ p ∈ registerTable s, regOffsetOk p.1 = true ∧ readReg s (regAt p.1) = .ok p.2 := by
  simp only [registerTable, List.cons_append, List.nil_append, List.forall_mem_cons]
  repeat' apply And.intro
  all_goals first | rfl | simp

/-- What a register or written OPT word holds is what its offset reads (10_state.md sections 2.1 to 2.4). -/
theorem readReg_of_heldAt {s : State} {off : Nat} {v : Word} (h : heldAt s off v) :
    regOffsetOk off = true ∧ readReg s (regAt off) = .ok v := by
  rcases h with h | ⟨i, w, hi, hw, rfl, hv⟩
  · exact readReg_of_table s _ h
  · refine ⟨?_, by rw [regAt_opt hi hw, readReg, optKey, hv]⟩
    simp only [regOffsetOk, Bool.and_eq_true, beq_iff_eq, decide_eq_true_eq]
    omega

end Sys2Proof.Machine
end

