-- ==== Sys2Proof/Laws/Memory.lean ====
section
/-!
SUPPORT. Every operation on the two stores keeps their canonical form (20_memory.md R70, 10_state.md R44, R45), and the
state after reset has it.
-/
namespace Sys2Proof.Machine

variable {s t w : State} {c : Bool}

theorem memWf_resetWith {n : Nat} (h : Config.pbufSizeMin ≤ n) : memWf (State.resetWith n) := by
  refine ⟨⟨h, ?_, ?_⟩, ⟨?_, ?_⟩, ?_⟩ <;> simp [State.resetWith]

theorem memWf_reset : memWf State.reset := memWf_resetWith (by decide)

/-- Bytes written inside PBUF keep its form. -/
theorem pbufWf_putList {m : PacketBuffer} {a : Nat} {bs : List Byte} (h : pbufWf m)
    (hr : a + bs.length ≤ m.size) : pbufWf (pbufPutList m a bs) :=
  ⟨h.1, cellPutList_wf h.2 fun i hi => by simp only [pbufPutList_size]; omega⟩

theorem pbufWf_put {m : PacketBuffer} {i : Nat} {b : Byte} (h : pbufWf m) (hi : i < m.size) :
    pbufWf (pbufPut m i b) := ⟨h.1, cellPut_wf h.2 hi⟩

/-- A word written to an option entry keeps the form of OPT, w0 being cut to its 11 bits (10_state.md R45). -/
theorem optWf_put {o : List (Nat × Word)} {i k : Nat} {v : Word} (h : optWf o) (hi : i < Config.optMax) (hk : k < 11) :
    optWf (cellPut o (optKey i k) (if k = 0 then (v.setWidth 11).setWidth 32 else v)) := by
  refine ⟨cellPut_wf h.1 ⟨by simp only [optKey]; omega, by simp only [optKey]; omega⟩, fun x hx h0 => ?_⟩
  rcases mem_cellPut hx with rfl | hx
  · have : k = 0 := by simp only [optKey] at h0; omega
    subst this
    have := (v.setWidth 11).isLt
    simp only [if_true, BitVec.toNat_setWidth] at this ⊢
    omega
  · exact h.2 x hx h0

/-- The canonical form depends on the two stores only. -/
theorem memWf_of_eq (h : memWf s) (hp : t.pbuf = s.pbuf) (ho : t.opt = s.opt) : memWf t := by
  unfold memWf; rw [hp, ho]; exact h

theorem memWf_setPbuf {m : PacketBuffer} (h : memWf s) (hm : pbufWf m) (v : Word) :
    memWf (setResultLen (setPbuf s m) v) := ⟨hm, h.2⟩

theorem memWf_setOpt {o : List (Nat × Word)} (h : memWf s) (ho : optWf o) : memWf (setOpt s o) := ⟨h.1, ho⟩

/-- A register write keeps the canonical form; the register is one an offset names. -/
theorem memWf_writeReg {r : Reg} {v : Word} (hr : r.wellFormed = true) (h : memWf s) : memWf (writeReg s r v) := by
  cases r
  case opt i k =>
    simp only [Reg.wellFormed, Bool.and_eq_true, decide_eq_true_eq] at hr
    exact memWf_setOpt h (optWf_put h.2 hr.1 hr.2)
  case cmd => simp only [writeReg]; split <;> exact memWf_of_eq h rfl rfl
  all_goals exact memWf_of_eq h rfl rfl

/-- An offset the ports accept names a register that exists (10_state.md R44). -/
theorem regAt_wellFormed (off : Nat) : (regAt off).wellFormed = true := by
  by_cases h : 0x100 ≤ off
  · unfold regAt
    rw [if_pos h]
    split
    · next hlt =>
      split
      · rfl
      · next h11 =>
        simp only [Reg.wellFormed, Bool.and_eq_true, decide_eq_true_eq]
        constructor <;> omega
    · rfl
  · have := regAt_low (off := off) (by omega)
    cases hr : regAt off with
    | opt i k => exact absurd hr (this i k)
    | _ => rfl

/-- A decoded option list stored in OPT keeps its form. -/
theorem memWf_storeTcp {h : TcpHeader} {opts : List TcpOption} (hn : opts.length ≤ Config.optMax) (hw : memWf s) :
    memWf (storeTcp s h opts) := by
  have := writeEntries_wf (i := 0) hw.2 (by omega) (opts := opts)
  unfold storeTcp
  generalize writeEntries s.opt 0 opts = o at this ⊢
  exact memWf_setOpt (memWf_of_eq hw rfl rfl) this

/-- The working copy of every command has the canonical form. -/
theorem bodyIpDecode_memWf (h : bodyIpDecode s = .ok (w, c)) (hw : memWf s) : memWf w := by
  obtain ⟨-, -, ip, hl, -, rfl⟩ := bodyIpDecode_ok h
  exact memWf_of_eq hw rfl rfl

theorem bodyIpEncode_memWf (h : bodyIpEncode s = .ok (w, c)) (hw : memWf s) : memWf w := by
  obtain ⟨-, hr, hl, -, rfl⟩ := bodyIpEncode_ok h
  exact memWf_setPbuf hw (pbufWf_putList hw.1 (by rw [length_ipBytes]; omega)) _

theorem bodyTcpDecode_memWf (h : bodyTcpDecode s = .ok (w, c)) (hw : memWf s) : memWf w := by
  obtain ⟨-, -, tcp, opts, hl, hp, rfl⟩ := bodyTcpDecode_ok h
  exact memWf_of_eq (memWf_storeTcp (h := tcp) (tcpParse_ok hp).2.2.2.2 hw) rfl rfl

theorem bodyTcpEncode_memWf (h : bodyTcpEncode s = .ok (w, c)) (hw : memWf s) : memWf w := by
  obtain ⟨-, hr, hl, img, hi, rfl⟩ := bodyTcpEncode_ok h
  exact memWf_setPbuf hw (pbufWf_putList hw.1 (by rw [(tcpImage_length hi).1]; omega)) _

theorem bodyIpCsum_memWf (h : bodyIpCsum s = .ok (w, c)) (hw : memWf s) : memWf w := by
  obtain ⟨-, -, rfl⟩ := bodyIpCsum_ok h
  exact memWf_of_eq hw rfl rfl

theorem bodyTcpCsum_memWf (h : bodyTcpCsum s = .ok (w, c)) (hw : memWf s) : memWf w := by
  obtain ⟨-, img, pay, x, -, -, -, -, rfl⟩ := bodyTcpCsum_ok h
  exact memWf_of_eq hw rfl rfl

theorem bodyDispatch_memWf (h : bodyDispatch s = .ok (w, c)) (hw : memWf s) : memWf w := by
  obtain ⟨-, ip, iphl, tcp, opts, tcphl, -, hp, rfl⟩ := bodyDispatch_ok h
  have h1 : memWf (setIph s ip) := memWf_of_eq hw rfl rfl
  exact memWf_of_eq (memWf_storeTcp (h := tcp) (tcpParse_ok hp).2.2.2.2 h1) rfl rfl

theorem bodyFrameEncode_memWf (h : bodyFrameEncode s = .ok (w, c)) (hw : memWf s) : memWf w := by
  obtain ⟨-, hr, h5, ht, hn, -, img, hi, rfl⟩ := bodyFrameEncode_ok h
  have e5 : s.iph.ihl.toNat = 5 := by rw [h5]; rfl
  refine memWf_setPbuf hw (pbufWf_putList hw.1 ?_) _
  rw [List.length_append, length_ipBytes, (tcpImage_length hi).1]
  simp only [frameLength, e5] at ht
  omega

/-- The commit of a command keeps the canonical form if its working copy has it. -/
theorem finish_memWf {d : Bool} {r : Except Stop (State × Bool)} (h : finish s d r = .next t)
    (hb : ∀ w c, r = .ok (w, c) → memWf w) (hw : memWf s) : memWf t := by
  rcases finish_cases h with ⟨w, c, hr, rfl⟩ | ⟨e, i, -, rfl⟩ | ⟨x, -, rfl⟩
  · exact memWf_of_eq (hb w c hr) rfl rfl
  · exact memWf_of_eq hw rfl rfl
  · exact memWf_of_eq hw rfl rfl

end Sys2Proof.Machine
end

