-- ==== Sys2Proof/Laws/PerInstr.lean ====
section
/-!
SUPPORT. The per-instruction family `DecodeEncode`: the word of an instruction lies in a table row that decodes to it
(30_encoding.md R107, R120).
-/
namespace Sys2Proof.Laws.DecodeEncode

/-- The decoder reads back the word the encoder writes. -/
def Statement (i : Instr) : Prop := i.wellFormed = true → decodeInstr (encode i) = .ok i

theorem ipDecode : Statement .ipDecode := fun _ => rfl
theorem ipEncode : Statement .ipEncode := fun _ => rfl
theorem tcpDecode : Statement .tcpDecode := fun _ => rfl
theorem tcpEncode : Statement .tcpEncode := fun _ => rfl
theorem ipCsum : Statement .ipCsum := fun _ => rfl
theorem tcpCsum : Statement .tcpCsum := fun _ => rfl
theorem dispatch : Statement .dispatch := fun _ => rfl
theorem frameEncode : Statement .frameEncode := fun _ => rfl
theorem illegal0 : Statement .illegal0 := fun _ => rfl
theorem illegal9 : Statement .illegal9 := fun _ => rfl
theorem illegalA : Statement .illegalA := fun _ => rfl
theorem illegalB : Statement .illegalB := fun _ => rfl
theorem illegalC : Statement .illegalC := fun _ => rfl
theorem illegalD : Statement .illegalD := fun _ => rfl
theorem illegalE : Statement .illegalE := fun _ => rfl
theorem illegalF : Statement .illegalF := fun _ => rfl
theorem optEol : Statement .optEol := fun _ => rfl
theorem optNop : Statement .optNop := fun _ => rfl
theorem optMss : Statement .optMss := fun _ => rfl
theorem optWs : Statement .optWs := fun _ => rfl
theorem optSackp : Statement .optSackp := fun _ => rfl
theorem optSack : Statement .optSack := fun _ => rfl
theorem optTs : Statement .optTs := fun _ => rfl
theorem optUto : Statement .optUto := fun _ => rfl
theorem optAuth : Statement .optAuth := fun _ => rfl
theorem optMptcp : Statement .optMptcp := fun _ => rfl

end Sys2Proof.Laws.DecodeEncode
end

