-- ==== Sys2Proof/Laws/Step.lean ====
section
/-!
SUPPORT. All a step can do: whose turn it is, and what each turn does to the state (60_exceptions.md R312).
-/
namespace Sys2Proof.Machine

variable {s t : State}

/-- A step is the next turn, taken by the state or by the state with its schedule moved on. -/
theorem step_cases (h : step s = .next t) :
    ∃ q, (q = s ∨ ∃ ts, q = setSched s ts) ∧ takeTurn (nextTurn s) q = .next t := by
  cases hs : s.sched with
  | nil =>
    simp only [step, stepTurn, hs] at h
    exact ⟨s, .inl rfl, by simpa only [nextTurn, hs] using h⟩
  | cons u ts =>
    simp only [step, stepTurn, hs] at h
    exact ⟨_, .inr ⟨ts, rfl⟩, by simpa only [nextTurn, hs] using h⟩

/-- A chain of port accesses answers exactly when its first part does and the rest does on that answer. -/
theorem port_bind_eq_ok {α β : Type} {x : Except PortStop α} {f : α → Except PortStop β} {b : β} :
    (x >>= f) = .ok b ↔ ∃ a, x = .ok a ∧ f a = .ok b := by
  cases x <;> simp [bind, Except.bind]

/-- All a host turn can do: the host's own data move on, over one host access at most (20_memory.md R80 to R84). -/
theorem hostTurn_cases (h : hostTurn s = .next t) :
    ∃ q c, t = setHost q c ∧
      (q = s ∨ q = setDraws s (s.draws + 1) ∨
        (∃ i b, i < s.pbuf.size ∧ s.status.busy = false ∧ q = setPbuf s (pbufPut s.pbuf i b)) ∨
        (∃ off v, (s.status.busy && hazardous (regAt off)) = false ∧ q = writeReg s (regAt off) v)) := by
  unfold hostTurn at h
  split at h
  · simp only [Host.Outcome.next.injEq] at h
    subst h; exact ⟨s, s.host, rfl, .inl rfl⟩
  · next op hop =>
    cases hr : hostAction s op with
    | error e => rw [hr] at h; cases e <;> simp at h
    | ok u =>
      rw [hr] at h
      simp only [Host.Outcome.next.injEq] at h
      subst h
      have pure_ok : ∀ q : State, (pure q : Except PortStop State) = .ok u → u = q := fun q hq => by
        injection hq with hq; exact hq.symm
      cases op with
      | bufWrite i b =>
        obtain ⟨q, hw, hr⟩ := port_bind_eq_ok.1 hr
        obtain ⟨hi, hb, hq⟩ := bufWrite_eq_ok hw
        exact ⟨q, _, pure_ok _ hr, .inr (.inr (.inl ⟨i, b, hi, hb, hq⟩))⟩
      | bufRead i =>
        obtain ⟨⟨b, q⟩, hw, hr⟩ := port_bind_eq_ok.1 hr
        rcases (bufRead_eq_ok hw).2 with hq | hq
        · exact ⟨q, _, pure_ok _ hr, .inl hq⟩
        · exact ⟨q, _, pure_ok _ hr, .inr (.inl hq)⟩
      | regWrite off v =>
        obtain ⟨x, -, hr⟩ := port_bind_eq_ok.1 hr
        obtain ⟨q, hw, hr⟩ := port_bind_eq_ok.1 hr
        obtain ⟨-, hb, hq⟩ := regWrite_eq_ok hw
        exact ⟨q, _, pure_ok _ hr, .inr (.inr (.inr ⟨off, x, hb, hq⟩))⟩
      | regRead off k =>
        obtain ⟨⟨x, q⟩, hw, hr⟩ := port_bind_eq_ok.1 hr
        rcases (regRead_eq_ok hw).2 with hq | hq
        · exact ⟨q, _, pure_ok _ hr, .inl hq⟩
        · exact ⟨q, _, pure_ok _ hr, .inr (.inl hq)⟩
      | branchZero k mask l =>
        obtain ⟨x, -, hr⟩ := port_bind_eq_ok.1 hr
        split at hr
        · split at hr
          · exact ⟨s, _, pure_ok _ hr, .inl rfl⟩
          · cases hr
        · exact ⟨s, _, pure_ok _ hr, .inl rfl⟩
      | label l => exact ⟨s, _, pure_ok _ hr, .inl rfl⟩

/-- The option a walk fetches is decoded as a round of `optWalk` decodes it (41_tcp_codec.md R181). -/
theorem walkOption_eq (s : State) :
    walkOption s = finishOption s (optStep s.pbuf s.walk.base s.walk.hl s.walk.p) := by
  unfold walkOption
  cases hk : readByte s.pbuf (s.walk.base + s.walk.p) with
  | error e => simp only [optStep, hk]; rfl
  | ok k =>
    simp only [optStep, hk, ok_bind, decodeOptionKind]
    generalize k.toNat = n
    by_cases h : n ∈ [0, 1, 2, 3, 4, 5, 8, 28, 29, 30]
    · simp only [List.mem_cons, List.not_mem_nil, or_false] at h
      rcases h with rfl | rfl | rfl | rfl | rfl | rfl | rfl | rfl | rfl | rfl <;> rfl
    · split
      · next i hi => split at hi <;> simp_all
      · split <;> first | rfl | simp_all

/-- All a walk turn can do (41_tcp_codec.md R181, log 8): nothing; begin the running command's walk; or carry it one
round further. -/
theorem walkTurn_cases (s : State) :
    walkTurn s = .next s ∨
    (s.status.busy = true ∧ (s.latch.op = 3 ∨ s.latch.op = 7) ∧ s.walk.active = false ∧
      ∃ base hl, walkFront s = .ok (base, hl) ∧
        walkTurn s = .next (setWalk s { active := true, base := base, hl := hl, p := 20, opts := [] })) ∨
    (s.status.busy = true ∧ (s.latch.op = 3 ∨ s.latch.op = 7) ∧ s.walk.active = true ∧ s.walk.p < s.walk.hl ∧
      walkTurn s = finishOption s (optStep s.pbuf s.walk.base s.walk.hl s.walk.p)) := by
  by_cases h : s.status.busy = true ∧ (s.latch.op = 3 ∨ s.latch.op = 7)
  · by_cases ha : s.walk.active = true
    · by_cases hp : s.walk.p < s.walk.hl
      · exact .inr (.inr ⟨h.1, h.2, ha, hp, by rw [walkTurn, if_pos h, if_pos ha, if_pos hp, walkOption_eq]⟩)
      · exact .inl (by rw [walkTurn, if_pos h, if_pos ha, if_neg hp])
    · cases hf : walkFront s with
      | ok r =>
        obtain ⟨base, hl⟩ := r
        exact .inr (.inl ⟨h.1, h.2, by simpa using ha, base, hl, rfl, by
          rw [walkTurn, if_pos h, if_neg ha, hf]⟩)
      | error e => exact .inl (by rw [walkTurn, if_pos h, if_neg ha, hf])
  · exact .inl (by rw [walkTurn, if_neg h])

/-- Every instruction the engine runs is a command. -/
theorem isCommand_decodeOp (op : BitVec 4) : isCommand (decodeOp op) = true := by
  unfold decodeOp
  split <;> rfl

/-- The engine's turn: the running command's completion, or nothing (70_reset_and_hazards.md R352). -/
theorem engineTurn_cases (h : engineTurn s = .next t) :
    (s.status.busy = false ∧ t = s) ∨ (s.status.busy = true ∧ exec (decodeOp s.latch.op) s = .next t) := by
  unfold engineTurn at h
  split at h
  · next hb => exact .inr ⟨hb, h⟩
  · next hb => simp at h; exact .inl ⟨by simpa using hb, h.symm⟩

end Sys2Proof.Machine
end

