-- ==== Sys2Proof/Tests/Slice0.lean ====
section
/-!
SUPPORT. Tests of the model on the spec's vectors (95_test_vectors.md), the words of the two tables, ill-formed terms,
and a witness for the hypotheses of every statement of Certificates/Slice0/Obligations.lean.
-/
namespace Sys2Proof.Tests

open Sys2Proof.Machine

set_option Elab.async false

/-! ### Small states -/

/-- V-F1's 44 bytes. -/
def f1 : List Byte :=
  [0x45, 0x00, 0x00, 0x2C, 0x1C, 0x46, 0x40, 0x00, 0x40, 0x06, 0x9D, 0x2A, 0xC0, 0xA8, 0x00, 0x0A, 0xC0, 0xA8, 0x00, 0x01,
   0xC3, 0x50, 0x1F, 0x90, 0x12, 0x34, 0x56, 0x78, 0x00, 0x00, 0x00, 0x00, 0x60, 0x02, 0xFA, 0xF0, 0xD0, 0x4C, 0x00, 0x00,
   0x02, 0x04, 0x05, 0xB4]

/-- V-F1's IPv4 fields. -/
def ipF1 : IpHeader :=
  { ihl := 5, dscp := 0, ecn := 0, totlen := 44, id := 0x1C46, frag := 1, fragoff := 0, ttl := 64, proto := 6,
    csum := 0x9D2A, src := 0xC0A8000A, dst := 0xC0A80001 }

/-- V-C2's IPv4 fields. -/
def ipC2 : IpHeader :=
  { ihl := 5, dscp := 0, ecn := 0, totlen := 0x73, id := 0, frag := 1, fragoff := 0, ttl := 64, proto := 17,
    csum := 0xB861, src := 0xC0A80001, dst := 0xC0A800C7 }

/-- V-F1's TCP fields. -/
def tcpF1 : TcpHeader :=
  { sport := 0xC350, dport := 0x1F90, seq := 0x12345678, ack := 0, doff := 6, flags := 2, win := 0xFAF0, csum := 0xD04C,
    urg := 0 }

/-- V-F1's option list. -/
def optsF1 : List TcpOption := [.maximumSegmentSize 1460]

/-- The reset block bound as the vectors say, with `bytes` at PBUF index `a`. -/
def loaded (a : Nat) (bytes : List Byte) : State :=
  { State.reset with localAddr := 0xC0A80001, localPort := 0x1F90, pbuf := pbufPutList State.reset.pbuf a bytes }

/-- The header registers hold V-F1's fields. -/
def withF1 (s : State) : State :=
  { s with iph := ipF1, tcph := tcpF1, optcnt := 1, opt := [(0, 2), (1, 1460)] }

/-- A command issued with its operands. -/
def issued (s : State) (op : BitVec 4) (start len aux : Word) : State :=
  issue { s with argStart := start, argLen := len, argAux := aux } op

/-- A running TCP_DECODE whose option walk stands at offset 20 of a header of `hl` bytes at index 0, the option bytes
`bytes` behind the fixed part. -/
def walking (op : BitVec 4) (hl : Nat) (bytes : List Byte) : State :=
  { issued (loaded 20 bytes) op 0 60 0 with
    walk := { active := true, base := 0, hl := hl, p := 20, opts := [] } }

/-- The next state of an outcome, or the reset state. -/
def after (o : Host.Outcome State Fault Refusal) : State :=
  match o with
  | .next t => t
  | _ => State.reset

/-- The outcome is a next state. -/
def goesOn (o : Host.Outcome State Fault Refusal) : Bool :=
  match o with
  | .next _ => true
  | _ => false

theorem next_of_goesOn {o : Host.Outcome State Fault Refusal} (h : goesOn o = true) : o = .next (after o) := by
  cases o <;> simp [goesOn, after] at h ⊢

/-! ### Ill-formed terms -/

theorem test_sack_of_five_refused : (TcpOption.sack (List.replicate 5 (0, 0))).wellFormed = false := by decide
theorem test_sack_of_four_accepted : (TcpOption.sack (List.replicate 4 (0, 0))).wellFormed = true := by decide
theorem test_misaligned_offset_refused : (HostOp.regWrite 0x002 (.const 0)).wellFormed State.reset.pbuf.size = false := by decide
theorem test_high_offset_refused : (HostOp.regRead 0x880 0).wellFormed State.reset.pbuf.size = false := by decide
theorem test_last_offset_accepted : regOffsetOk 0x87C = true := by decide
theorem test_entry_40_refused : (Reg.opt 40 0).wellFormed = false := by decide
theorem test_word_11_refused : (Reg.opt 0 11).wellFormed = false := by decide
theorem test_buffer_read_past_end_refused : (HostOp.bufRead 65536).wellFormed State.reset.pbuf.size = false := by decide
theorem test_buffer_write_past_end_refused : (HostOp.bufWrite 65536 0).wellFormed State.reset.pbuf.size = false := by decide
theorem test_last_byte_accepted : (HostOp.bufRead 79).wellFormed (State.resetWith 80).pbuf.size = true := by decide
theorem test_unknown_kind_refused : decodeInstr (.optionKind 6) = .error (.unknownKind 6) := by decide

/-! ### Words of the tables (30_encoding.md R107, R120) -/

theorem test_decode_ip_decode : decodeInstr (.command 0b00000000000000000000000000000001) = .ok .ipDecode := by decide
theorem test_decode_ip_encode : decodeInstr (.command 0b10000000000000000000000000000010) = .ok .ipEncode := by decide
theorem test_decode_tcp_decode : decodeInstr (.command 0b00000000000000000000000000010011) = .ok .tcpDecode := by decide
theorem test_decode_tcp_encode : decodeInstr (.command 0b00000000000000000000000000000100) = .ok .tcpEncode := by decide
theorem test_decode_ip_csum : decodeInstr (.command 0b11111111111111111111111111110101) = .ok .ipCsum := by decide
theorem test_decode_tcp_csum : decodeInstr (.command 0b00000000000000000000000000000110) = .ok .tcpCsum := by decide
theorem test_decode_dispatch : decodeInstr (.command 0b00000000000000000000000000000111) = .ok .dispatch := by decide
theorem test_decode_frame_encode : decodeInstr (.command 0b00000000000000000000000000001000) = .ok .frameEncode := by
  decide
theorem test_decode_illegal : decodeInstr (.command 0b00000000000000000000000000000000) = .ok .illegal0 ∧
    decodeInstr (.command 0b00000000000000000000000000001001) = .ok .illegal9 ∧
    decodeInstr (.command 0b00000000000000000000000000001010) = .ok .illegalA ∧
    decodeInstr (.command 0b00000000000000000000000000001011) = .ok .illegalB ∧
    decodeInstr (.command 0b00000000000000000000000000001100) = .ok .illegalC ∧
    decodeInstr (.command 0b00000000000000000000000000001101) = .ok .illegalD ∧
    decodeInstr (.command 0b00000000000000000000000000001110) = .ok .illegalE ∧
    decodeInstr (.command 0b00000000000000000000000000001111) = .ok .illegalF := by decide
theorem test_decode_kinds : decodeInstr (.optionKind 0b00000000) = .ok .optEol ∧
    decodeInstr (.optionKind 0b00000001) = .ok .optNop ∧ decodeInstr (.optionKind 0b00000010) = .ok .optMss ∧
    decodeInstr (.optionKind 0b00000011) = .ok .optWs ∧ decodeInstr (.optionKind 0b00000100) = .ok .optSackp ∧
    decodeInstr (.optionKind 0b00000101) = .ok .optSack ∧ decodeInstr (.optionKind 0b00001000) = .ok .optTs ∧
    decodeInstr (.optionKind 0b00011100) = .ok .optUto ∧ decodeInstr (.optionKind 0b00011101) = .ok .optAuth ∧
    decodeInstr (.optionKind 0b00011110) = .ok .optMptcp := by decide
theorem test_table_word_of_uto : decodeTableWord 8 28 = some .optUto := by decide
theorem test_table_word_of_dispatch : decodeTableWord 8 7 = some .dispatch := by decide

/-! ### Single steps on the vectors -/

/-- V-IP-1: IP_DECODE of V-F1. -/
theorem test_ip_decode_f1 :
    (fun t => t.iph = ipF1 ∧ t.resultLen = 20 ∧ statusWord t.status = 0x2)
      (after (step (issued (loaded 0 f1) 1 0 44 0))) := by decide +kernel

/-- BOUNDS in a block of the least legal size: a range one byte past its end (00_scope.md R3, 20_memory.md R75). -/
theorem test_bounds_of_a_small_block :
    (fun t => t.errInfo = 0 ∧ statusWord t.status = 0xF06)
      (after (step (issued (State.resetWith 80) 1 40 41 0))) := by decide +kernel

/-- IP_VERSION is reported with the nibble (40_ipv4_codec.md R151). -/
theorem test_ip_decode_version :
    (fun t => t.errInfo = 6 ∧ statusWord t.status = 0x206)
      (after (step (issued (loaded 0 (f1.set 0 0x65)) 1 0 44 0))) := by decide +kernel

/-- IP_ENCODE of V-F1's fields writes its first 20 bytes (V-IP-26's way back). -/
theorem test_ip_encode_f1 :
    (fun t => readBytes t.pbuf 100 20 = .ok (f1.take 20) ∧ t.resultLen = 20 ∧ statusWord t.status = 0x2)
      (after (step (issued (withF1 (loaded 0 [])) 2 100 44 0))) := by decide +kernel

theorem test_ip_encode_no_space :
    (fun t => t.errInfo = 43 ∧ statusWord t.status = 0xA06)
      (after (step (issued (withF1 (loaded 0 [])) 2 0 43 0))) := by decide +kernel

/-- V-TCP-1: TCP_DECODE of V-F1's TCP header. -/
theorem test_tcp_decode_f1 :
    (fun t => t.tcph = tcpF1 ∧ t.optcnt = 1 ∧ cellGet t.opt 0 = some 2 ∧ cellGet t.opt 1 = some 1460 ∧ t.resultLen = 24)
      (after (step (issued (loaded 0 f1) 3 20 24 0))) := by decide +kernel

/-- A length byte of 6 where MaximumSegmentSize has 4 (41_tcp_codec.md R182). -/
theorem test_tcp_decode_bad_length :
    (fun t => t.errInfo = 20 ∧ statusWord t.status = 0x906)
      (after (step (issued (loaded 0 (f1.set 41 0x05)) 3 20 24 0))) := by decide +kernel

/-- TCP_ENCODE of V-F1's fields writes its TCP header (V-TCP-26's way back). -/
theorem test_tcp_encode_f1 :
    (fun t => readBytes t.pbuf 200 24 = .ok (f1.drop 20) ∧ t.resultLen = 24)
      (after (step (issued (withF1 (loaded 0 [])) 4 200 24 0))) := by decide +kernel

theorem test_tcp_encode_size_mismatch :
    (fun t => t.errInfo = 4 ∧ statusWord t.status = 0xD06)
      (after (step (issued { withF1 (loaded 0 []) with tcph := { tcpF1 with doff := 7 } } 4 0 28 0))) := by
  decide +kernel

/-- V-C2: the published header's checksum. -/
theorem test_ip_csum_c2 :
    (fun t => t.csumResult = 0xB861 ∧ statusWord t.status = 0x12 ∧ t.resultLen = 20)
      (after (step (issued { loaded 0 [] with iph := ipC2 } 5 0 0 0))) := by decide +kernel

/-- V-F1's TCP checksum. -/
theorem test_tcp_csum_f1 :
    (fun t => t.csumResult = 0xD04C ∧ statusWord t.status = 0x12 ∧ t.resultLen = 36)
      (after (step (issued (withF1 (loaded 0 [])) 6 0 0 0))) := by decide +kernel

/-- V-C1: the RFC 1071 example. -/
theorem test_csum_c1 : csum [0x00, 0x01, 0xF2, 0x03, 0xF4, 0xF5, 0xF6, 0xF7] = 0x220D := by decide +kernel

/-- V-D-1: DISPATCH accepts V-F1. -/
theorem test_dispatch_f1 :
    (fun t => statusWord t.status = 0x10002 ∧ t.resultLen = 44 ∧ t.payloadOff = 44 ∧ t.payloadLen = 0 ∧
      t.fk = { srcAddr := 0xC0A8000A, dstAddr := 0xC0A80001, srcPort := 0xC350, dstPort := 0x1F90 })
      (after (step (issued (loaded 0 f1) 7 0 44 0))) := by decide +kernel

/-- V-D-5: another port is dropped. -/
theorem test_dispatch_other_port :
    (fun t => statusWord t.status = 0x50002 ∧ t.iph = State.reset.iph)
      (after (step (issued { loaded 0 f1 with localPort := 8081 } 7 0 44 0))) := by decide +kernel

/-- FRAME_ENCODE of V-F1's fields writes V-F1. -/
theorem test_frame_encode_f1 :
    (fun t => readBytes t.pbuf 0 44 = .ok f1 ∧ t.resultLen = 44)
      (after (step (issued (withF1 (loaded 0 [])) 8 0 44 0))) := by decide +kernel

theorem test_frame_encode_totlen_mismatch :
    (fun t => t.errInfo = 45 ∧ statusWord t.status = 0xC06)
      (after (step (issued (withF1 (loaded 0 [])) 8 0 45 1))) := by decide +kernel

/-- An illegal opcode (43_dispatcher.md R285). -/
theorem test_illegal_opcode_f :
    (fun t => t.errInfo = 15 ∧ statusWord t.status = 0x1006 ∧ t.cmd = 15)
      (after (step (issued (loaded 0 []) 15 0 0 0))) := by decide +kernel

/-! ### Single options (41_tcp_codec.md R183 to R191) -/

theorem test_opt_eol : (after (exec .optEol (walking 3 24 [0]))).walk.opts = [.endOfList] := by decide +kernel
theorem test_opt_nop : (after (exec .optNop (walking 3 24 [1]))).walk.p = 21 := by decide +kernel
theorem test_opt_mss : (after (exec .optMss (walking 3 24 [2, 4, 0x05, 0xB4]))).walk.opts =
    [.maximumSegmentSize 1460] := by decide +kernel
theorem test_opt_ws : (after (exec .optWs (walking 3 24 [3, 3, 7]))).walk.opts = [.windowScale 7] := by decide +kernel
theorem test_opt_sackp : (after (exec .optSackp (walking 3 24 [4, 2]))).walk.opts = [.sackPermitted] := by
  decide +kernel
theorem test_opt_sack : (after (exec .optSack (walking 3 32 [5, 10, 0, 0, 0, 1, 0, 0, 0, 2]))).walk.opts =
    [.sack [(1, 2)]] := by decide +kernel
theorem test_opt_ts : (after (exec .optTs (walking 3 32 [8, 10, 0, 1, 0xE2, 0x40, 0, 0, 0, 0]))).walk.opts =
    [.timestamp 123456 0] := by decide +kernel
theorem test_opt_uto : (after (exec .optUto (walking 3 24 [28, 4, 0x01, 0x2C]))).walk.opts = [.userTimeout 300] := by
  decide +kernel
theorem test_opt_auth : (fun t => statusWord t.status = 0x806 ∧ t.errInfo = 20)
    (after (exec .optAuth (walking 3 24 [29]))) := by decide +kernel
theorem test_opt_mptcp : (fun t => statusWord t.status = 0x60806 ∧ t.errInfo = 20)
    (after (exec .optMptcp (walking 7 24 [30]))) := by decide +kernel

/-! ### Witnesses: every statement's hypotheses can be met, clause by clause

Each theorem names the statement it serves and meets its hypotheses on concrete states and operands; where a statement
has several clauses there is a witness for each, at the ends of its ranges. -/

/-- A 60-byte TCP header's worth of options: a SACK of four blocks and six NoOps. -/
def maxOpts : List TcpOption :=
  [.sack [(1, 2), (3, 4), (5, 6), (7, 8)], .noOp, .noOp, .noOp, .noOp, .noOp, .noOp]

/-- The header registers hold V-F1's fields with the options `maxOpts`. -/
def withMax (s : State) : State :=
  { s with
    iph := { ipF1 with totlen := 80 }
    tcph := { tcpF1 with doff := 15 }
    optcnt := 7
    opt := [(0, 0x405), (3, 1), (4, 2), (5, 3), (6, 4), (7, 5), (8, 6), (9, 7), (10, 8), (12, 1), (24, 1), (36, 1),
            (48, 1), (60, 1), (72, 1)] }

/-- The header registers hold V-F1's fields without an option. -/
def withNone (s : State) : State :=
  { s with iph := { ipF1 with totlen := 40 }, tcph := { tcpF1 with doff := 5 }, optcnt := 0, opt := [] }

theorem tcpValid_f1 (s : State) : tcpValid (withF1 s) optsF1 := by
  refine ⟨show 5 ≤ 6 by decide, rfl, show 1 ≤ 40 by decide, rfl, fun i h => ?_⟩
  have h1 : i < 1 := h
  interval_cases i
  exact ⟨_, rfl, rfl, _, rfl, rfl⟩

theorem tcpValid_none (s : State) : tcpValid (withNone s) [] :=
  ⟨show 5 ≤ 5 by decide, rfl, show 0 ≤ 40 by decide, rfl, fun i h => by simp at h⟩

theorem tcpValid_max (s : State) : tcpValid (withMax s) maxOpts := by
  refine ⟨show 5 ≤ 15 by decide, rfl, show 7 ≤ 40 by decide, rfl, fun i h => ?_⟩
  have h1 : i < 7 := h
  interval_cases i
  · refine ⟨_, rfl, rfl, rfl, fun j hj => ?_⟩
    have h2 : j < 4 := hj
    interval_cases j <;> exact ⟨rfl, rfl⟩
  all_goals exact ⟨_, rfl, rfl, trivial⟩

/-- Issue touches no header register. -/
theorem tcpValid_issued {s : State} {opts : List TcpOption} (h : tcpValid s opts) (op : BitVec 4) (start len aux : Word) :
    tcpValid (issued s op start len aux) opts := h

/-- EncodeDecodeAgree. -/
theorem witness_encode_decode : Instr.optMptcp.wellFormed = true ∧ decodeOptionKind 30 = .ok .optMptcp ∧
    decodeInstr (.command 0xFFFFFFF8) = .ok .frameEncode := by decide

/-- RegisterMapRoundTrips: the first and the last register. -/
theorem witness_register_map : Reg.cmd.wellFormed = true ∧ Reg.cmd ≠ .reserved ∧ (Reg.opt 39 10).wellFormed = true ∧
    Reg.opt 39 10 ≠ .reserved := by decide

/-- RegisterMapRoundTrips: an idle block that holds a register, and a written OPT word, at the numeric offsets. -/
theorem witness_register_values : (withF1 (loaded 0 f1)).status.busy = false ∧
    heldAt (withF1 (loaded 0 f1)) 0x0AC 0xC0A8000A ∧ heldAt (withF1 (loaded 0 f1)) 0x0E4 1 ∧
    heldAt (withF1 (loaded 0 f1)) 0x104 1460 :=
  ⟨by decide, .inl (by decide), .inl (by decide), .inr ⟨0, 1, by decide, by decide, by decide, by decide⟩⟩

/-- IssueLatchesTheOperands: idle, and BUSY. -/
theorem witness_issue : State.reset.status.busy = false ∧ (issue State.reset 1).status.busy = true := by decide

/-- StatusPort: a state whose DONE is 0, BUSY or not. -/
theorem witness_status_port : State.reset.status.done = false ∧ (issue State.reset 1).status.done = false := by decide

/-- VersionIsHardwired: an image, and an IP_DECODE that succeeds. -/
theorem witness_version : ipImage false ipF1 = .ok (f1.take 20) ∧
    exec .ipDecode (issued (loaded 0 f1) 1 0 44 0) = .next (after (exec .ipDecode (issued (loaded 0 f1) 1 0 44 0))) ∧
    (after (exec .ipDecode (issued (loaded 0 f1) 1 0 44 0))).status.err = false :=
  ⟨by decide +kernel, next_of_goesOn (by decide +kernel), by decide +kernel⟩

/-- ReservedOffsetsReadZero: the ends of each reserved range. -/
theorem witness_reserved : ∀ off ∈ [0x044, 0x07C, 0x0B4, 0x0BC, 0x0E8, 0x0FC, 0x12C, 0x87C],
    off % 4 = 0 ∧ off ≤ 0x87C ∧ isReserved off := by decide

/-- RegisterWriteReadsBack: each class, the option words at both ends, and CTRL and an ARG register while BUSY. -/
theorem witness_register_write : (∀ r ∈ [Reg.localPort, .iphIhl, .iphDst, .tcphSport, .tcphOptcnt, .opt 0 0, .opt 39 10],
      r.wellFormed = true ∧ State.reset.status.busy = false ∧
        (regClass r = .bind ∨ regClass r = .iph ∨ regClass r = .tcph ∨ regClass r = .optWord)) ∧
    (∀ r ∈ [Reg.ctrl, .argStart, .argLen, .argAux], r.wellFormed = true) ∧ (issue State.reset 1).status.busy = true := by
  decide

/-- BufferWriteReadsBack: the first and the last byte. -/
theorem witness_buffer_write : 0 < State.reset.pbuf.size ∧ 65535 < State.reset.pbuf.size ∧ State.reset.status.busy = false := by
  decide

/-- HostAccessStops: a misaligned and a high offset, the first index past the end, unwritten bytes and words at both
ends. -/
theorem witness_host_stops : (0x002 % 4 ≠ 0) ∧ 0x87C < 0x880 ∧ State.reset.pbuf.size ≤ 65536 ∧ 65535 < State.reset.pbuf.size ∧
    cellGet State.reset.pbuf.bytes 65535 = none ∧ cellGet State.reset.opt (12 * 39 + 10) = none ∧
    cellGet State.reset.opt (12 * 0 + 0) = none := by decide

/-- ReadsDuringBusy: a command that writes no header register, and the two that write IPH; a register and a byte that
read. -/
theorem witness_busy_reads : (issue State.reset 5).status.busy = true ∧ (issue State.reset 5).latch.op ≠ 1 ∧
    (issue State.reset 5).latch.op ≠ 7 ∧ (issue State.reset 1).status.busy = true ∧ (issue State.reset 1).latch.op = 1 ∧
    (issue State.reset 7).status.busy = true ∧ (issue State.reset 7).latch.op = 7 ∧
    regRead (issue State.reset 5) 0x00C = .ok (0, issue State.reset 5) ∧
    bufRead (issue (loaded 0 f1) 1) 0 = .ok (0x45, issue (loaded 0 f1) 1) := by decide +kernel

/-- ReadsDuringBusy: a running TCP_DECODE of V-F1, whose write set ends with entry 0, and one whose header does not
parse; and a running TCP_ENCODE. -/
theorem witness_write_sets :
    (let s := issued (withF1 (loaded 0 f1)) 3 20 24 0
     s.status.busy = true ∧ heldAt s 0x0C0 0xC350 ∧ heldAt s 0x0AC 0xC0A8000A ∧ heldAt s 0x104 1460 ∧ mayDecode s 1 ∧
      inWriteSet s.latch.op 1 0x0C0 ∧ ¬inWriteSet s.latch.op 1 0x0AC ∧ inWriteSet s.latch.op 1 0x128 ∧
      ¬inWriteSet s.latch.op 1 0x130) ∧
    mayDecode (issued (loaded 0 f1) 3 20 19 0) 40 ∧
    (let s := issued (withF1 (loaded 0 (f1 ++ [0]))) 4 20 24 0
     s.status.busy = true ∧ cellGet s.pbuf.bytes 43 = some 0xB4 ∧ inBufWriteSet s 43 ∧
      cellGet s.pbuf.bytes 44 = some 0 ∧ ¬inBufWriteSet s 44) := by
  refine ⟨⟨by decide, .inl (by decide), .inl (by decide), .inr ⟨0, 1, by decide, by decide, by decide, by decide⟩,
    ⟨fun h opts hl e => ?_, fun e h => ?_⟩, by decide, by decide, by decide, by decide⟩,
    ⟨fun h opts hl e => ?_, fun e h => rfl⟩, by decide +kernel⟩
  · have p : tcpParse (issued (withF1 (loaded 0 f1)) 3 20 24 0).pbuf 20 24 = .ok (tcpF1, optsF1, 24) := by
      decide +kernel
    cases p.symm.trans e
    rfl
  · have p : tcpParse (issued (withF1 (loaded 0 f1)) 3 20 24 0).pbuf 20 24 = .ok (tcpF1, optsF1, 24) := by
      decide +kernel
    cases p.symm.trans h
  · have p : tcpParse (issued (loaded 0 f1) 3 20 19 0).pbuf 20 19 = .error (.raise .tcpShort 19) := by decide +kernel
    cases p.symm.trans e

/-- HazardousWritesFault: the ends of each range, hazardous and ignored, and the last byte. -/
theorem witness_hazards : (issue State.reset 1).status.busy = true ∧
    (∀ off ∈ [0x024, 0x028, 0x084, 0x0B0, 0x0C0, 0x0E4, 0x100, 0x878], off % 4 = 0 ∧ off ≤ 0x87C ∧
      (off = 0x024 ∨ off = 0x028 ∨ (0x084 ≤ off ∧ off ≤ 0x0B0) ∨ (0x0C0 ≤ off ∧ off ≤ 0x0E4) ∨ isOptWord off)) ∧
    (∀ off ∈ [0x018, 0x020, 0x02C, 0x040, 0x080, 0x044, 0x87C], off % 4 = 0 ∧ off ≤ 0x87C ∧
      ((0x018 ≤ off ∧ off ≤ 0x020) ∨ (0x02C ≤ off ∧ off ≤ 0x040) ∨ off = 0x080 ∨ isReserved off)) ∧
    65535 < State.reset.pbuf.size := by decide

/-- ArgWritesDoNotReachTheRunningCommand: a command that completes and one that faults. -/
theorem witness_arg_writes : (issue State.reset 1).status.busy = true ∧
    exec .ipDecode (issued (loaded 0 f1) 1 0 44 0) = .next (after (exec .ipDecode (issued (loaded 0 f1) 1 0 44 0))) ∧
    exec .ipDecode (issued (loaded 0 []) 1 0 44 0) = .fault (.unwrittenPbuf 0) :=
  ⟨by decide, next_of_goesOn (by decide +kernel), by rfl⟩

/-- ResetLeavesTheResetValues: a reset while a command runs; offsets of both kinds; the last byte. -/
theorem witness_reset : (setSched (issue State.reset 1) [.reset]).sched = .reset :: [] ∧
    (∀ off ∈ [0x000, 0x080, 0x87C], off % 4 = 0 ∧ off ≤ 0x87C ∧ ¬isOptWord off) ∧
    (∀ off ∈ [0x100, 0x878], off % 4 = 0 ∧ off ≤ 0x87C ∧ isOptWord off) ∧ 65535 < State.reset.pbuf.size := by decide

/-- CompletionRaisesIrq: a completion, the two kinds of step that complete a command, and a state with DONE = 1 with a
word that sets IE. -/
theorem witness_irq : isCommand .ipCsum = true ∧
    exec .ipCsum (issue State.reset 5) = .next (after (exec .ipCsum (issue State.reset 5))) ∧
    (∀ s ∈ [setSched (issue State.reset 5) [.engine], setSched (walking 3 24 [29]) [.walk]],
      s.status.busy = true ∧ goesOn (step s) = true ∧ (after (step s)).status.busy = false ∧ nextTurn s ≠ .reset) ∧
    (after (exec .ipCsum (issue State.reset 5))).status.done = true ∧ (0x1 : Word).getLsbD 0 = true :=
  ⟨by decide, next_of_goesOn (by decide +kernel), by decide +kernel, by decide +kernel, by decide⟩

/-- EngineTurnRunsTheIssuedCommand: each of its four clauses. -/
theorem witness_engine_turn : decodeInstr (.command 0xFFFFFFF5) = .ok .ipCsum ∧
    (let s := setSched (issue State.reset 5) [.engine]
     s.status.busy = true ∧ s.latch.op = (0xFFFFFFF5 : Word).extractLsb' 0 4 ∧ s.sched = .engine :: []) ∧
    (issue State.reset 5).sched = [] ∧
    (let s := setSched State.reset [.engine]
     s.status.busy = false ∧ regWrite s 0x000 0xFFFFFFF5 = .ok (issue s 5) ∧ (issue s 5).sched = .engine :: []) := by
  decide +kernel

/-- WalkTurnRunsTheOptionItFetches: a known and an unknown kind. -/
theorem witness_walk_turn :
    (∀ k ∈ [(1 : Byte), 6],
      let s := setSched (walking 3 24 [k]) [.walk]
      s.status.busy = true ∧ (s.latch.op = 3 ∨ s.latch.op = 7) ∧ s.walk.active = true ∧ s.walk.p < s.walk.hl ∧
        readByte s.pbuf (s.walk.base + s.walk.p) = .ok k ∧ s.sched = .walk :: []) ∧
    decodeInstr (.optionKind 1) = .ok .optNop ∧ decodeInstr (.optionKind 6) = .error (.unknownKind 6) := by
  decide +kernel

/-- PlacedWordIsRunNext: a command word and a kind byte. -/
theorem witness_placed : 80 ≤ State.reset.pbuf.size ∧ decodeTableWord 8 8 = some .frameEncode ∧ decodeTableWord 8 29 = some .optAuth := by decide

/-- ErrorCommitEffect: a DISPATCH that ends in an error, one that ends in BOUNDS, and an IP_DECODE that does. -/
theorem witness_error_commit : isCommand .dispatch = true ∧ isCommand .ipDecode = true ∧
    (after (exec .dispatch (issued (loaded 0 f1) 7 0 43 0))).status.err = true ∧
    (after (exec .dispatch (issued (loaded 0 f1) 7 65535 44 0))).status.err = true ∧
    (after (exec .ipDecode (issued (loaded 0 f1) 1 0 19 0))).status.err = true := by decide +kernel

/-- DropCommitEffect: the drops with the least and the greatest code. -/
theorem witness_drop_commit : (after (exec .dispatch (issued (loaded 0 f1) 7 0 39 0))).status.disp = 2 ∧
    (after (exec .dispatch (issued { loaded 0 f1 with localPort := 1 } 7 0 44 0))).status.disp = 5 := by decide +kernel

/-- EncoderAndChecksumFrame: each of the five commands answers a next state without an error, and an address on each
side of the bytes written. -/
theorem witness_encoder_frame : (∀ i ∈ [Instr.ipCsum, .tcpCsum, .ipEncode, .tcpEncode, .frameEncode],
      goesOn (exec i (issued (withF1 (loaded 0 f1)) 2 0 44 0)) = true) ∧
    (after (exec .frameEncode (issued (withF1 (loaded 0 [])) 8 100 44 0))).status.err = false ∧
    (let s := issued (withF1 (loaded 0 [])) 8 100 44 0
     99 < s.latch.start.toNat ∧ s.latch.start.toNat + (20 + 4 * s.tcph.doff.toNat) ≤ 144) := by decide +kernel

/-- DecoderFrame: each of the decoders succeeds; an accepted and a dropped frame; the first word past the list. -/
theorem witness_decoder_frame : goesOn (exec .ipDecode (issued (loaded 0 f1) 1 0 44 0)) = true ∧
    (let t := after (exec .tcpDecode (issued (loaded 0 f1) 3 20 24 0))
     t.status.err = false ∧ 12 * t.optcnt.toNat ≤ 12) ∧
    goesOn (exec .tcpDecode (issued (loaded 0 f1) 3 20 24 0)) = true ∧
    goesOn (exec .dispatch (issued (loaded 0 f1) 7 0 44 0)) = true ∧
    (after (exec .dispatch (issued (loaded 0 f1) 7 0 44 0))).status.disp = 1 ∧
    (after (exec .dispatch (issued (loaded 0 f1) 7 0 39 0))).status.disp ≠ 1 := by decide +kernel

/-- IllegalOpcodesComplete: an idle block. -/
theorem witness_illegal : State.reset.status.busy = false := by decide

/-! #### IPv4 -/

/-- IpDecodeSucceeds: V-F1, with the reserved flag bit 0 and 1 and exactly the header's bytes. -/
theorem witness_ip_decode : ∀ rf ∈ [false, true],
    (let s := issued (loaded 0 (ipRaw 4 rf true false ipF1)) 1 0 20 0
     inRange s ∧ bytesAt s.pbuf s.latch.start.toNat (ipRaw 4 rf true false ipF1) ∧ ¬(true = true ∧ false = true) ∧
      ipF1.frag = fragOf true false ∧ 5 ≤ ipF1.ihl.toNat ∧ 4 * ipF1.ihl.toNat ≤ s.latch.len.toNat) := by decide +kernel

/-- IpEncodeSucceeds: exactly the space the header asks for, and addresses on both sides of it. -/
theorem witness_ip_encode :
    (let s := issued (withF1 (loaded 0 [])) 2 1 44 0
     inRange s ∧ s.iph.ihl = 5 ∧ 20 ≤ s.iph.totlen.toNat ∧ s.iph.totlen.toNat ≤ s.latch.len.toNat ∧ s.iph.frag ≠ 3 ∧
      0 < s.latch.start.toNat ∧ s.latch.start.toNat + 20 ≤ 21) := by decide +kernel

/-- IpCodecErrors, IP_DECODE: each clause at its boundary. -/
theorem witness_ip_decode_errors :
    (let s := issued (loaded 0 []) 1 65517 20 0
     s.pbuf.size < s.latch.start.toNat + s.latch.len.toNat) ∧
    (let s := issued (loaded 0 []) 1 0 19 0
     inRange s ∧ s.latch.len.toNat < 20) ∧
    (let s := issued (loaded 0 (ipRaw 6 false true true ipF1)) 1 0 20 0
     inRange s ∧ 20 ≤ s.latch.len.toNat ∧ bytesAt s.pbuf s.latch.start.toNat (ipRaw 6 false true true ipF1)) ∧
    (let s := issued (loaded 0 (ipRaw 4 false true true ipF1)) 1 0 20 0
     inRange s ∧ 20 ≤ s.latch.len.toNat ∧ bytesAt s.pbuf s.latch.start.toNat (ipRaw 4 false true true ipF1)) ∧
    (∀ n ∈ [(4 : BitVec 4), 6],
      let h := { ipF1 with ihl := n }
      let s := issued (loaded 0 (ipRaw 4 false true false h)) 1 0 20 0
      inRange s ∧ 20 ≤ s.latch.len.toNat ∧ bytesAt s.pbuf s.latch.start.toNat (ipRaw 4 false true false h) ∧
        (h.ihl.toNat < 5 ∨ s.latch.len.toNat < 4 * h.ihl.toNat)) := by decide +kernel

/-- IpCodecErrors, IP_ENCODE: each clause at its boundary. -/
theorem witness_ip_encode_errors :
    (let s := issued (withF1 (loaded 0 [])) 2 65493 44 0
     s.pbuf.size < s.latch.start.toNat + s.latch.len.toNat) ∧
    (let s := issued { withF1 (loaded 0 []) with iph := { ipF1 with ihl := 6 } } 2 0 44 0
     inRange s ∧ (s.iph.ihl ≠ 5 ∨ s.iph.totlen.toNat < 20)) ∧
    (let s := issued { withF1 (loaded 0 []) with iph := { ipF1 with totlen := 19 } } 2 0 44 0
     inRange s ∧ (s.iph.ihl ≠ 5 ∨ s.iph.totlen.toNat < 20)) ∧
    (let s := issued (withF1 (loaded 0 [])) 2 0 43 0
     inRange s ∧ s.iph.ihl = 5 ∧ 20 ≤ s.iph.totlen.toNat ∧ s.latch.len.toNat < s.iph.totlen.toNat) ∧
    (let s := issued { withF1 (loaded 0 []) with iph := { ipF1 with frag := 3 } } 2 0 44 0
     inRange s ∧ s.iph.ihl = 5 ∧ 20 ≤ s.iph.totlen.toNat ∧ s.iph.totlen.toNat ≤ s.latch.len.toNat ∧ s.iph.frag = 3) := by
  decide +kernel

/-- IpRoundTrip: both directions. -/
theorem witness_ip_round_trip :
    (let s := issued (withF1 (loaded 0 [])) 2 0 44 0
     inRange s ∧ s.iph.ihl = 5 ∧ 20 ≤ s.iph.totlen.toNat ∧ s.iph.totlen.toNat ≤ s.latch.len.toNat ∧ s.iph.frag ≠ 3 ∧
      20 ≤ (20 : Word).toNat ∧ s.latch.start.toNat + (20 : Word).toNat ≤ s.pbuf.size) ∧
    (let s := issued (loaded 0 (ipRaw 4 false true false ipF1)) 1 0 20 0
     inRange s ∧ bytesAt s.pbuf s.latch.start.toNat (ipRaw 4 false true false ipF1) ∧ ipF1.ihl = 5 ∧
      20 ≤ s.latch.len.toNat ∧ 20 ≤ ipF1.totlen.toNat ∧ ipF1.totlen.toNat ≤ (44 : Word).toNat ∧
      (65492 : Word).toNat + (44 : Word).toNat ≤ s.pbuf.size) := by decide +kernel

/-! #### TCP -/

/-- TcpDecodeSucceeds: no option, V-F1's, and the longest header, with a reserved nibble that is not 0. -/
theorem witness_tcp_decode : ∀ x ∈ [((5 : BitVec 4), ([] : List TcpOption)), (6, optsF1), (15, maxOpts)],
    (let h := { tcpF1 with doff := x.1 }
     let s := issued (loaded 0 (tcpWire h 0xF ++ wireBytes x.2)) 3 0 (BitVec.ofNat 32 (4 * x.1.toNat)) 0
     inRange s ∧ bytesAt s.pbuf s.latch.start.toNat (tcpWire h 0xF ++ wireBytes x.2) ∧ optsOk x.2 ∧
      5 ≤ h.doff.toNat ∧ 20 + wireSize x.2 = 4 * h.doff.toNat ∧ 4 * h.doff.toNat ≤ s.latch.len.toNat) := by
  decide +kernel

/-- TcpCodecErrors: each clause at its boundary. -/
theorem witness_tcp_errors :
    (let s := issued (loaded 0 []) 3 65517 20 0
     s.pbuf.size < s.latch.start.toNat + s.latch.len.toNat) ∧
    (let s := issued (loaded 0 []) 3 0 19 0
     inRange s ∧ s.latch.len.toNat < 20) ∧
    (∀ b ∈ [(0x40 : Byte), 0x60],
      let s := issued (loaded 12 [b]) 3 0 20 0
      inRange s ∧ 20 ≤ s.latch.len.toNat ∧ cellGet s.pbuf.bytes (s.latch.start.toNat + 12) = some b ∧
        (b.toNat / 16 < 5 ∨ s.latch.len.toNat < 4 * (b.toNat / 16))) ∧
    (let s := issued { State.reset with tcph := { tcpF1 with doff := 4 } } 4 0 60 0
     inRange s ∧ s.tcph.doff.toNat < 5) ∧
    (let s := issued { State.reset with tcph := tcpF1 } 4 0 23 0
     inRange s ∧ 5 ≤ s.tcph.doff.toNat ∧ s.latch.len.toNat < 4 * s.tcph.doff.toNat) ∧
    (let s := issued { State.reset with tcph := tcpF1, optcnt := 41 } 4 0 24 0
     inRange s ∧ 5 ≤ s.tcph.doff.toNat ∧ 4 * s.tcph.doff.toNat ≤ s.latch.len.toNat ∧ 40 < s.optcnt.toNat) := by
  decide +kernel

/-- TcpDecodeReportsTheFirstBadOption: the common hypotheses, with no option before the bad one and with one. -/
theorem witness_tcp_bad_option :
    (∀ k ∈ [(29 : Byte), 30, 6, 255, 2, 28],
      let s := issued (loaded 0 (tcpWire tcpF1 0 ++ [k])) 3 0 24 0
      inRange s ∧ 5 ≤ tcpF1.doff.toNat ∧ 4 * tcpF1.doff.toNat ≤ s.latch.len.toNat ∧ 20 < 4 * tcpF1.doff.toNat ∧
        bytesAt s.pbuf s.latch.start.toNat (tcpWire tcpF1 0 ++ wireBytes [] ++ [k])) ∧
    (let s := issued (loaded 0 (tcpWire tcpF1 0 ++ [1, 1, 1, 2])) 3 0 24 0
     inRange s ∧ optsOk [.noOp, .noOp, .noOp] ∧ 23 = 20 + wireSize [.noOp, .noOp, .noOp] ∧ 23 < 4 * tcpF1.doff.toNat ∧
      bytesAt s.pbuf s.latch.start.toNat (tcpWire tcpF1 0 ++ wireBytes [.noOp, .noOp, .noOp] ++ [2]) ∧
      23 + 1 = 4 * tcpF1.doff.toNat) := by decide +kernel

/-- TcpDecodeReportsTheFirstBadOption: the kinds of each clause, a wrong length byte and one past the header. -/
theorem witness_tcp_bad_option_kinds : (6 : Byte) ∉ encodableKinds ∧ (255 : Byte) ∉ encodableKinds ∧
    (2 : Byte) ∈ sizedKinds.map Prod.snd ∧ (28 : Byte) ∈ sizedKinds.map Prod.snd ∧
    (let s := issued (loaded 0 (tcpWire tcpF1 0 ++ [2, 5])) 3 0 24 0
     cellGet s.pbuf.bytes (s.latch.start.toNat + 20 + 1) = some 5 ∧ badLength 2 5) ∧
    (let s := issued (loaded 0 (tcpWire tcpF1 0 ++ [5, 10])) 3 0 24 0
     cellGet s.pbuf.bytes (s.latch.start.toNat + 20 + 1) = some 10 ∧ ¬badLength 5 10 ∧
      4 * tcpF1.doff.toNat < 20 + (10 : Byte).toNat) := by decide +kernel

/-- OptionRoundsDecode: every variant, at the end of its header. -/
theorem witness_option_rounds : ∀ e ∈ [TcpOption.endOfList, .noOp, .maximumSegmentSize 1460, .windowScale 7,
      .sackPermitted, .sack [], .sack [(1, 2), (3, 4), (5, 6), (7, 8)], .timestamp 1 2, .userTimeout 300],
    (let s := walking 3 (20 + optSize e) (optBytes e)
     e.wellFormed = true ∧ s.walk.base + s.walk.hl ≤ s.pbuf.size ∧ s.walk.p + optSize e ≤ s.walk.hl ∧
      bytesAt s.pbuf (s.walk.base + s.walk.p) (optBytes e)) := by decide +kernel

/-- OptionRoundsTouchOnlyTheWalk: each option kind answers a next state. -/
theorem witness_option_frame : ∀ x ∈ [(Instr.optEol, ([0] : List Byte)), (.optNop, [1]), (.optMss, [2, 4, 0, 0]),
      (.optWs, [3, 3, 0]), (.optSackp, [4, 2]), (.optSack, [5, 2]), (.optTs, [8, 10, 0, 0, 0, 0, 0, 0, 0, 0]),
      (.optUto, [28, 4, 0, 0]), (.optAuth, [29]), (.optMptcp, [30])],
    isCommand x.1 = false ∧ goesOn (exec x.1 (walking 3 40 x.2)) = true := by decide +kernel

/-- OptionLengthErrors: every kind with a missing, a wrong and a right length byte. -/
theorem witness_option_length : ∀ x ∈ [(Instr.optMss, (2 : Byte), (3 : Byte), (4 : Byte)), (.optWs, 3, 2, 3),
      (.optSackp, 4, 3, 2), (.optSack, 5, 9, 10), (.optTs, 8, 9, 10), (.optUto, 28, 5, 4)],
    (x.1, x.2.1) ∈ sizedKinds ∧
    (let s := walking 3 21 [x.2.1]
     s.walk.base + s.walk.hl ≤ s.pbuf.size ∧ s.walk.p < s.walk.hl ∧ s.walk.p + 1 = s.walk.hl) ∧
    (let s := walking 3 30 [x.2.1, x.2.2.1]
     s.walk.base + s.walk.hl ≤ s.pbuf.size ∧ s.walk.p < s.walk.hl ∧
      cellGet s.pbuf.bytes (s.walk.base + s.walk.p + 1) = some x.2.2.1 ∧ badLength x.2.1 x.2.2.1) ∧
    (let s := walking 3 30 [x.2.1, x.2.2.2, 0, 0, 0, 0, 0, 0, 0, 0]
     cellGet s.pbuf.bytes (s.walk.base + s.walk.p + 1) = some x.2.2.2 ∧ ¬badLength x.2.1 x.2.2.2 ∧
      s.walk.p + x.2.2.2.toNat ≤ s.walk.hl ∧ goesOn (exec x.1 s) = true) := by decide +kernel

/-- TcpEncodeSucceeds: no option, V-F1's, and the longest header, each with exactly the space it asks for, and addresses
on both sides. -/
theorem witness_tcp_encode :
    (∃ s : State, inRange s ∧ tcpValid s [] ∧ 4 * s.tcph.doff.toNat ≤ s.latch.len.toNat) ∧
    (∃ s : State, inRange s ∧ tcpValid s optsF1 ∧ 4 * s.tcph.doff.toNat ≤ s.latch.len.toNat) ∧
    (∃ s : State, inRange s ∧ tcpValid s maxOpts ∧ 4 * s.tcph.doff.toNat ≤ s.latch.len.toNat ∧
      0 < s.latch.start.toNat ∧ s.latch.start.toNat + 4 * s.tcph.doff.toNat ≤ 61) :=
  ⟨⟨issued (withNone State.reset) 4 0 20 0, by decide, tcpValid_issued (tcpValid_none _) _ _ _ _, by decide⟩,
   ⟨issued (withF1 State.reset) 4 0 24 0, by decide, tcpValid_issued (tcpValid_f1 _) _ _ _ _, by decide⟩,
   ⟨issued (withMax State.reset) 4 1 60 0, by decide, tcpValid_issued (tcpValid_max _) _ _ _ _, by decide, by decide, by decide⟩⟩

/-- An encoder or TCP_CSUM over V-F1's fields whose option entry 0 begins with `w`. -/
def badEntry (w : Word) : State := issued { withF1 State.reset with opt := [(0, w)] } 4 0 44 0

/-- EncodersRefuseBadOptionLists: what TCP_ENCODE and FRAME_ENCODE ask for (TCP_CSUM asks nothing more). -/
theorem witness_bad_option_lists_state (w : Word) : inRange (badEntry w) ∧ 5 ≤ (badEntry w).tcph.doff.toNat ∧
    (badEntry w).optcnt.toNat = 1 ∧ 4 * (badEntry w).tcph.doff.toNat ≤ (badEntry w).latch.len.toNat ∧
    (badEntry w).iph.ihl = 5 ∧ (badEntry w).iph.frag ≠ 3 ∧ (badEntry w).iph.totlen.toNat ≤ (badEntry w).latch.len.toNat ∧
    (badEntry w).iph.totlen.toNat = 20 + 4 * (badEntry w).tcph.doff.toNat + (badEntry w).latch.aux.toNat ∧
    cellGet (badEntry w).opt (12 * 0) = some w := by
  refine ⟨?_, ?_, rfl, ?_, rfl, ?_, ?_, rfl, rfl⟩
  · show 0 + 44 ≤ 65536; decide
  · show 5 ≤ 6; decide
  · show 4 * 6 ≤ 44; decide
  · show (1 : BitVec 2) ≠ 3; decide
  · show 44 ≤ 44; decide

/-- EncodersRefuseBadOptionLists: a bad kind of each sort, and a list of one WindowScale where 4 bytes are to be filled. -/
theorem witness_bad_option_lists : (29 : Word).extractLsb' 0 8 = (29 : Byte) ∧ (30 : Word).extractLsb' 0 8 = (30 : Byte) ∧
    (6 : Word).extractLsb' 0 8 ∉ encodableKinds ∧ (3 : Word).extractLsb' 0 8 ∈ encodableKinds ∧
    ([(3 : Word)].map entrySize).sum ≠ 4 * 6 - 20 := by decide

/-- TcpRoundTrip: the longest header. -/
theorem witness_tcp_round_trip :
    ∃ s : State, inRange s ∧ tcpValid s maxOpts ∧ 4 * s.tcph.doff.toNat ≤ s.latch.len.toNat ∧
      4 * s.tcph.doff.toNat ≤ (60 : Word).toNat ∧ s.latch.start.toNat + (60 : Word).toNat ≤ s.pbuf.size :=
  ⟨issued (withMax State.reset) 4 65476 60 0, by decide, tcpValid_issued (tcpValid_max _) _ _ _ _, by decide, by decide, by decide⟩

/-! #### Checksums -/

/-- FoldIsTheCarryFold: both sides of 0xFFFF; ChecksumClosedForm: an input of the greatest length. -/
theorem witness_fold : 0xFFFF < 0x10000 ∧ 0xFFFF ≤ 0xFFFF ∧
    (List.replicate (12 + 0xFFFF) (0xFF : Byte)).length ≤ 12 + 0xFFFF := by
  refine ⟨by decide, by decide, ?_⟩
  rw [List.length_replicate]

/-- IpCsumResult: a legal and the illegal IPH_FRAG. -/
theorem witness_ip_csum : (withF1 State.reset).iph.frag ≠ 3 ∧
    ({ withF1 State.reset with iph := { ipF1 with frag := 3 } } : State).iph.frag = 3 := by decide

/-- V-F1's header registers over a payload at index 0. -/
def csumOver (pay : List Byte) : State :=
  issued (withF1 (loaded 0 pay)) 6 0 (BitVec.ofNat 32 pay.length) 0

theorem bytesAt_csumOver (pay : List Byte) : bytesAt (csumOver pay).pbuf (csumOver pay).latch.start.toNat pay :=
  fun i h => cellGet_putList_in [] 0 i pay h

/-- TcpCsumSucceeds: V-F1's header over no payload and over the longest that fits. -/
theorem witness_tcp_csum : ∀ n ∈ [0, 65511], ∃ pay : List Byte, pay.length = n ∧ inRange (csumOver pay) ∧
    tcpValid (csumOver pay) optsF1 ∧ pay.length = (csumOver pay).latch.len.toNat ∧
    bytesAt (csumOver pay).pbuf (csumOver pay).latch.start.toNat pay ∧
    4 * (csumOver pay).tcph.doff.toNat + pay.length ≤ 0xFFFF := by
  intro n hn
  have hn' : n ≤ 65511 := by simp at hn; omega
  refine ⟨List.replicate n 0, List.length_replicate, ?_⟩
  have hl : (List.replicate n (0 : Byte)).length = n := List.length_replicate
  generalize List.replicate n (0 : Byte) = pay at hl
  have e : (csumOver pay).latch.len.toNat = n := by
    show (BitVec.ofNat 32 pay.length).toNat = n
    rw [hl, BitVec.toNat_ofNat]; omega
  refine ⟨?_, tcpValid_issued (tcpValid_f1 (loaded 0 pay)) 6 0 (BitVec.ofNat 32 pay.length) 0, by rw [e, hl],
    bytesAt_csumOver pay, ?_⟩
  · show 0 + (csumOver pay).latch.len.toNat ≤ 65536
    omega
  · show 24 + pay.length ≤ 65535
    omega

/-- TcpCsumErrors: each clause at its boundary. -/
theorem witness_tcp_csum_errors :
    (let s := issued State.reset 6 65535 2 0
     s.pbuf.size < s.latch.start.toNat + s.latch.len.toNat) ∧
    (let s := issued { State.reset with tcph := { tcpF1 with doff := 4 } } 6 0 0 0
     inRange s ∧ s.tcph.doff.toNat < 5) ∧
    (let s := issued { State.reset with tcph := tcpF1, optcnt := 41 } 6 0 0 0
     inRange s ∧ 5 ≤ s.tcph.doff.toNat ∧ 40 < s.optcnt.toNat) ∧
    (∃ s : State, inRange s ∧ tcpValid s optsF1 ∧ 0xFFFF < 4 * s.tcph.doff.toNat + s.latch.len.toNat) :=
  ⟨by decide, by decide, by decide, ⟨issued (withF1 State.reset) 6 0 65512 0, by decide, tcpValid_issued (tcpValid_f1 _) _ _ _ _, by decide⟩⟩

/-- FlippedBitChangesTheChecksum: the last bit of the last byte. -/
theorem witness_flip : 43 < f1.length ∧ 7 < 8 := by decide

/-- StampedHeaderVerifies. -/
theorem witness_stamp : (withF1 State.reset).iph.frag ≠ 3 := by decide

/-! #### Dispatcher and frame encoder -/

/-- DispatchDrops: each clause at its boundary. -/
theorem witness_drops :
    (let s := issued (loaded 0 f1) 7 0 39 0
     inRange s ∧ s.latch.len.toNat < 40) ∧
    (let s := issued (loaded 0 (f1.set 0 0x65)) 7 0 40 0
     inRange s ∧ 40 ≤ s.latch.len.toNat ∧ cellGet s.pbuf.bytes s.latch.start.toNat = some 0x65 ∧
      (0x65 : Byte).extractLsb' 4 4 ≠ (4 : BitVec 4)) ∧
    (let s := issued (loaded 0 (f1.set 9 17)) 7 0 40 0
     inRange s ∧ 40 ≤ s.latch.len.toNat ∧ cellGet s.pbuf.bytes s.latch.start.toNat = some 0x45 ∧
      (0x45 : Byte).extractLsb' 4 4 = (4 : BitVec 4) ∧ cellGet s.pbuf.bytes (s.latch.start.toNat + 9) = some 17 ∧
      (17 : Byte) ≠ 6) ∧
    (let s := issued (loaded 0 (f1.set 23 0x91)) 7 0 44 0
     inRange s ∧ cellGet s.pbuf.bytes (s.latch.start.toNat + 9) = some 6 ∧ 5 ≤ (0x45 : Byte).toNat % 16 ∧
      4 * ((0x45 : Byte).toNat % 16) + 4 ≤ s.latch.len.toNat ∧
      cellGet s.pbuf.bytes (s.latch.start.toNat + 4 * ((0x45 : Byte).toNat % 16) + 2) = some 0x1F ∧
      cellGet s.pbuf.bytes (s.latch.start.toNat + 4 * ((0x45 : Byte).toNat % 16) + 3) = some 0x91 ∧
      (0x1F : Byte) ++ (0x91 : Byte) ≠ s.localPort) := by decide +kernel

/-- DispatchErrors: BOUNDS, and a header length of 4 and of 10 words in 43 bytes. -/
theorem witness_dispatch_errors :
    (let s := issued (loaded 0 f1) 7 65493 44 0
     s.pbuf.size < s.latch.start.toNat + s.latch.len.toNat) ∧
    (∀ b ∈ [(0x44 : Byte), 0x4A],
      let s := issued (loaded 0 (f1.set 0 b)) 7 0 43 0
      inRange s ∧ 40 ≤ s.latch.len.toNat ∧ cellGet s.pbuf.bytes s.latch.start.toNat = some b ∧
        cellGet s.pbuf.bytes (s.latch.start.toNat + 9) = some 6 ∧ b.extractLsb' 4 4 = (4 : BitVec 4) ∧
        (b.toNat % 16 < 5 ∨ s.latch.len.toNat < 4 * (b.toNat % 16) + 4)) := by decide +kernel

theorem bytesAt_loaded (x y : List Byte) (op : BitVec 4) (start len aux : Word) :
    bytesAt (issued (loaded 0 (x ++ y)) op start len aux).pbuf 0 x ∧
    bytesAt (issued (loaded 0 (x ++ y)) op start len aux).pbuf (0 + x.length) y := by
  rw [← bytesAt_append]
  exact bytesAt_putList _ 0 (x ++ y)

/-- A frame of 44 bytes with V-F1's headers but for the fragment bits, the total length and the data offset. -/
def frameWith (df mf : Bool) (totlen : Half) (doff : BitVec 4) : State :=
  issued (loaded 0 (ipRaw 4 true df mf { ipF1 with totlen := totlen } ++ tcpWire { tcpF1 with doff := doff } 0)) 7 0 44 0

/-- DispatchErrors: the hypotheses its last three clauses share, whatever the fragment bits, total length and data
offset. -/
theorem witness_dispatch_headers (df mf : Bool) (totlen : Half) (doff : BitVec 4) :
    bytesAt (frameWith df mf totlen doff).pbuf 0 (ipRaw 4 true df mf { ipF1 with totlen := totlen }) ∧
    bytesAt (frameWith df mf totlen doff).pbuf 20 (tcpWire { tcpF1 with doff := doff } 0) := by
  exact bytesAt_loaded _ _ _ _ _ _

/-- DispatchErrors: the rest of these hypotheses, and each of the three clauses at its boundary: both fragment bits; a
total length of 45 and of 39; a data offset of 4 and of 7. -/
theorem witness_dispatch_header_errors :
    inRange (frameWith true true 44 6) ∧ 40 ≤ (frameWith true true 44 6).latch.len.toNat ∧ ipF1.proto = 6 ∧
    5 ≤ ipF1.ihl.toNat ∧ 4 * ipF1.ihl.toNat + 4 ≤ (frameWith true true 44 6).latch.len.toNat ∧
    bytesAt (frameWith true true 44 6).pbuf (0 + 4 * ipF1.ihl.toNat + 2) [0x1F, 0x90] ∧
    (frameWith true true 44 6).localPort = 0x1F90 ∧
    44 < (45 : Half).toNat ∧ (39 : Half).toNat < 4 * ipF1.ihl.toNat + 20 ∧
    ((4 : BitVec 4).toNat < 5 ∧ 4 * ipF1.ihl.toNat + 20 ≤ (44 : Half).toNat) ∧
    (44 : Half).toNat - 4 * ipF1.ihl.toNat < 4 * (7 : BitVec 4).toNat := by decide +kernel

/-- A frame of 44 bytes with V-F1's headers, a NoOp and then the option bytes `k` and `l` in place of its option. -/
def frameBadOption (k l : Byte) : State :=
  issued (loaded 0 (ipRaw 4 false true false ipF1 ++ ((tcpWire tcpF1 0 ++ wireBytes [.noOp] ++ [k]) ++ [l, 0]))) 7 0 44 0

/-- DispatchErrors: a bad option of any sort behind a good one. -/
theorem witness_dispatch_bad_option (k l : Byte) :
    inRange (frameBadOption k l) ∧ (frameBadOption k l).latch.start.toNat = 0 ∧
    bytesAt (frameBadOption k l).pbuf 0 (ipRaw 4 false true false ipF1) ∧
    bytesAt (frameBadOption k l).pbuf (0 + 4 * ipF1.ihl.toNat) (tcpWire tcpF1 0 ++ wireBytes [.noOp] ++ [k]) ∧
    tcpF1.dport = (frameBadOption k l).localPort ∧ ipF1.totlen.toNat ≤ (frameBadOption k l).latch.len.toNat ∧
    cellGet (frameBadOption k l).pbuf.bytes (0 + 4 * ipF1.ihl.toNat + 21 + 1) = some l := by
  have h := bytesAt_loaded (ipRaw 4 false true false ipF1) ((tcpWire tcpF1 0 ++ wireBytes [.noOp] ++ [k]) ++ [l, 0])
    7 0 44 0
  have ht := bytesAt_append.1 h.2
  exact ⟨show 0 + 44 ≤ 65536 by omega, rfl, h.1, ht.1, rfl, show 44 ≤ 44 by omega, ht.2 0 (show 0 < 2 by omega)⟩

/-- DispatchErrors: the rest of these hypotheses: an unknown kind, a wrong length byte and one that runs past the
header. -/
theorem witness_dispatch_bad_option_sizes :
    ipF1.proto = 6 ∧ 5 ≤ ipF1.ihl.toNat ∧ 5 ≤ tcpF1.doff.toNat ∧ optsOk [.noOp] ∧
    4 * ipF1.ihl.toNat + 4 * tcpF1.doff.toNat ≤ ipF1.totlen.toNat ∧ 21 = 20 + wireSize [.noOp] ∧
    21 < 4 * tcpF1.doff.toNat ∧ (6 : Byte) ∉ encodableKinds ∧ badLength 2 5 ∧
    4 * tcpF1.doff.toNat < 21 + (10 : Byte).toNat ∧ (2 : Byte) ∈ sizedKinds.map Prod.snd ∧
    (8 : Byte) ∈ sizedKinds.map Prod.snd := by decide

/-- V-F1 as a frame of 44 bytes and of 45, one of them behind it. -/
def frameF1 (n : Word) : State := issued (loaded 0 f1) 7 0 n 0

/-- DispatchAccepts: V-F1. -/
theorem witness_accept : bytesAt (frameF1 44).pbuf 0 (ipRaw 4 false true false ipF1) ∧
    ipF1.frag = fragOf true false ∧ ipF1.proto = 6 ∧ 5 ≤ ipF1.ihl.toNat ∧
    bytesAt (frameF1 44).pbuf (0 + 4 * ipF1.ihl.toNat) (tcpWire tcpF1 0 ++ wireBytes optsF1) ∧ optsOk optsF1 ∧
    tcpF1.dport = (frameF1 44).localPort ∧ 5 ≤ tcpF1.doff.toNat ∧ 20 + wireSize optsF1 = 4 * tcpF1.doff.toNat ∧
    4 * ipF1.ihl.toNat + 4 * tcpF1.doff.toNat ≤ ipF1.totlen.toNat := by
  refine ⟨by decide +kernel, rfl, rfl, by decide, by decide +kernel, by decide, rfl, by decide, rfl, by decide⟩

/-- DispatchAccepts: a frame of exactly its total length, and one byte longer. -/
theorem witness_accept_length : inRange (frameF1 44) ∧ (frameF1 44).latch.start.toNat = 0 ∧
    ipF1.totlen.toNat ≤ (frameF1 44).latch.len.toNat ∧ inRange (frameF1 45) ∧ (frameF1 45).latch.start.toNat = 0 ∧
    ipF1.totlen.toNat ≤ (frameF1 45).latch.len.toNat := by decide

/-- AcceptedFlowKey and AcceptedPayloadLiesInsideTheFrame: V-F1 is accepted. -/
theorem witness_accepted : exec .dispatch (frameF1 45) = .next (after (exec .dispatch (frameF1 45))) ∧
    (after (exec .dispatch (frameF1 45))).status.disp = 1 ∧ (frameF1 45).pbuf.size < 2 ^ 32 :=
  ⟨next_of_goesOn (by decide +kernel), by decide +kernel,
    by simp [frameF1, issued, issue, loaded, State.reset, State.resetWith, Config.pbufSize, pbufPutList]⟩

/-- FrameEncodeSucceeds and EncodedFrameIsAccepted: V-F1's fields and the longest header, without payload and with
five bytes of it. -/
theorem witness_frame_encode :
    (∃ s : State, inRange s ∧ tcpValid s optsF1 ∧ s.iph.ihl = 5 ∧ s.iph.frag ≠ 3 ∧ s.iph.proto = 6 ∧
      s.iph.totlen.toNat = 20 + 4 * s.tcph.doff.toNat + s.latch.aux.toNat ∧ s.iph.totlen.toNat ≤ s.latch.len.toNat ∧
      s.tcph.dport = s.localPort ∧ s.latch.aux = 0) ∧
    (∃ s : State, inRange s ∧ tcpValid s maxOpts ∧ s.iph.ihl = 5 ∧ s.iph.frag ≠ 3 ∧ s.iph.proto = 6 ∧
      s.iph.totlen.toNat = 20 + 4 * s.tcph.doff.toNat + s.latch.aux.toNat ∧ s.iph.totlen.toNat ≤ s.latch.len.toNat ∧
      s.tcph.dport = s.localPort ∧ s.latch.aux = 5) :=
  ⟨⟨issued (withF1 (loaded 0 [])) 8 0 44 0, by decide, tcpValid_issued (tcpValid_f1 _) _ _ _ _, by decide, by decide, by decide, by decide,
    by decide, by decide, by decide⟩,
   ⟨{ issued (withMax (loaded 0 [])) 8 65451 85 5 with iph := { ipF1 with totlen := 85 } }, by decide,
    tcpValid_issued (tcpValid_max (loaded 0 [])) 8 65451 85 5, by decide, by decide, by decide, by decide, by decide, by decide, by decide⟩⟩

/-- FrameEncodeErrors: each clause at its boundary. -/
theorem witness_frame_encode_errors :
    (let s := issued (withF1 State.reset) 8 65493 44 0
     s.pbuf.size < s.latch.start.toNat + s.latch.len.toNat) ∧
    (let s := issued (withF1 State.reset) 8 0 44 1
     inRange s ∧ s.iph.totlen.toNat ≠ 4 * s.iph.ihl.toNat + 4 * s.tcph.doff.toNat + s.latch.aux.toNat) ∧
    (∀ x ∈ [({ ipF1 with ihl := 6, totlen := 48 }, tcpF1, (0 : BitVec 6), (44 : Word)),
        (ipF1, tcpF1, 0, 43), ({ ipF1 with frag := 3 }, tcpF1, 0, 44),
        ({ ipF1 with totlen := 36 }, { tcpF1 with doff := 4 }, 0, 36), (ipF1, tcpF1, 41, 44)],
      let s := issued { State.reset with iph := x.1, tcph := x.2.1, optcnt := x.2.2.1 } 8 0 x.2.2.2 0
      inRange s ∧ s.iph.totlen.toNat = 4 * s.iph.ihl.toNat + 4 * s.tcph.doff.toNat + s.latch.aux.toNat ∧
        ((s.iph.ihl ≠ 5 ∨ s.iph.totlen.toNat < 20) ∨
          (s.iph.ihl = 5 ∧ 20 ≤ s.iph.totlen.toNat ∧
            (s.latch.len.toNat < s.iph.totlen.toNat ∨
              (s.iph.totlen.toNat ≤ s.latch.len.toNat ∧
                (s.iph.frag = 3 ∨ (s.iph.frag ≠ 3 ∧
                  (s.tcph.doff.toNat < 5 ∨ (5 ≤ s.tcph.doff.toNat ∧ 40 < s.optcnt.toNat))))))))) := by decide +kernel

/-! #### Whole-machine statements -/

/-- StatusStaysConsistent and MemoryStaysCanonical: the state after reset, and a running command that completes. -/
theorem witness_invariants : statusInv State.reset ∧ latchInv State.reset ∧ memWf State.reset ∧
    statusInv (issue State.reset 5) ∧ latchInv (issue State.reset 5) ∧ memWf (issue State.reset 5) ∧
    goesOn (step State.reset) = true ∧ goesOn (step (issue State.reset 5)) = true :=
  ⟨by decide, by decide, memWf_reset, by decide, by decide, memWf_reset, by decide +kernel, by decide +kernel⟩

/-- A running TCP_DECODE of V-F1 whose walk has just begun. -/
def walkF1 : State := after (step (setSched (issued (loaded 0 f1) 3 20 24 0) [.walk]))

theorem walkF1_eq : walkF1 =
    { issued (loaded 0 f1) 3 20 24 0 with walk := { active := true, base := 20, hl := 24, p := 20, opts := [] } } := by
  decide +kernel

/-- WalkStaysPartOfTheCommand and WalkTurnsAreInvisible: a walk under way, whose next turn answers. -/
theorem witness_walk_inv : walkInv walkF1 ∧ walkF1.walk.active = true ∧ goesOn (walkTurn walkF1) = true := by
  refine ⟨?_, by rw [walkF1_eq], by decide +kernel⟩
  rw [walkF1_eq]
  intro _
  refine ⟨rfl, .inl rfl, by decide +kernel, by decide, ?_⟩
  show optWalk _ 20 24 24 20 = (do let r ← optWalk _ 20 24 24 20; pure ([] ++ r))
  cases optWalk _ 20 24 24 20 <;> rfl

/-- OnlyCompletionOrResetEndsBusy: each of the three ways. -/
theorem witness_busy_ends :
    (∀ s ∈ [setSched (issue State.reset 5) [.engine], setSched (walking 3 24 [29]) [.walk],
        setSched (issue State.reset 5) [.reset]],
      s.status.busy = true ∧ goesOn (step s) = true ∧ (after (step s)).status.busy = false) := by decide +kernel

/-- HostTurnsKeepResults: a host turn while a command runs that answers. -/
theorem witness_host_turn :
    (let s := setHost (setSched (issue State.reset 5) [.host])
       { prog := [.regWrite 0x00C (.const 7)], pos := 0, temps := [], received := [] }
     nextTurn s = .host ∧ s.status.busy = true ∧ goesOn (step s) = true) := by decide +kernel

end Sys2Proof.Tests
end

section
/-!
PROOFS. The register file of 10_state.md section 2: where each register lies, what a write to one leaves of the others,
the bits of STATUS (R24, R25), the widths (R22) and the hardwired version (R38).
-/
namespace Sys2Proof.Machine

variable {s : State} {q r : Reg} {v : Word}

/-! ### Where a register lies -/

/-- The option words that exist (10_state.md R44). -/
theorem wellFormed_opt {i w : Nat} : (Reg.opt i w).wellFormed = true ↔ i < 40 ∧ w < 11 := by
  simp only [Reg.wellFormed, Bool.and_eq_true, decide_eq_true_eq]
  rfl

theorem regAt_regOffset (hw : r.wellFormed = true) (hr : r ≠ .reserved) : regAt (regOffset r) = r := by
  cases r with
  | opt i w =>
    obtain ⟨hi, hw⟩ := wellFormed_opt.1 hw
    exact regAt_opt hi hw
  | reserved => exact absurd rfl hr
  | _ => rfl

theorem regOffsetOk_regOffset (hw : r.wellFormed = true) : regOffsetOk (regOffset r) = true := by
  cases r with
  | opt i w =>
    obtain ⟨hi, hw⟩ := wellFormed_opt.1 hw
    change regOffsetOk (0x100 + 0x30 * i + 4 * w) = true
    simp only [regOffsetOk, Bool.and_eq_true, beq_iff_eq, decide_eq_true_eq]
    omega
  | _ => rfl

/-- The keys of two existing option words are equal only if the words are the same (10_state.md R44). -/
theorem optKey_inj {i j w x : Nat} (hw : w < 11) (hx : x < 11) (h : optKey i w = optKey j x) : i = j ∧ w = x := by
  simp only [optKey] at h
  omega

/-! ### What a register write leaves alone -/

/-- A write to a register other than CMD neither starts nor ends a command, and no write reaches PBUF
(20_memory.md R81). -/
theorem writeReg_frame (hr : r ≠ .cmd) :
    (writeReg s r v).status.busy = s.status.busy ∧ (writeReg s r v).pbuf = s.pbuf ∧
      (writeReg s r v).latch = s.latch := by
  cases r with
  | cmd => exact absurd rfl hr
  | _ => exact ⟨rfl, rfl, rfl⟩

theorem readReg_setIph (h : IpHeader) (hq : regClass q ≠ .iph) : readReg (setIph s h) q = readReg s q := by
  cases q with
  | iphIhl | iphDscp | iphEcn | iphTotlen | iphId | iphFrag | iphFragoff | iphTtl | iphProto | iphCsum | iphSrc
  | iphDst => exact absurd rfl hq
  | _ => rfl

theorem readReg_setTcph (h : TcpHeader) (n : BitVec 6) (hq : regClass q ≠ .tcph) :
    readReg (setTcph s h n) q = readReg s q := by
  cases q with
  | tcphSport | tcphDport | tcphSeq | tcphAck | tcphDoff | tcphFlags | tcphWin | tcphCsum | tcphUrg | tcphOptcnt =>
    exact absurd rfl hq
  | _ => rfl

theorem readReg_setOpt (o : List (Nat × Word)) (hq : regClass q ≠ .optWord) :
    readReg (setOpt s o) q = readReg s q := by
  cases q with
  | opt i w => exact absurd rfl hq
  | _ => rfl

/-- One IPH field written, the others read as before (10_state.md R37). -/
theorem readReg_writeReg_iph (hr : regClass r = .iph) (hne : q ≠ r) : readReg (writeReg s r v) q = readReg s q := by
  by_cases hq : regClass q = .iph
  · -- each of the twelve fields against each other one: a projection of the updated header
    revert hne
    cases r <;> cases hr <;> cases q <;> cases hq <;> simp [writeReg, readReg]
  · obtain ⟨h, he⟩ : ∃ h, writeReg s r v = setIph s h := by
      cases r <;> cases hr <;> exact ⟨_, rfl⟩
    rw [he, readReg_setIph h hq]

/-- One TCPH field written, the others read as before (10_state.md R40). -/
theorem readReg_writeReg_tcph (hr : regClass r = .tcph) (hne : q ≠ r) : readReg (writeReg s r v) q = readReg s q := by
  by_cases hq : regClass q = .tcph
  · -- each of the ten fields against each other one: a projection of the updated header
    revert hne
    cases r <;> cases hr <;> cases q <;> cases hq <;> simp [writeReg, readReg]
  · obtain ⟨h, n, he⟩ : ∃ h n, writeReg s r v = setTcph s h n := by
      cases r <;> cases hr <;> exact ⟨_, _, rfl⟩
    rw [he, readReg_setTcph h n hq]

/-- One option word written, every other one reads as before, written or not (10_state.md R44). -/
theorem readReg_writeReg_opt {i w : Nat} (hr : (Reg.opt i w).wellFormed = true) (hw : q.wellFormed = true)
    (hne : q ≠ .opt i w) : readReg (writeReg s (.opt i w) v) q = readReg s q := by
  cases q with
  | opt j x =>
    have hk : optKey j x ≠ optKey i w := fun h => by
      obtain ⟨rfl, rfl⟩ := optKey_inj (wellFormed_opt.1 hw).2 (wellFormed_opt.1 hr).2 h
      exact hne rfl
    simp only [readReg, writeReg, setOpt_opt, cellGet_put_ne _ _ hk]
  | _ => exact readReg_setOpt _ (by simp [regClass])

/-- A register write reaches no other register: reads of these answer as before (20_memory.md R81). -/
theorem readReg_writeReg_ne (hr : r.wellFormed = true) (hc : r ≠ .cmd) (hw : q.wellFormed = true) (hne : q ≠ r) :
    readReg (writeReg s r v) q = readReg s q := by
  cases hcl : regClass r with
  | iph => exact readReg_writeReg_iph hcl hne
  | tcph => exact readReg_writeReg_tcph hcl hne
  | optWord =>
    cases r <;> cases hcl
    exact readReg_writeReg_opt hr hw hne
  | always | bind =>
    revert hc hne
    cases r <;> cases hcl <;> cases q <;> simp [writeReg, readReg, ackStatus]
  | results | flow | reserved => cases r <;> cases hcl <;> rfl

/-! ### What a register reads after a write -/

/-- The read-write registers (10_state.md R22): CTRL and the ARG registers, written at any time, and those whose write
is a hazard while BUSY (70_reset_and_hazards.md R354). -/
def isReadWrite : Reg → Bool
  | .ctrl | .argStart | .argLen | .argAux => true
  | r => hazardous r

/-- The register reads the low bits of the value written, as many as its field has (10_state.md R22). -/
theorem readReg_writeReg_self (hr : isReadWrite r = true) :
    readReg (writeReg s r v) r = .ok ((v.setWidth (regWidth r)).setWidth 32) := by
  cases r with
  | opt i w =>
    simp only [writeReg, readReg, setOpt_opt, cellGet_put_self]
    by_cases h : w = 0
    · subst h; rfl
    · rw [if_neg h, show regWidth (.opt i w) = 32 from if_neg h, BitVec.setWidth_eq, BitVec.setWidth_eq]
  | ctrl => simp [writeReg, readReg, regWidth, BitVec.setWidth_one]
  | cmd | status | resultLen | errInfo | csumResult | fkSrcAddr | fkDstAddr | fkSrcPort | fkDstPort | payloadOff
  | payloadLen | iphVersion | reserved => cases hr
  | _ => simp [writeReg, readReg, regWidth]

/-! ### The ports on a named register -/

theorem regRead_named (hw : r.wellFormed = true) (hr : r ≠ .reserved)
    (hm : s.status.busy = false ∨ mayWriteReg s r = false) (hv : readReg s r = .ok v) :
    regRead s (regOffset r) = .ok (v, s) := by
  have ho := regOffsetOk_regOffset hw
  have ha := regAt_regOffset hw hr
  rcases hm with hb | hm
  · exact regRead_idle ho hb (by rw [ha, hv])
  · exact regRead_exact ho (by rw [ha, hm]) (by rw [ha, hv])

theorem regWrite_named (hw : r.wellFormed = true) (hr : r ≠ .reserved)
    (hh : s.status.busy = false ∨ hazardous r = false) :
    regWrite s (regOffset r) v = .ok (writeReg s r v) := by
  have ha := regAt_regOffset hw hr
  rw [regWrite_idle (regOffsetOk_regOffset hw) (by rw [ha]; rcases hh with h | h <;> simp [h]), ha]

/-- CTRL, the ARG registers, CMD and STATUS are no part of what a command may write, and their write is no hazard
(70_reset_and_hazards.md R353, R354). -/
theorem always_exact (h : regClass r = .always) : mayWriteReg s r = false ∧ hazardous r = false := by
  simp [mayWriteReg, hazardous, h]

/-- Settles O9: the field written keeps its low bits, and the write reaches no other register. -/
theorem registerWriteReadsBack : Obligations.RegisterWriteReadsBack := by
  intro s r v hw hr
  have hrw : isReadWrite r = true := by
    rcases hr with rfl | rfl | rfl | rfl | ⟨-, h | h | h | h⟩
    iterate 4 rfl
    all_goals cases r <;> cases h <;> rfl
  have hany : s.status.busy = false ∨ regClass r = .always := by
    rcases hr with rfl | rfl | rfl | rfl | ⟨hb, -⟩
    iterate 4 exact .inr rfl
    exact .inl hb
  have hc : r ≠ .cmd := by rintro rfl; cases hrw
  have hres : r ≠ .reserved := by rintro rfl; cases hrw
  obtain ⟨hbusy, hpbuf, hlatch⟩ := writeReg_frame (s := s) (v := v) hc
  refine ⟨writeReg s r v, regWrite_named hw hres (hany.imp_right fun h => (always_exact (s := s) h).2),
    regRead_named hw hres ?_ (readReg_writeReg_self hrw), fun q hq hne => readReg_writeReg_ne hw hc hq hne,
    hpbuf, hlatch⟩
  rw [hbusy]
  exact hany.imp_right fun h => (always_exact h).1

/-! ### STATUS -/

/-- The one-bit fields of STATUS (10_state.md R24). -/
theorem statusWord_flags (x : Status) :
    (statusWord x).getLsbD 0 = x.busy ∧ (statusWord x).getLsbD 1 = x.done ∧ (statusWord x).getLsbD 2 = x.err ∧
      (statusWord x).getLsbD 3 = x.ovr ∧ (statusWord x).getLsbD 4 = x.csumOk := by
  refine ⟨?_, ?_, ?_, ?_, ?_⟩ <;> simp only [statusWord, BitVec.getLsbD_append] <;> simp

/-- ERRCODE and DISP stand in their bits of STATUS, the gaps around them are 0 (10_state.md R24). -/
theorem statusWord_codes (x : Status) :
    (statusWord x).extractLsb' 5 3 = 0 ∧ (statusWord x).extractLsb' 8 8 = x.errcode ∧
      (statusWord x).extractLsb' 16 4 = x.disp ∧ (statusWord x).extractLsb' 20 12 = 0 := by
  refine ⟨?_, ?_, ?_, ?_⟩ <;>
    simp (disch := decide) only [statusWord, BitVec.extractLsb'_append_eq_of_le, Nat.reduceSub, extract_append_low,
      BitVec.extractLsb'_eq_self]

/-- Bit 1 of the value written clears DONE and bit 3 clears OVR (10_state.md R25). -/
theorem statusAck_eq (x : Status) (v : Word) : statusAck x v =
    { x with done := if v.getLsbD 1 then false else x.done, ovr := if v.getLsbD 3 then false else x.ovr } := by
  cases h1 : v.getLsbD 1 <;> cases h3 : v.getLsbD 3 <;> simp only [statusAck, h1, h3] <;> simp

theorem statusAck_zero (x : Status) : statusAck x 0 = x := by
  simp [statusAck]

theorem statusAck_done_of_clear {x : Status} (h : x.done = false) : statusAck x 0x2 = x := by
  rw [statusAck_eq]
  simp [← h]

theorem regWrite_status (s : State) (v : Word) : regWrite s 0x004 v = .ok (setStatus s (statusAck s.status v)) :=
  regWrite_named (r := .status) rfl nofun (.inr rfl)

/-- Settles O6: STATUS is in no command's write set, so it reads exactly at any time (70_reset_and_hazards.md R353);
its write acts on DONE and OVR alone. -/
theorem statusPort : Obligations.StatusPort := by
  intro s v
  obtain ⟨hbusy, hdone, herr, hovr, hcsum⟩ := statusWord_flags s.status
  refine ⟨⟨statusWord s.status, regRead_named (r := .status) rfl nofun (.inr rfl) rfl, hbusy, hdone, herr, hovr, hcsum,
    statusWord_codes s.status⟩, ?_, ?_, fun hd => ?_⟩
  · rw [regWrite_status, statusAck_eq]; rfl
  · rw [regWrite_status, statusAck_zero]; rfl
  · rw [regWrite_status, statusAck_done_of_clear hd]; rfl

/-! ### The hardwired version -/

theorem ipBytes_version (z : Bool) (h : IpHeader) :
    ∃ b0 l, ipBytes z h = b0 :: l ∧ b0.extractLsb' 4 4 = 4#4 :=
  ⟨_, _, rfl, extract_append_high _ _⟩

/-- The first of the bytes read is the byte at the index they are read from. -/
theorem readByte_of_readBytes {m : PacketBuffer} {a n : Nat} {bs : List Byte} (h : readBytes m a (n + 1) = .ok bs) :
    readByte m a = .ok (byteAt bs 0) := by
  simp only [readBytes, bind_eq_ok, pure_eq_ok, Except.ok.injEq] at h
  obtain ⟨b, hb, _, -, rfl⟩ := h
  exact hb

/-- A header that parses has version 4 (40_ipv4_codec.md R151). -/
theorem ipParse_version {m : PacketBuffer} {a n hl : Nat} {h : IpHeader} (hp : ipParse m a n = .ok (h, hl)) :
    ∃ b0, readByte m a = .ok b0 ∧ b0.extractLsb' 4 4 = 4#4 := by
  simp only [ipParse, bind_eq_ok, failIf_eq_ok, ne_eq, not_not] at hp
  obtain ⟨-, -, b, hb, -, hv, -⟩ := hp
  exact ⟨byteAt b 0, readByte_of_readBytes hb, hv⟩

/-- An IP_DECODE that ends without an error has parsed a header: it never drops (43_dispatcher.md R262), and an error
commit sets ERR (60_exceptions.md R304). -/
theorem execIpDecode_parsed {t : State} (h : exec .ipDecode s = .next t) (he : t.status.err = false) :
    ∃ ip hl, ipParse s.pbuf s.latch.start.toNat s.latch.len.toNat = .ok (ip, hl) := by
  rcases finish_cases (r := bodyIpDecode s) h with ⟨w, c, hb, -⟩ | ⟨e, i, -, rfl⟩ | ⟨d, hb, -⟩
  · obtain ⟨-, -, ip, hl, hp, -⟩ := bodyIpDecode_ok hb
    exact ⟨ip, hl, hp⟩
  · cases he
  · exact absurd rfl (bodyIpDecode_plain _ hb d)

/-- Settles O7: IPH_VERSION has no storage, every image begins with the nibble 4, and a header that parses has it. -/
theorem versionIsHardwired : Obligations.VersionIsHardwired := by
  refine ⟨fun s => regRead_named (r := .iphVersion) rfl nofun (.inr rfl) rfl,
    fun s v => regWrite_named (r := .iphVersion) rfl nofun (.inr rfl), fun z h b hb => ?_, fun s t h he => ?_⟩
  · obtain ⟨-, rfl⟩ := ipImage_eq_ok.1 hb
    exact ipBytes_version z h
  · obtain ⟨ip, hl, hp⟩ := execIpDecode_parsed h he
    exact ipParse_version hp

end Sys2Proof.Machine
end

section
/-!
PROOFS. The host's byte port on PBUF while the block is idle (20_memory.md R82, R83).
-/
namespace Sys2Proof.Machine

variable {s : State} {i j : Nat} {b : Byte}

/-- The byte just written reads back and is marked written (20_memory.md R83). -/
theorem readByte_put_self {m : PacketBuffer} (hi : i < m.size) : readByte (pbufPut m i b) i = .ok b :=
  readByte_of_get hi (cellGet_put_self m.bytes i b)

/-- A byte write reaches no other byte: written or not, these read as before (20_memory.md R83). -/
theorem readByte_put_ne (m : PacketBuffer) (h : j ≠ i) : readByte (pbufPut m i b) j = readByte m j := by
  unfold readByte
  rw [pbufPut_size, pbufPut_bytes, cellGet_put_ne _ _ h]

/-- An idle block lets the host write every byte of PBUF (20_memory.md R83). -/
theorem bufWrite_idle (hi : i < s.pbuf.size) (hb : s.status.busy = false) :
    bufWrite s i b = .ok (setPbuf s (pbufPut s.pbuf i b)) := by
  simp [bufWrite, hi, hb]

/-- Where the block is idle the host reads the byte the engine would read (20_memory.md R82). -/
theorem bufRead_idle (hb : s.status.busy = false) (h : readByte s.pbuf i = .ok b) : bufRead s i = .ok (b, s) := by
  obtain ⟨hi, hg⟩ := readByte_eq_ok.1 h
  simp [bufRead, hi, hb, hg]

/-- Settles O10: the write is one `pbufPut`, which leaves the block idle, so that the byte reads back at once. -/
theorem bufferWriteReadsBack : Obligations.BufferWriteReadsBack := by
  intro s i b hi hb
  exact ⟨setPbuf s (pbufPut s.pbuf i b), bufWrite_idle hi hb, bufRead_idle hb (readByte_put_self hi),
    fun j hj => readByte_put_ne s.pbuf hj, rfl⟩

end Sys2Proof.Machine
end

section
/-!
PROOFS. The command words of 30_encoding.md R120: the decoder sees a word's low four bits alone.
-/
namespace Sys2Proof.Machine

/-- A command word's opcode is its low four bits, whatever stands above them (30_encoding.md R120). -/
theorem opOfWord_append (ignored : BitVec 28) (op : BitVec 4) : opOfWord (ignored ++ op) = op :=
  extract_append_low ignored op

/-- The decoder matches the opcode alone (30_encoding.md R120: "a decoder matches `v[3:0]` alone"). -/
theorem decodeInstr_command_append (ignored : BitVec 28) (op : BitVec 4) :
    decodeInstr (.command (ignored ++ op)) = .ok (decodeOp op) := by
  rw [decodeInstr, decodeCommand, opOfWord_append]

/-- Settles O2: once the ignored bits are gone, what is left is `decodeOp` on the 16 opcodes. -/
theorem commandWordTable : Obligations.CommandWordTable := by
  intro ignored
  simp only [decodeInstr_command_append]
  decide

end Sys2Proof.Machine
end

section
/-!
PROOFS. The carry-fold (42_checksum.md R231) and IP_CSUM, the checksum of the IPH registers' own image (R233).
-/
namespace Sys2Proof.Machine

/-! ### The carry-fold -/

theorem fold_of_le {x : Nat} (h : x ≤ 0xFFFF) : fold x = x := foldLoop_small h

/-- One round of the loop (42_checksum.md R231). -/
theorem fold_of_gt {x : Nat} (h : 0xFFFF < x) : fold x = fold (x % 0x10000 + x / 0x10000) := by
  obtain ⟨k, rfl⟩ := Nat.exists_eq_add_one_of_ne_zero (Nat.ne_zero_of_lt h)
  rw [fold, foldLoop, if_pos h]
  exact foldLoop_fuel (Nat.le_of_lt_succ (carry_lt h)) le_rfl

/-- Induction along the rounds of the fold: from a number that fits 16 bits, back through each carry. -/
theorem fold_induction {P : Nat → Prop} (fits : ∀ x, x ≤ 0xFFFF → P x)
    (carry : ∀ x, 0xFFFF < x → P (x % 0x10000 + x / 0x10000) → P x) (x : Nat) : P x := by
  induction x using Nat.strongRecOn with
  | _ x ih =>
    rcases Nat.lt_or_ge 0xFFFF x with h | h
    · exact carry x h (ih _ (carry_lt h))
    · exact fits x h

theorem fold_le (x : Nat) : fold x ≤ 0xFFFF := by
  induction x using fold_induction with
  | fits x h => rwa [fold_of_le h]
  | carry x h ih => rwa [fold_of_gt h]

/-- No round makes a number 0: above 0xFFFF the high part it adds in is not 0 (42_checksum.md R231). -/
theorem fold_eq_zero_iff (x : Nat) : fold x = 0 ↔ x = 0 := by
  induction x using fold_induction with
  | fits x h => rw [fold_of_le h]
  | carry x h ih => rw [fold_of_gt h, ih]; omega

/-- Settles O40: `fold` unrolled by one round, and two inductions along its rounds. -/
theorem foldIsTheCarryFold : Obligations.FoldIsTheCarryFold :=
  ⟨fun _ => fold_of_gt, fun _ => fold_of_le, fold_le, fold_eq_zero_iff⟩

/-! ### IP_CSUM -/

theorem bytes16_zero : bytes16 0 = [0, 0] := by decide

/-- The image `ipImage(1)` is the header as written with IPH_CSUM = 0 (40_ipv4_codec.md R150). -/
theorem ipBytes_zeroed (h : IpHeader) : ipBytes true h = ipWire { h with csum := 0 } := by
  simp only [ipWire_eq, ipBytes, bytes16_zero, Bool.false_eq_true, if_true, if_false]

theorem ipImage_of_frag_ne (z : Bool) {h : IpHeader} (hf : h.frag ≠ 3) : ipImage z h = .ok (ipBytes z h) :=
  ipImage_eq_ok.2 ⟨hf, rfl⟩

/-- IPH_FRAG = 3 has no image (40_ipv4_codec.md R150). -/
theorem ipImage_of_frag_eq (z : Bool) {h : IpHeader} (hf : h.frag = 3) :
    ipImage z h = .error (.raise .encFrag 0) := by
  rw [ipImage, failIf_pos hf, error_bind]

theorem exec_ipCsum (s : State) : exec .ipCsum s = finish s false (bodyIpCsum s) := rfl

/-- Settles O42: the image is the command's one check, so it decides between the two commits; where there is one, it is
the header with IPH_CSUM = 0. -/
theorem ipCsumResult : Obligations.IpCsumResult := by
  rintro s c rfl
  refine ⟨fun hf => ?_, fun hf => ?_⟩
  · rw [exec_ipCsum, bodyIpCsum, ipImage_of_frag_ne true hf, ok_bind, pure_eq_ok, finish_ok, commitOk_eq,
      ipBytes_zeroed]
    rfl
  · rw [exec_ipCsum, bodyIpCsum, ipImage_of_frag_eq true hf, error_bind, finish_raise, commitErr_eq]
    rfl

end Sys2Proof.Machine
end

section
/-!
PROOFS. The three ways a DISPATCH completes (43_dispatcher.md R260 to R263), the flow key of an accepted frame (R270)
and the illegal opcodes (R285).
-/
namespace Sys2Proof.Machine

variable {s t : State} {m : PacketBuffer} {a n i : Nat} {bs : List Byte} {v : Half}

/-! ### The disposition tells how a DISPATCH ended -/

/-- An error commit in a DISPATCH leaves DISP 6, or 0 for BOUNDS (60_exceptions.md R304). -/
theorem commitErr_dispatch_disp (s : State) (e : Err) (info : Word) :
    (commitErr s e info true).status.disp = 0 ∨ (commitErr s e info true).status.disp = 6 := by
  change dispCode (errDisp true e) = 0 ∨ dispCode (errDisp true e) = 6
  rw [errDisp_eq true e True (by decide)]
  split
  · exact .inr rfl
  · exact .inl rfl

/-- A DISPATCH that ends with DISP 2 to 5 took a drop commit: a success leaves 1, an error 0 or 6
(43_dispatcher.md R262). -/
theorem exec_dispatch_dropped (h : exec .dispatch s = .next t) (h2 : 2 ≤ t.status.disp.toNat)
    (h5 : t.status.disp.toNat ≤ 5) : ∃ d, t = commitDrop s d := by
  rcases finish_cases (r := bodyDispatch s) h with ⟨w, c, -, rfl⟩ | ⟨e, info, -, rfl⟩ | ⟨d, -, ht⟩
  · exact absurd h2 (show ¬2 ≤ 1 by decide)
  · rcases commitErr_dispatch_disp s e info with hd | hd <;> rw [hd] at h2 h5
    · exact absurd h2 (by decide)
    · exact absurd h5 (by decide)
  · exact ⟨d, ht⟩

/-- A DISPATCH that ends with DISP 1 ran its pseudocode to the end: an error leaves 0 or 6, a drop 2 to 5
(43_dispatcher.md R262). -/
theorem exec_dispatch_accepted (h : exec .dispatch s = .next t) (h1 : t.status.disp = 1) :
    ∃ w c, bodyDispatch s = .ok (w, c) ∧ t = commitOk w c true := by
  rcases finish_cases (r := bodyDispatch s) h with hok | ⟨e, info, -, rfl⟩ | ⟨d, hb, rfl⟩
  · exact hok
  · rcases commitErr_dispatch_disp s e info with hd | hd <;> rw [hd] at h1 <;> exact absurd h1 (by decide)
  · have h1 : dispCode d = 1 := h1
    rcases bodyDispatch_drop hb with rfl | rfl | rfl | rfl <;> exact absurd h1 (by decide)

/-- Settles O22: only the drop commit leaves such a disposition. -/
theorem dropCommitEffect : Obligations.DropCommitEffect := by
  intro s t h h2 h5
  obtain ⟨d, rfl⟩ := exec_dispatch_dropped h h2 h5
  exact commitDrop_eq s d

/-! ### The destination port is read twice -/

/-- Every byte of a read stands written at its index. -/
theorem cellGet_of_readBytes (h : readBytes m a n = .ok bs) (hi : i < n) :
    cellGet m.bytes (a + i) = some (byteAt bs i) := by
  obtain ⟨rfl, hb⟩ := readBytes_eq_ok h
  rw [hb i hi, byteAt, List.getD_eq_getElem _ _ hi]

/-- A two-byte read inside a longer one answers the same bytes (00_scope.md R8). -/
theorem be16_of_memRead16 (h : readBytes m a n = .ok bs) (hi : i + 1 < n) (hv : memRead16 m (a + i) = .ok v) :
    be16 bs i = v := by
  simp only [memRead16, bind_eq_ok, pure_eq_ok, Except.ok.injEq] at hv
  obtain ⟨q, hq, rfl⟩ := hv
  have hbyte : ∀ j < 2, byteAt bs (i + j) = byteAt q j := fun j hj => by
    have hq := cellGet_of_readBytes hq hj
    rw [Nat.add_assoc, cellGet_of_readBytes h (by omega)] at hq
    exact Option.some.inj hq
  rw [be16, be16, ← hbyte 0 (by decide), ← hbyte 1 (by decide)]
  rfl

/-- The parsed destination port is the word at offset 2 of the TCP header (30_encoding.md R103). -/
theorem tcpParse_dport {h : TcpHeader} {opts : List TcpOption} {hl : Nat} (hp : tcpParse m a n = .ok (h, opts, hl))
    (hv : memRead16 m (a + 2) = .ok v) : h.dport = v := by
  simp only [tcpParse, tcpFront, bind_eq_ok, pure_eq_ok, Except.ok.injEq, Prod.mk.injEq, Prod.exists] at hp
  obtain ⟨th, thl, ⟨-, -, -, -, -, -, bs, hbs, rfl, -⟩, -, -, rfl, -, -⟩ := hp
  exact be16_of_memRead16 hbs (by decide) hv

/-- Settles O50: the drop check read the frame's destination port as LOCAL_PORT, and the parse reads the same bytes. -/
theorem acceptedFlowKey : Obligations.AcceptedFlowKey := by
  intro s t h h1
  obtain ⟨w, c, hb, rfl⟩ := exec_dispatch_accepted h h1
  obtain ⟨-, ip, iphl, tcp, opts, tcphl, hf, hp, rfl⟩ := bodyDispatch_ok hb
  obtain ⟨-, -, -, hport, -, -⟩ := dispatchFront_ok hf
  exact ⟨rfl, (tcpParse_dport hp hport).symm⟩

/-! ### Illegal opcodes -/

/-- An illegal opcode reads nothing of the state: it is the error commit with its own OP (43_dispatcher.md R285). -/
theorem illegalCommand_eq (op : BitVec 4) (s : State) :
    illegalCommand op s = .next (errorCompletion s .illegalCmd (op.setWidth 32) 0) := by
  rw [illegalCommand, finish_raise, commitErr_eq]
  rfl

/-- A write to CMD of an idle block issues, and CMD reads back the opcode (10_state.md R23; 70_reset_and_hazards.md
R350). -/
theorem cmd_readsBack (hb : s.status.busy = false) (w : Word) :
    regWrite s 0x000 w = .ok (issue s (opOfWord w)) ∧
      regRead (issue s (opOfWord w)) 0x000 = .ok ((opOfWord w).setWidth 32, issue s (opOfWord w)) := by
  refine ⟨?_, regRead_named (r := .cmd) rfl nofun (.inr rfl) rfl⟩
  have hw : writeReg s .cmd w = issue s (opOfWord w) := if_neg (by simp [hb])
  rw [← hw]
  exact regWrite_named (r := .cmd) rfl nofun (.inl hb)

/-- Settles O25: each of the eight is `illegalCommand` of its own opcode. -/
theorem illegalOpcodesComplete : Obligations.IllegalOpcodesComplete := by
  intro s
  exact ⟨illegalCommand_eq 0x0 s, illegalCommand_eq 0x9 s, illegalCommand_eq 0xA s, illegalCommand_eq 0xB s,
    illegalCommand_eq 0xC s, illegalCommand_eq 0xD s, illegalCommand_eq 0xE s, illegalCommand_eq 0xF s,
    fun hb w => ⟨_, cmd_readsBack hb w⟩⟩

end Sys2Proof.Machine
end

section
/-!
PROOFS. What a completion leaves of STATUS and IRQ (60_exceptions.md R304, R310), and that no step but a completion or a
reset ends a command (R312).
-/
namespace Sys2Proof.Machine

variable {s t : State}

/-! ### Completions -/

/-- Settles O21: of the three commits only the error commit sets ERR. -/
theorem errorCommitEffect : Obligations.ErrorCommitEffect := by
  intro i s t hi h he
  rcases exec_command_cases hi h with ⟨w, c, rfl, -⟩ | ⟨e, info, rfl⟩ | ⟨-, d, -, rfl⟩
  · cases he
  · exact ⟨e, info, by rw [commitErr_eq, errDisp_eq _ e (i = .dispatch) decide_eq_true_iff]⟩
  · cases he

theorem irq_eq_true : irq s = true ↔ s.ie = true ∧ s.status.done = true := Bool.and_eq_true_iff

/-- Each of the three commits sets DONE and leaves IE alone, so IRQ is IE after it (60_exceptions.md R310). -/
theorem irq_of_completed {d k : Bool} (h : completed s t d k) :
    t.ie = s.ie ∧ t.status.done = true ∧ irq t = s.ie := by
  obtain ⟨hie, hdone⟩ : t.ie = s.ie ∧ t.status.done = true := by
    rcases h with ⟨w, c, rfl, hw, -⟩ | ⟨e, info, rfl⟩ | ⟨-, x, -, rfl⟩
    · obtain ⟨-, -, hie, -⟩ := hw
      exact ⟨hie, rfl⟩
    · exact ⟨rfl, rfl⟩
    · exact ⟨rfl, rfl⟩
  exact ⟨hie, hdone, by rw [irq, hie, hdone, Bool.and_true]⟩

/-! ### Which turns end a command -/

/-- No register write ends a command: a write to CMD while BUSY only sets OVR (70_reset_and_hazards.md R356). -/
theorem writeReg_busy (r : Reg) (v : Word) (hb : s.status.busy = true) : (writeReg s r v).status.busy = true := by
  by_cases hr : r = .cmd
  · subst hr
    rw [writeReg, if_pos hb]
    exact hb
  · rw [(writeReg_frame hr).1, hb]

/-- No host turn ends a command. -/
theorem hostTurn_busy (h : hostTurn s = .next t) (hb : s.status.busy = true) : t.status.busy = true := by
  obtain ⟨q, c, rfl, hq⟩ := hostTurn_cases h
  rcases hq with rfl | rfl | ⟨i, b, -, -, rfl⟩ | ⟨off, v, -, rfl⟩
  · exact hb
  · exact hb
  · exact hb
  · exact writeReg_busy _ v hb

/-- A walk turn goes on with the command or completes it with an option's error (41_tcp_codec.md R181, log 8). -/
theorem walkTurn_busy_or_completed (h : walkTurn s = .next t) :
    t.status.busy = s.status.busy ∨ completed s t (s.latch.op == 7) false := by
  rcases walkTurn_cases s with hw | ⟨-, -, -, base, hl, -, hw⟩ | ⟨-, -, -, -, hw⟩ <;> rw [hw] at h
  · cases h
    exact .inl rfl
  · cases h
    exact .inl rfl
  · cases hr : optStep s.pbuf s.walk.base s.walk.hl s.walk.p with
    | ok r =>
      rw [hr] at h
      cases h
      exact .inl rfl
    | error e =>
      rw [hr] at h
      exact .inr (completed_of_finish h nofun (no_drop fun _ he => by cases he; exact optStep_plain e hr))

/-- The one way from a busy block to an idle one, but for a reset: the engine's or the walk's turn completes the command
on the state that takes the turn (60_exceptions.md R312). -/
theorem step_completes (h : step s = .next t) (hb : s.status.busy = true) (hi : t.status.busy = false)
    (hr : nextTurn s ≠ .reset) : ∃ q d k, (q = s ∨ ∃ ts, q = setSched s ts) ∧ completed q t d k := by
  obtain ⟨q, hq, ht⟩ := step_cases h
  have hqb : q.status.busy = true := by rcases hq with rfl | ⟨ts, rfl⟩ <;> exact hb
  cases hn : nextTurn s with
  | reset => exact absurd hn hr
  | host =>
    rw [hn] at ht
    rw [hostTurn_busy ht hqb] at hi
    cases hi
  | engine =>
    rw [hn] at ht
    rcases engineTurn_cases ht with ⟨hqi, -⟩ | ⟨-, hx⟩
    · rw [hqb] at hqi
      cases hqi
    · exact ⟨q, _, _, hq, exec_command_cases (isCommand_decodeOp _) hx⟩
  | walk =>
    rw [hn] at ht
    rcases walkTurn_busy_or_completed ht with hk | hc
    · rw [hk, hqb] at hi
      cases hi
    · exact ⟨q, _, _, hq, hc⟩

/-- A write to CTRL is no hazard and sets IE to bit 0 of the value (10_state.md R26). -/
theorem regWrite_ctrl (s : State) (v : Word) : regWrite s 0x008 v = .ok { s with ie := v.getLsbD 0 } :=
  regWrite_named (r := .ctrl) rfl nofun (.inr rfl)

/-- Settles O16: every way to end a command is one of the three commits, and each raises IRQ exactly when IE is set. -/
theorem completionRaisesIrq : Obligations.CompletionRaisesIrq := by
  refine ⟨fun s => irq_eq_true, fun i s t hi h => irq_of_completed (exec_command_cases hi h),
    fun s t h hb hidle hr => ?_, fun s v hd hv => ⟨_, regWrite_ctrl s v, irq_eq_true.2 ⟨hv, hd⟩⟩⟩
  obtain ⟨q, d, k, hq, hc⟩ := step_completes h hb hidle hr
  have hie : q.ie = s.ie := by rcases hq with rfl | ⟨ts, rfl⟩ <;> rfl
  rw [← hie]
  exact irq_of_completed hc

end Sys2Proof.Machine
end

section
/-!
PROOFS. Issue (70_reset_and_hazards.md R350), the host's writes while a command runs (R354, R355), and reset (R340).
-/
namespace Sys2Proof.Machine

variable {s : State} {off i : Nat} {v : Word} {b : Byte}

/-! ### A write to CMD -/

/-- A write to CMD of a busy block only sets OVR (70_reset_and_hazards.md R356). -/
theorem regWrite_cmd_busy (w : Word) (hb : s.status.busy = true) :
    regWrite s 0x000 w = .ok (setStatus s { s.status with ovr := true }) := by
  have hw : writeReg s .cmd w = setStatus s { s.status with ovr := true } := if_pos hb
  rw [← hw]
  exact regWrite_named (r := .cmd) rfl nofun (.inr rfl)

/-- Settles O5: an idle block issues the low four bits of the word, a busy one refuses it. -/
theorem issueLatchesTheOperands : Obligations.IssueLatchesTheOperands := fun s w =>
  ⟨fun hb => ⟨issue s (opOfWord w), (cmd_readsBack hb w).1, rfl⟩, regWrite_cmd_busy w⟩

/-! ### Hazards -/

/-- The legal offsets of the register space (20_memory.md R80). -/
theorem regOffsetOk_iff : regOffsetOk off = true ↔ off % 4 = 0 ∧ off ≤ 0x87C := by
  rw [regOffsetOk, Bool.and_eq_true, beq_iff_eq, decide_eq_true_iff]

theorem regWrite_hazard (ho : regOffsetOk off = true) (hb : s.status.busy = true)
    (hh : hazardous (regAt off) = true) : regWrite s off v = .error (.fault (.hazardReg off)) := by
  rw [regWrite, if_pos ho, hb, hh]
  rfl

theorem bufWrite_hazard (hi : i < s.pbuf.size) (hb : s.status.busy = true) :
    bufWrite s i b = .error (.fault (.hazardBuf i)) := by
  rw [bufWrite, if_pos hi, if_pos hb]

/-- Settles O13: the register map says which offsets are hazardous and which ignore a write. -/
theorem hazardousWritesFault : Obligations.HazardousWritesFault := by
  intro s v b hb
  refine ⟨fun off h4 h hh => regWrite_hazard (regOffsetOk_iff.2 ⟨h4, h⟩) hb (hazardous_of_offset h4 h hh),
    fun i hi => bufWrite_hazard hi hb, fun off h4 h hh => ?_⟩
  obtain ⟨hsafe, hignored⟩ := readOnly_of_offset h4 h hh
  rw [regWrite_idle (regOffsetOk_iff.2 ⟨h4, h⟩) (by rw [hsafe, Bool.and_false]), hignored]

end Sys2Proof.Machine
end

section
/-!
PROOFS. No instruction's meaning depends on the ARG registers (70_reset_and_hazards.md R355): its outcome on a state with
other ARG values is the same outcome with those values kept.
-/
namespace Sys2Proof.Machine

/-- `s` with ARG_START, ARG_LEN and ARG_AUX set. -/
def setArgs (a l x : Word) (s : State) : State := { s with argStart := a, argLen := l, argAux := x }

/-- An outcome with its next state, if it has one, changed by `f`. -/
def mapNext (f : State → State) : Host.Outcome State Fault Refusal → Host.Outcome State Fault Refusal
  | .next t => .next (f t)
  | .fault r => .fault r
  | .refused r => .refused r

/-- The working copy in a command's answer with the ARG registers set. -/
def setArgsAnswer (a l x : Word) (p : State × Bool) : State × Bool := (setArgs a l x p.1, p.2)

variable (s : State) (a l x : Word)

/-! ### The two ways an instruction ends -/

/-- Each of the three commits leaves the ARG registers as they are. -/
theorem finish_setArgs (d : Bool) (r : Except Stop (State × Bool)) :
    finish (setArgs a l x s) d (setArgsAnswer a l x <$> r) = mapNext (setArgs a l x) (finish s d r) := by
  match r with
  | .ok _ | .error (.raise _ _) | .error (.drop _) | .error (.fault _) => rfl

theorem finishOption_setArgs (r : Except Stop (TcpOption × Nat)) :
    finishOption (setArgs a l x s) r = mapNext (setArgs a l x) (finishOption s r) := by
  match r with
  | .ok _ | .error (.raise _ _) | .error (.drop _) | .error (.fault _) => rfl

/-! ### The commands' pseudocode

Each reads the latches, never the ARG registers, and its working copy is the state with other registers written. -/

theorem bodyIpDecode_setArgs : bodyIpDecode (setArgs a l x s) = setArgsAnswer a l x <$> bodyIpDecode s := by
  simp only [bodyIpDecode, map_bind]
  rfl

theorem bodyIpEncode_setArgs : bodyIpEncode (setArgs a l x s) = setArgsAnswer a l x <$> bodyIpEncode s := by
  simp only [bodyIpEncode, map_bind]
  rfl

theorem bodyTcpDecode_setArgs : bodyTcpDecode (setArgs a l x s) = setArgsAnswer a l x <$> bodyTcpDecode s := by
  simp only [bodyTcpDecode, map_bind]
  rfl

theorem bodyTcpEncode_setArgs : bodyTcpEncode (setArgs a l x s) = setArgsAnswer a l x <$> bodyTcpEncode s := by
  simp only [bodyTcpEncode, map_bind]
  rfl

theorem bodyIpCsum_setArgs : bodyIpCsum (setArgs a l x s) = setArgsAnswer a l x <$> bodyIpCsum s := by
  simp only [bodyIpCsum, map_bind]
  rfl

theorem bodyTcpCsum_setArgs : bodyTcpCsum (setArgs a l x s) = setArgsAnswer a l x <$> bodyTcpCsum s := by
  simp only [bodyTcpCsum, map_bind]
  rfl

theorem bodyDispatch_setArgs : bodyDispatch (setArgs a l x s) = setArgsAnswer a l x <$> bodyDispatch s := by
  simp only [bodyDispatch, map_bind]
  rfl

theorem bodyFrameEncode_setArgs : bodyFrameEncode (setArgs a l x s) = setArgsAnswer a l x <$> bodyFrameEncode s := by
  simp only [bodyFrameEncode, map_bind]
  rfl

variable {s a l x} in
/-- A command whose pseudocode commutes with `setArgs` completes the same way whatever the ARG registers hold. -/
theorem finish_body_setArgs (d : Bool) {body : State → Except Stop (State × Bool)}
    (h : body (setArgs a l x s) = setArgsAnswer a l x <$> body s) :
    finish (setArgs a l x s) d (body (setArgs a l x s)) = mapNext (setArgs a l x) (finish s d (body s)) := by
  rw [h, finish_setArgs]

theorem exec_setArgs (i : Instr) : exec i (setArgs a l x s) = mapNext (setArgs a l x) (exec i s) := by
  cases i with
  | ipDecode => exact finish_body_setArgs false (bodyIpDecode_setArgs s a l x)
  | ipEncode => exact finish_body_setArgs false (bodyIpEncode_setArgs s a l x)
  | tcpDecode => exact finish_body_setArgs false (bodyTcpDecode_setArgs s a l x)
  | tcpEncode => exact finish_body_setArgs false (bodyTcpEncode_setArgs s a l x)
  | ipCsum => exact finish_body_setArgs false (bodyIpCsum_setArgs s a l x)
  | tcpCsum => exact finish_body_setArgs false (bodyTcpCsum_setArgs s a l x)
  | dispatch => exact finish_body_setArgs true (bodyDispatch_setArgs s a l x)
  | frameEncode => exact finish_body_setArgs false (bodyFrameEncode_setArgs s a l x)
  | illegal0 | illegal9 | illegalA | illegalB | illegalC | illegalD | illegalE | illegalF => rfl
  | optEol | optNop | optAuth | optMptcp => rfl
  | optMss | optWs | optSackp | optSack | optTs | optUto =>
    exact finishOption_setArgs s a l x _

/-- The write of an ARG register is no hazard (70_reset_and_hazards.md R355). -/
theorem regWrite_arg (v : Word) :
    regWrite s 0x00C v = .ok { s with argStart := v } ∧ regWrite s 0x010 v = .ok { s with argLen := v } ∧
      regWrite s 0x014 v = .ok { s with argAux := v } :=
  ⟨regWrite_named (r := .argStart) rfl nofun (.inr rfl), regWrite_named (r := .argLen) rfl nofun (.inr rfl),
    regWrite_named (r := .argAux) rfl nofun (.inr rfl)⟩

/-- Settles O14: every meaning commutes with setting the ARG registers. -/
theorem argWritesDoNotReachTheRunningCommand : Obligations.ArgWritesDoNotReachTheRunningCommand := by
  refine ⟨fun s v _ => regWrite_arg s v, fun i s a l x => ⟨fun t h => ?_, fun f h => ?_⟩⟩
  all_goals
    have he := exec_setArgs s a l x i
    rw [h] at he
    exact he

end Sys2Proof.Machine
end

section
/-!
PROOFS. The step that takes a reset leaves the reset values, whatever was running (70_reset_and_hazards.md R340).
-/
namespace Sys2Proof.Machine

variable {s : State} {off i : Nat}

/-- A register read that faults ends the host's access, BUSY or not (10_state.md R48, log 7). -/
theorem regRead_fault {f : Fault} (ho : regOffsetOk off = true) (hf : readReg s (regAt off) = .error f) :
    regRead s off = .error (.fault f) := by
  rw [regRead, if_pos ho, hf]

theorem bufRead_unwritten (hi : i < s.pbuf.size) (hg : cellGet s.pbuf.bytes i = none) :
    bufRead s i = .error (.fault (.unwrittenPbuf i)) := by
  rw [bufRead, if_pos hi, hg]

/-- An offset that is no OPT word names no option register: below 0x100 there is none, above it is reserved. -/
theorem regAt_ne_opt (h4 : off % 4 = 0) (h : off ≤ 0x87C) (ho : ¬ isOptWord off) (i w : Nat) :
    regAt off ≠ .opt i w := by
  by_cases hlow : off < 0x100
  · exact regAt_low hlow i w
  · rw [regAt_reserved h4 h (by omega)]
    nofun

/-- Only offset 0x080 names IPH_VERSION (10_state.md R37). -/
theorem regAt_eq_iphVersion (h4 : off % 4 = 0) (h : off ≤ 0x87C) (ho : ¬ isOptWord off) :
    regAt off = .iphVersion ↔ off = 0x080 := by
  by_cases hlow : off < 0x100
  · have key : ∀ off < 0x100, regAt off = .iphVersion ↔ off = 0x080 := by decide +kernel
    exact key off hlow
  · rw [regAt_reserved h4 h (by omega)]
    exact ⟨nofun, fun he => by omega⟩

theorem statusWord_reset : statusWord State.reset.status = 0 := by decide

/-- After a reset every register but the option words reads 0, and IPH_VERSION 4. -/
theorem readReg_resetBlock (s : State) {r : Reg} (hr : ∀ i w, r ≠ .opt i w) :
    readReg (resetBlock s) r = .ok (if r = .iphVersion then 4 else 0) := by
  cases r with
  | opt i w => exact absurd rfl (hr i w)
  | status => exact congrArg Except.ok statusWord_reset
  | _ => rfl

theorem regRead_resetBlock (s : State) (h4 : off % 4 = 0) (h : off ≤ 0x87C) (ho : ¬ isOptWord off) :
    regRead (resetBlock s) off = .ok (if off = 0x080 then 4 else 0, resetBlock s) := by
  have hv := readReg_resetBlock s (regAt_ne_opt h4 h ho)
  simp only [regAt_eq_iphVersion h4 h ho] at hv
  exact regRead_idle (regOffsetOk_iff.2 ⟨h4, h⟩) rfl hv

/-- After a reset every option word is unwritten. -/
theorem regRead_resetBlock_opt (s : State) (h4 : off % 4 = 0) (h : off ≤ 0x87C) (ho : isOptWord off) :
    ∃ f, regRead (resetBlock s) off = .error (.fault f) := by
  have hf : readReg (resetBlock s) (regAt off) =
      .error (.unwrittenOpt ((off - 0x100) / 0x30) ((off - 0x100) / 4 % 12)) := by
    rw [regAt_optWord h ho]
    rfl
  exact ⟨_, regRead_fault (regOffsetOk_iff.2 ⟨h4, h⟩) hf⟩

/-- A reset turn is a step of its own, whatever was running (70_reset_and_hazards.md R340). -/
theorem step_reset {ts : List Turn} (hs : s.sched = .reset :: ts) : step s = .next (resetBlock (setSched s ts)) := by
  rw [step, stepTurn, hs]
  rfl

/-- Settles O15: the step is `resetBlock`, and each port reads the reset value from it. -/
theorem resetLeavesTheResetValues : Obligations.ResetLeavesTheResetValues := by
  intro s ts hs
  exact ⟨resetBlock (setSched s ts), step_reset hs, rfl, fun _ => regRead_resetBlock _,
    fun _ => regRead_resetBlock_opt _, fun i hi => ⟨_, bufRead_unwritten hi rfl⟩, rfl, rfl⟩

end Sys2Proof.Machine
end

section
/-!
PROOFS. The shapes a completion takes: each command is the commit of its pseudocode, and the commits in the words of the
statements (60_exceptions.md R303, R304; 43_dispatcher.md R263).
-/
namespace Sys2Proof.Machine

variable (s : State)

/-! ### Each command is the commit of its pseudocode -/

theorem exec_ipDecode : exec .ipDecode s = finish s false (bodyIpDecode s) := rfl
theorem exec_ipEncode : exec .ipEncode s = finish s false (bodyIpEncode s) := rfl
theorem exec_tcpDecode : exec .tcpDecode s = finish s false (bodyTcpDecode s) := rfl
theorem exec_tcpEncode : exec .tcpEncode s = finish s false (bodyTcpEncode s) := rfl
theorem exec_tcpCsum : exec .tcpCsum s = finish s false (bodyTcpCsum s) := rfl
theorem exec_dispatch : exec .dispatch s = finish s true (bodyDispatch s) := rfl
theorem exec_frameEncode : exec .frameEncode s = finish s false (bodyFrameEncode s) := rfl

/-! ### The commits by how the pseudocode ended -/

variable {s}

/-- Outside DISPATCH an error leaves DISP 0 (60_exceptions.md R304). -/
theorem finish_of_raise {r : Except Stop (State × Bool)} {e : Err} {info : Word} (h : r = .error (.raise e info)) :
    finish s false r = .next (errorCompletion s e info 0) := by
  rw [h, finish_raise, commitErr_eq]
  rfl

/-- In a DISPATCH an error but BOUNDS leaves DISP 6 (60_exceptions.md R304). -/
theorem finish_of_raise_dispatch {r : Except Stop (State × Bool)} {e : Err} {info : Word} (he : e ≠ .bounds)
    (h : r = .error (.raise e info)) : finish s true r = .next (errorCompletion s e info 6) := by
  rw [h, finish_raise, commitErr_eq, errDisp_eq true e True (by decide), if_pos ⟨trivial, he⟩]

/-- BOUNDS leaves DISP 0 in every command (60_exceptions.md R304). -/
theorem finish_of_bounds (d : Bool) {r : Except Stop (State × Bool)} {info : Word}
    (h : r = .error (.raise .bounds info)) : finish s d r = .next (errorCompletion s .bounds info 0) := by
  rw [h, finish_raise, commitErr_eq]
  cases d <;> rfl

theorem finish_of_drop (d : Bool) {r : Except Stop (State × Bool)} {x : Disp} (h : r = .error (.drop x)) :
    finish s d r = .next (dropCompletion s (dispCode x)) := by
  rw [h, finish_drop, commitDrop_eq]

/-- The success commit of a working copy that writes RESULT_LEN last (60_exceptions.md R303). -/
theorem finish_of_ok {w : State} {r : Except Stop (State × Bool)} {c : Bool} {n : Word} (d : Bool)
    (h : r = .ok (setResultLen w n, c)) :
    finish s d r = .next (successCompletion w c (if d then 1 else 0) n) := by
  rw [h, finish_ok, commitOk_eq]
  cases d <;> rfl

/-- A region past PBUF ends the command before it looks at anything else (20_memory.md R75). -/
theorem checkBounds_bind_of_gt {α : Type} {m : PacketBuffer} {l : Latch} (f : Unit → Except Stop α)
    (h : m.size < l.start.toNat + l.len.toNat) : (checkBounds m l >>= f) = .error (.raise .bounds 0) := by
  rw [checkBounds_of_gt h, error_bind]

theorem checkBounds_bind_of_inRange {α : Type} (f : Unit → Except Stop α) (h : inRange s) :
    (checkBounds s.pbuf s.latch >>= f) = f () := by
  rw [checkBounds_of_le h, ok_bind]

/-! ### The state an encoder leaves -/

/-- The state an encoder that wrote the bytes `bs` at lat_start completes in (60_exceptions.md R303). -/
abbrev encodedState (s : State) (bs : List Byte) (n : Word) : State :=
  successCompletion (setPbuf s (pbufPutList s.pbuf s.latch.start.toNat bs)) false 0 n

theorem bytesAt_encodedState (s : State) (bs : List Byte) (n : Word) :
    bytesAt (encodedState s bs n).pbuf s.latch.start.toNat bs := bytesAt_putList s.pbuf s.latch.start.toNat bs

theorem size_encodedState (s : State) (bs : List Byte) (n : Word) :
    (encodedState s bs n).pbuf.size = s.pbuf.size := pbufPutList_size s.pbuf s.latch.start.toNat bs

/-- Every byte but those written, and everything of the block but STATUS, ERR_INFO and RESULT_LEN, is kept. -/
theorem encodedState_frame (s : State) {bs : List Byte} {k : Nat} (hk : bs.length = k) (n : Word) :
    (∀ a, a < s.latch.start.toNat ∨ s.latch.start.toNat + k ≤ a →
      readByte (encodedState s bs n).pbuf a = readByte s.pbuf a) ∧
    encodedState s bs n =
      successCompletion { s with pbuf := { s.pbuf with bytes := (encodedState s bs n).pbuf.bytes } } false 0 n :=
  ⟨fun _ h => readByte_putList_out (by rwa [hk]), rfl⟩

end Sys2Proof.Machine
end

section
/-!
PROOFS. The invariants every step keeps, turn by turn (60_exceptions.md R312): the host's, the engine's completion, a
round of the option walk and reset.
-/
namespace Sys2Proof.Machine

variable {s t q : State}

/-! ### From turns to steps -/

/-- What every turn keeps, every step keeps, if moving the schedule on keeps it. -/
theorem step_keeps {P : State → Prop} (hsched : ∀ q ts, P q → P (setSched q ts))
    (hturn : ∀ u q t, takeTurn u q = .next t → P q → P t) (h : step s = .next t) (hs : P s) : P t := by
  obtain ⟨q, hq, ht⟩ := step_cases h
  refine hturn _ q t ht ?_
  rcases hq with rfl | ⟨ts, rfl⟩
  · exact hs
  · exact hsched s ts hs

/-- All a walk turn that answers leaves: the block as it was, or the command ended with an error. -/
theorem walkTurn_next (h : walkTurn s = .next t) :
    sameButWalk s t ∨ ∃ e info, t = commitErr s e info (s.latch.op == 7) := by
  rcases walkTurn_cases s with hw | ⟨-, -, -, base, hl, -, hw⟩ | ⟨-, -, -, -, hw⟩ <;> rw [hw] at h
  · cases h
    exact .inl rfl
  · cases h
    exact .inl rfl
  · cases hr : optStep s.pbuf s.walk.base s.walk.hl s.walk.p with
    | ok r =>
      rw [hr] at h
      cases h
      exact .inl rfl
    | error e =>
      rw [hr] at h
      rcases finish_cases h with ⟨w, c, hb, -⟩ | ⟨x, info, -, rfl⟩ | ⟨d, hb, -⟩
      · cases hb
      · exact .inr ⟨x, info, rfl⟩
      · cases hb
        exact absurd rfl (optStep_plain _ hr d)

/-! ### STATUS -/

/-- Every completion leaves a consistent STATUS: the three commits write all of it but OVR (60_exceptions.md R303,
R304; 43_dispatcher.md R263). -/
theorem statusInv_commitOk (w : State) (c d : Bool) : statusInv (commitOk w c d) := by
  cases d <;> simp [statusInv, statusOk, dispCode]

theorem statusInv_commitErr (s : State) (e : Err) (info : Word) (d : Bool) : statusInv (commitErr s e info d) := by
  obtain ⟨hne, hle⟩ := errCode_range e
  exact ⟨nofun, ⟨fun _ => hne, fun _ => rfl⟩, hle, dispCode_range _, fun _ => rfl, nofun, nofun, fun _ => rfl⟩

theorem statusInv_commitDrop {d : Disp}
    (hd : d = .dropShort ∨ d = .dropVersion ∨ d = .dropProto ∨ d = .dropPort) : statusInv (commitDrop s d) := by
  rcases hd with rfl | rfl | rfl | rfl <;> simp [statusInv, statusDrop, dispCode]

theorem statusInv_of_completed {d k : Bool} (h : completed s t d k) : statusInv t := by
  rcases h with ⟨w, c, rfl, -, -⟩ | ⟨e, info, rfl⟩ | ⟨-, x, hx, rfl⟩
  · exact statusInv_commitOk w c d
  · exact statusInv_commitErr s e info d
  · exact statusInv_commitDrop hx

theorem busy_of_completed {d k : Bool} (h : completed s t d k) : t.status.busy = false := by
  rcases h with ⟨w, c, rfl, -, -⟩ | ⟨e, info, rfl⟩ | ⟨-, x, hx, rfl⟩ <;> rfl

/-- A write to a register other than CMD and STATUS leaves what the two invariants speak of. -/
theorem writeReg_control {r : Reg} {v : Word} (hc : r ≠ .cmd) (hs : r ≠ .status) :
    (writeReg s r v).status = s.status ∧ (writeReg s r v).errInfo = s.errInfo ∧
      (writeReg s r v).resultLen = s.resultLen ∧ (writeReg s r v).cmd = s.cmd ∧ (writeReg s r v).latch = s.latch := by
  cases r with
  | cmd => exact absurd rfl hc
  | status => exact absurd rfl hs
  | _ => exact ⟨rfl, rfl, rfl, rfl, rfl⟩

/-- A host write to a register: STATUS clears DONE and OVR at most, CMD issues or is refused (10_state.md R25;
70_reset_and_hazards.md R350, R356). -/
theorem statusInv_writeReg (r : Reg) (v : Word) (hs : statusInv s) (hl : latchInv s) :
    statusInv (writeReg s r v) ∧ latchInv (writeReg s r v) := by
  obtain ⟨hbusy, hcodes⟩ := hs
  by_cases hc : r = .cmd
  · subst hc
    by_cases hb : s.status.busy = true
    · rw [writeReg, if_pos hb]
      exact ⟨⟨hbusy, hcodes⟩, hl⟩
    · rw [writeReg, if_neg hb]
      exact ⟨⟨fun _ => rfl, hcodes⟩, fun _ => rfl⟩
  by_cases hst : r = .status
  · subst hst
    refine ⟨⟨fun hb => ?_, hcodes⟩, hl⟩
    simp [writeReg, ackStatus, statusAck, hbusy hb]
  · obtain ⟨h1, h2, h3, h4, h5⟩ := writeReg_control (s := s) (v := v) hc hst
    simp only [statusInv, latchInv, h1, h2, h3, h4, h5]
    exact ⟨⟨hbusy, hcodes⟩, hl⟩

theorem statusInv_hostTurn (h : hostTurn s = .next t) (hs : statusInv s ∧ latchInv s) : statusInv t ∧ latchInv t := by
  obtain ⟨q, c, rfl, hq⟩ := hostTurn_cases h
  rcases hq with rfl | rfl | ⟨i, b, -, -, rfl⟩ | ⟨off, v, -, rfl⟩
  · exact hs
  · exact hs
  · exact hs
  · exact statusInv_writeReg (regAt off) v hs.1 hs.2

theorem statusInv_engineTurn (h : engineTurn s = .next t) (hs : statusInv s ∧ latchInv s) :
    statusInv t ∧ latchInv t := by
  rcases engineTurn_cases h with ⟨-, rfl⟩ | ⟨-, hx⟩
  · exact hs
  · have hc := exec_command_cases (isCommand_decodeOp _) hx
    exact ⟨statusInv_of_completed hc, fun hb => by rw [busy_of_completed hc] at hb; cases hb⟩

theorem statusInv_walkTurn (h : walkTurn s = .next t) (hs : statusInv s ∧ latchInv s) : statusInv t ∧ latchInv t := by
  rcases walkTurn_next h with hw | ⟨e, info, rfl⟩
  · rw [hw]
    exact hs
  · exact ⟨statusInv_commitErr s e info _, nofun⟩

theorem statusInv_resetBlock (s : State) : statusInv (resetBlock s) ∧ latchInv (resetBlock s) := by
  simp [statusInv, latchInv, resetBlock, State.resetWith]

/-- Settles O55: each commit writes a consistent STATUS, a host write keeps it, and an issue latches CMD. -/
theorem statusStaysConsistent : Obligations.StatusStaysConsistent := by
  intro s t hs hl h
  refine step_keeps (P := fun q => statusInv q ∧ latchInv q) (fun q ts hq => hq) (fun u q t ht hq => ?_) h ⟨hs, hl⟩
  cases u with
  | host => exact statusInv_hostTurn ht hq
  | engine => exact statusInv_engineTurn ht hq
  | walk => exact statusInv_walkTurn ht hq
  | reset =>
    cases ht
    exact statusInv_resetBlock q

/-! ### The two stores -/

/-- Every command's completion keeps the canonical form of the stores. -/
theorem memWf_exec_command {i : Instr} (hi : isCommand i = true) (h : exec i s = .next t) (hm : memWf s) : memWf t := by
  cases i with
  | ipDecode => exact finish_memWf (r := bodyIpDecode s) h (fun _ _ hb => bodyIpDecode_memWf hb hm) hm
  | ipEncode => exact finish_memWf (r := bodyIpEncode s) h (fun _ _ hb => bodyIpEncode_memWf hb hm) hm
  | tcpDecode => exact finish_memWf (r := bodyTcpDecode s) h (fun _ _ hb => bodyTcpDecode_memWf hb hm) hm
  | tcpEncode => exact finish_memWf (r := bodyTcpEncode s) h (fun _ _ hb => bodyTcpEncode_memWf hb hm) hm
  | ipCsum => exact finish_memWf (r := bodyIpCsum s) h (fun _ _ hb => bodyIpCsum_memWf hb hm) hm
  | tcpCsum => exact finish_memWf (r := bodyTcpCsum s) h (fun _ _ hb => bodyTcpCsum_memWf hb hm) hm
  | dispatch => exact finish_memWf (r := bodyDispatch s) h (fun _ _ hb => bodyDispatch_memWf hb hm) hm
  | frameEncode => exact finish_memWf (r := bodyFrameEncode s) h (fun _ _ hb => bodyFrameEncode_memWf hb hm) hm
  | illegal0 | illegal9 | illegalA | illegalB | illegalC | illegalD | illegalE | illegalF =>
    exact finish_memWf (r := .error (.raise .illegalCmd _)) h (fun _ _ hb => by cases hb) hm
  | _ => cases hi

theorem size_of_completed {d k : Bool} (h : completed s t d k) : t.pbuf.size = s.pbuf.size := by
  rcases h with ⟨w, c, rfl, hw, -⟩ | ⟨e, info, rfl⟩ | ⟨-, x, hx, rfl⟩
  · obtain ⟨-, -, -, -, -, -, -, -, -, -, -, -, -, hsize⟩ := hw
    exact hsize
  · rfl
  · rfl

theorem writeReg_pbuf (r : Reg) (v : Word) : (writeReg s r v).pbuf = s.pbuf := by
  by_cases hc : r = .cmd
  · subst hc
    rw [writeReg]
    split <;> rfl
  · obtain ⟨-, hp, -⟩ := writeReg_frame (s := s) (v := v) hc
    exact hp

/-- What O56 states of a step from `s` to `t`. -/
abbrev keepsStores (s t : State) : Prop := t.pbuf.size = s.pbuf.size ∧ (memWf s → memWf t)

theorem keepsStores_hostTurn (h : hostTurn s = .next t) : keepsStores s t := by
  obtain ⟨q, c, rfl, hq⟩ := hostTurn_cases h
  rcases hq with rfl | rfl | ⟨i, b, hi, -, rfl⟩ | ⟨off, v, -, rfl⟩
  · exact ⟨rfl, id⟩
  · exact ⟨rfl, id⟩
  · exact ⟨rfl, fun hm => ⟨pbufWf_put hm.1 hi, hm.2⟩⟩
  · exact ⟨congrArg PacketBuffer.size (writeReg_pbuf _ v), memWf_writeReg (regAt_wellFormed off)⟩

theorem keepsStores_engineTurn (h : engineTurn s = .next t) : keepsStores s t := by
  rcases engineTurn_cases h with ⟨-, rfl⟩ | ⟨-, hx⟩
  · exact ⟨rfl, id⟩
  · exact ⟨size_of_completed (exec_command_cases (isCommand_decodeOp _) hx),
      memWf_exec_command (isCommand_decodeOp _) hx⟩

theorem keepsStores_walkTurn (h : walkTurn s = .next t) : keepsStores s t := by
  rcases walkTurn_next h with hw | ⟨e, info, rfl⟩
  · rw [hw]
    exact ⟨rfl, id⟩
  · exact ⟨rfl, id⟩

/-- Settles O56: no turn changes the size, and each one that writes a store keeps its form. -/
theorem memoryStaysCanonical : Obligations.MemoryStaysCanonical := by
  intro s t h
  refine step_keeps (P := keepsStores s) (fun q ts hq => hq) (fun u q t ht hq => ?_) h ⟨rfl, id⟩
  have hk : keepsStores q t := by
    cases u with
    | host => exact keepsStores_hostTurn ht
    | engine => exact keepsStores_engineTurn ht
    | walk => exact keepsStores_walkTurn ht
    | reset =>
      cases ht
      exact ⟨rfl, fun hm => memWf_resetWith hm.1.1⟩
  exact ⟨hk.1.trans hq.1, hk.2 ∘ hq.2⟩

/-! ### The ways BUSY ends -/

/-- Settles O59: the host never ends a command, a walk turn only by the error commit, the engine by one of the three
commits, which all set DONE; reset clears STATUS. -/
theorem onlyCompletionOrResetEndsBusy : Obligations.OnlyCompletionOrResetEndsBusy := by
  intro s t h hb hi
  obtain ⟨q, hq, ht⟩ := step_cases h
  have hqb : q.status.busy = true := by rcases hq with rfl | ⟨ts, rfl⟩ <;> exact hb
  cases hn : nextTurn s with
  | host =>
    rw [hn] at ht
    rw [hostTurn_busy ht hqb] at hi
    cases hi
  | engine =>
    rw [hn] at ht
    rcases engineTurn_cases ht with ⟨hqi, -⟩ | ⟨-, hx⟩
    · rw [hqb] at hqi
      cases hqi
    · obtain ⟨-, hdone, -⟩ := irq_of_completed (exec_command_cases (isCommand_decodeOp _) hx)
      exact .inl ⟨rfl, hdone⟩
  | walk =>
    rw [hn] at ht
    rcases walkTurn_next ht with hw | ⟨e, info, rfl⟩
    · rw [hw] at hi
      exact absurd hqb (by rw [show q.status.busy = false from hi]; decide)
    · exact .inr (.inl ⟨rfl, rfl, rfl⟩)
  | reset =>
    rw [hn] at ht
    cases ht
    exact .inr (.inr ⟨rfl, rfl⟩)

/-! ### Host turns -/

/-- The results of a command: what the host can read of its outcome but cannot write (10_state.md section 2.1). -/
abbrev sameResults (s t : State) : Prop :=
  t.resultLen = s.resultLen ∧ t.errInfo = s.errInfo ∧ t.csumResult = s.csumResult ∧ t.fk = s.fk ∧
    t.payloadOff = s.payloadOff ∧ t.payloadLen = s.payloadLen ∧ t.status.err = s.status.err ∧
    t.status.errcode = s.status.errcode ∧ t.status.csumOk = s.status.csumOk ∧ t.status.disp = s.status.disp

/-- The inputs of a running command, its latches and working copy among them (30_encoding.md R122). -/
abbrev sameInputs (s t : State) : Prop :=
  t.iph = s.iph ∧ t.tcph = s.tcph ∧ t.optcnt = s.optcnt ∧ t.opt = s.opt ∧ t.pbuf = s.pbuf ∧
    t.localAddr = s.localAddr ∧ t.localPort = s.localPort ∧ t.latch = s.latch ∧ t.cmd = s.cmd ∧ t.walk = s.walk

/-- No register write reaches a result, and none raises DONE (10_state.md R21, R25). -/
theorem sameResults_writeReg (r : Reg) (v : Word) :
    sameResults s (writeReg s r v) ∧ ((writeReg s r v).status.done = true → s.status.done = true) := by
  cases r with
  | cmd =>
    by_cases hb : s.status.busy = true
    · rw [writeReg, if_pos hb]
      exact ⟨by simp [sameResults], id⟩
    · rw [writeReg, if_neg hb]
      exact ⟨by simp [sameResults, statusIssue], nofun⟩
  | status =>
    refine ⟨⟨rfl, rfl, rfl, rfl, rfl, rfl, rfl, rfl, rfl, rfl⟩, fun h => ?_⟩
    simp only [writeReg, ackStatus, statusAck, setStatus_status, Bool.and_eq_true] at h
    exact h.1
  | _ => exact ⟨⟨rfl, rfl, rfl, rfl, rfl, rfl, rfl, rfl, rfl, rfl⟩, id⟩

/-- While BUSY a register write that is no hazard reaches no input of the running command (70_reset_and_hazards.md R354
to R356). -/
theorem sameInputs_writeReg {r : Reg} (v : Word) (hb : s.status.busy = true) (hh : hazardous r = false) :
    sameInputs s (writeReg s r v) := by
  cases r with
  | cmd =>
    rw [writeReg, if_pos hb]
    exact ⟨rfl, rfl, rfl, rfl, rfl, rfl, rfl, rfl, rfl, rfl⟩
  | status | ctrl | argStart | argLen | argAux | resultLen | errInfo | csumResult | fkSrcAddr | fkDstAddr | fkSrcPort
  | fkDstPort | payloadOff | payloadLen | iphVersion | reserved =>
    exact ⟨rfl, rfl, rfl, rfl, rfl, rfl, rfl, rfl, rfl, rfl⟩
  | _ => cases hh

/-- All a host turn keeps. -/
theorem hostTurn_keeps (h : hostTurn s = .next t) :
    sameResults s t ∧ (t.status.done = true → s.status.done = true) ∧
      (s.status.busy = true → t.status.busy = true ∧ sameInputs s t) := by
  have hbusy := hostTurn_busy h
  obtain ⟨q, c, rfl, hq⟩ := hostTurn_cases h
  have same : sameResults s s ∧ sameInputs s s := by simp [sameResults, sameInputs]
  rcases hq with rfl | rfl | ⟨i, b, -, hidle, rfl⟩ | ⟨off, v, hh, rfl⟩
  · exact ⟨same.1, id, fun hb => ⟨hb, same.2⟩⟩
  · exact ⟨same.1, id, fun hb => ⟨hb, same.2⟩⟩
  · exact ⟨same.1, id, fun hb => by rw [hidle] at hb; cases hb⟩
  · obtain ⟨hres, hdone⟩ := sameResults_writeReg (s := s) (regAt off) v
    refine ⟨hres, hdone, fun hb => ⟨hbusy hb, sameInputs_writeReg v hb ?_⟩⟩
    simpa [hb] using hh

/-- Settles O60: a host turn is at most one port access, and the ports keep results at any time and inputs while
BUSY. -/
theorem hostTurnsKeepResults : Obligations.HostTurnsKeepResults := by
  intro s t hn h
  obtain ⟨q, hq, ht⟩ := step_cases h
  rw [hn] at ht
  obtain ⟨⟨h1, h2, h3, h4, h5, h6, h7, h8, h9, h10⟩, hdone, hbusy⟩ := hostTurn_keeps ht
  rcases hq with rfl | ⟨ts, rfl⟩ <;> exact ⟨h1, h2, h3, h4, h5, h6, h7, h8, h9, h10, hdone, hbusy⟩

end Sys2Proof.Machine
end

section
/-!
PROOFS. The option walk as turns of its own (41_tcp_codec.md R181, log 8): it is a part of the running command's walk,
and carrying it out changes no outcome; what the engine's and the walk's turns run, and the state after reset.
-/
namespace Sys2Proof.Machine

variable {s t : State} {m : PacketBuffer} {a hl p : Nat}

/-! ### One round of the command's own walk -/

/-- The walk from `p` on is its round at `p` and then the walk behind that option: the bound on the rounds is not felt
(41_tcp_codec.md R181). -/
theorem optWalk_round {e : TcpOption} {size : Nat} (h20 : 20 ≤ p) (hlt : p < hl)
    (h : optStep m a hl p = .ok (e, size)) :
    optWalk m a hl hl p = (do
      let r ← optWalk m a hl hl (p + size)
      pure (e :: r)) := by
  obtain ⟨-, hpos, -⟩ := optStep_ok hlt h
  obtain ⟨f, rfl⟩ := Nat.exists_eq_add_one_of_ne_zero (Nat.ne_zero_of_lt hlt)
  rw [optWalk_fuel (f := f + 1) (g := f) (p := p + size) (by omega) (by omega), optWalk, if_pos hlt, h, ok_bind]

theorem optWalk_stops {e : Stop} (hlt : p < hl) (h : optStep m a hl p = .error e) :
    optWalk m a hl hl p = .error e := by
  obtain ⟨f, rfl⟩ := Nat.exists_eq_add_one_of_ne_zero (Nat.ne_zero_of_lt hlt)
  rw [optWalk, if_pos hlt, h, error_bind]

/-! ### The invariant -/

theorem walkInv_of_idle (h : s.walk.active = false) : walkInv s := fun ha => by rw [h] at ha; cases ha

/-- Only a running command has a walk. -/
theorem walk_idle_of_not_busy (h : walkInv s) (hb : s.status.busy = false) : s.walk.active = false := by
  cases ha : s.walk.active with
  | false => rfl
  | true =>
    obtain ⟨hbusy, -⟩ := h ha
    rw [hb] at hbusy
    cases hbusy

/-- The invariant reads BUSY, the latches, the port binding, PBUF and the working copy alone. -/
theorem walkInv_congr (hb : t.status.busy = s.status.busy) (hl : t.latch = s.latch) (hp : t.localPort = s.localPort)
    (hm : t.pbuf = s.pbuf) (hw : t.walk = s.walk) (h : walkInv s) : walkInv t := by
  intro ha
  have hf : walkFront t = walkFront s := by simp only [walkFront, hl, hp, hm]
  rw [hw] at ha
  rw [hb, hl, hf, hm, hw]
  exact h ha

theorem walk_writeReg_idle (r : Reg) (v : Word) (hb : s.status.busy = false) (hw : s.walk.active = false) :
    (writeReg s r v).walk.active = false := by
  cases r with
  | cmd =>
    rw [writeReg, if_neg (by simp [hb])]
    rfl
  | _ => exact hw

/-- An idle block's host has no walk to disturb, a busy block's reaches nothing the walk reads. -/
theorem walkInv_hostTurn (h : hostTurn s = .next t) (hs : walkInv s) : walkInv t := by
  by_cases hb : s.status.busy = true
  · obtain ⟨-, -, hbusy⟩ := hostTurn_keeps h
    obtain ⟨hbt, -, -, -, -, hpbuf, -, hport, hlatch, -, hwalk⟩ := hbusy hb
    exact walkInv_congr (hbt.trans hb.symm) hlatch hport hpbuf hwalk hs
  · have hb : s.status.busy = false := by simpa using hb
    have hw := walk_idle_of_not_busy hs hb
    obtain ⟨q, c, rfl, hq⟩ := hostTurn_cases h
    rcases hq with rfl | rfl | ⟨i, b, -, -, rfl⟩ | ⟨off, v, -, rfl⟩
    · exact walkInv_of_idle hw
    · exact walkInv_of_idle hw
    · exact walkInv_of_idle hw
    · exact walkInv_of_idle (walk_writeReg_idle _ v hb hw)

theorem walk_of_completed {d k : Bool} (h : completed s t d k) : t.walk = Walk.idle := by
  rcases h with ⟨w, c, rfl, -, -⟩ | ⟨e, info, rfl⟩ | ⟨-, x, -, rfl⟩ <;> rfl

theorem walkInv_engineTurn (h : engineTurn s = .next t) (hs : walkInv s) : walkInv t := by
  rcases engineTurn_cases h with ⟨-, rfl⟩ | ⟨-, hx⟩
  · exact hs
  · refine walkInv_of_idle ?_
    rw [walk_of_completed (exec_command_cases (isCommand_decodeOp _) hx)]
    rfl

/-- The walk just begun has gathered nothing, and all of the command's walk is ahead of it. -/
theorem walkInv_begin {base : Nat} (hb : s.status.busy = true) (hop : s.latch.op = 3 ∨ s.latch.op = 7)
    (hf : walkFront s = .ok (base, hl)) :
    walkInv (setWalk s { active := true, base := base, hl := hl, p := 20, opts := [] }) := by
  refine fun _ => ⟨hb, hop, hf, le_rfl, ?_⟩
  simp only [setWalk_walk, setWalk_pbuf, List.nil_append]
  exact (bind_pure _).symm

/-- A round moves one option from what is ahead to what is gathered. -/
theorem walkInv_round {e : TcpOption} {size : Nat} (ha : s.walk.active = true) (hlt : s.walk.p < s.walk.hl)
    (hst : optStep s.pbuf s.walk.base s.walk.hl s.walk.p = .ok (e, size)) (hs : walkInv s) :
    walkInv (setWalk s { s.walk with p := s.walk.p + size, opts := s.walk.opts ++ [e] }) := by
  obtain ⟨hb, hop, hf, h20, hw⟩ := hs ha
  refine fun _ => ⟨hb, hop, hf, ?_, ?_⟩
  · simp only [setWalk_walk]
    omega
  · simp only [setWalk_walk, setWalk_pbuf]
    rw [hw, optWalk_round h20 hlt hst]
    simp only [bind_assoc, pure_bind, List.append_assoc, List.singleton_append]

theorem walkInv_walkTurn (h : walkTurn s = .next t) (hs : walkInv s) : walkInv t := by
  rcases walkTurn_cases s with hw | ⟨hb, hop, -, base, hl, hf, hw⟩ | ⟨-, -, ha, hlt, hw⟩
  · rw [hw] at h
    cases h
    exact hs
  · rw [hw] at h
    cases h
    exact walkInv_begin hb hop hf
  · rw [hw] at h
    cases hr : optStep s.pbuf s.walk.base s.walk.hl s.walk.p with
    | ok r =>
      rw [hr] at h
      cases h
      exact walkInv_round ha hlt hr hs
    | error e =>
      rw [hr] at h
      refine walkInv_of_idle ?_
      rcases finish_cases h with ⟨w, c, hb, -⟩ | ⟨x, info, -, rfl⟩ | ⟨d, -, rfl⟩
      · cases hb
      · rfl
      · rfl

/-- Settles O57: a walk turn begins the walk or carries it one round further, and every other turn leaves what it reads
or ends it. -/
theorem walkStaysPartOfTheCommand : Obligations.WalkStaysPartOfTheCommand := by
  intro s t hs h
  refine step_keeps (P := walkInv) (fun q ts hq => hq) (fun u q t ht hq => ?_) h hs
  cases u with
  | host => exact walkInv_hostTurn ht hq
  | engine => exact walkInv_engineTurn ht hq
  | walk => exact walkInv_walkTurn ht hq
  | reset =>
    cases ht
    exact walkInv_of_idle rfl

/-! ### The walk's turns change no outcome -/

/-- A command's answer with another working copy of the walk. -/
def setWalkAnswer (w : Walk) (x : State × Bool) : State × Bool := (setWalk x.1 w, x.2)

/-- Every commit clears the working copy, so it does not matter which one the command began with. -/
theorem finish_setWalk (s : State) (w : Walk) (d : Bool) (r : Except Stop (State × Bool)) :
    finish (setWalk s w) d (setWalkAnswer w <$> r) = finish s d r := by
  match r with
  | .ok _ | .error (.raise _ _) | .error (.drop _) | .error (.fault _) => rfl

theorem exec_tcpDecode_setWalk (s : State) (w : Walk) : exec .tcpDecode (setWalk s w) = exec .tcpDecode s := by
  have hb : bodyTcpDecode (setWalk s w) = setWalkAnswer w <$> bodyTcpDecode s := by
    simp only [bodyTcpDecode, map_bind]
    rfl
  rw [exec_tcpDecode, hb, finish_setWalk, exec_tcpDecode]

theorem exec_dispatch_setWalk (s : State) (w : Walk) : exec .dispatch (setWalk s w) = exec .dispatch s := by
  have hb : bodyDispatch (setWalk s w) = setWalkAnswer w <$> bodyDispatch s := by
    simp only [bodyDispatch, map_bind]
    rfl
  rw [exec_dispatch, hb, finish_setWalk, exec_dispatch]

theorem engineTurn_busy (hb : s.status.busy = true) : engineTurn s = exec (decodeOp s.latch.op) s := if_pos hb

/-- The completion of a walking command does not read the working copy (00_scope.md R9). -/
theorem engineTurn_setWalk (w : Walk) (hb : s.status.busy = true) (hop : s.latch.op = 3 ∨ s.latch.op = 7) :
    engineTurn (setWalk s w) = engineTurn s := by
  rw [engineTurn_busy hb, engineTurn_busy (s := setWalk s w) hb, setWalk_latch]
  rcases hop with hop | hop <;> rw [hop]
  · exact exec_tcpDecode_setWalk s w
  · exact exec_dispatch_setWalk s w

/-- Where the walk the command itself takes stops, the completion ends in the same stop (41_tcp_codec.md R195;
43_dispatcher.md R261). -/
theorem engineTurn_of_walk_stop {e : Stop} {base : Nat} (hb : s.status.busy = true)
    (hop : s.latch.op = 3 ∨ s.latch.op = 7) (hf : walkFront s = .ok (base, hl))
    (hw : optWalk s.pbuf base hl hl 20 = .error e) : engineTurn s = finish s (s.latch.op == 7) (.error e) := by
  rw [engineTurn_busy hb]
  rcases hop with hop | hop <;> rw [hop] <;> simp only [walkFront, hop] at hf
  · simp only [if_true, bind_eq_ok, pure_eq_ok, Except.ok.injEq, Prod.mk.injEq] at hf
    obtain ⟨u, hbnd, ⟨h, hl'⟩, hfr, rfl, rfl⟩ := hf
    have : bodyTcpDecode s = .error e := by
      rw [bodyTcpDecode, hbnd, ok_bind, tcpParse, hfr, ok_bind]
      simp only
      rw [hw]
      rfl
    exact congrArg (finish s false) this
  · rw [if_neg (by decide)] at hf
    simp only [bind_eq_ok, pure_eq_ok, Except.ok.injEq, Prod.mk.injEq] at hf
    obtain ⟨⟨ip, iphl⟩, hd, ⟨h, hl'⟩, hfr, rfl, rfl⟩ := hf
    have : bodyDispatch s = .error e := by
      rw [bodyDispatch, hd, ok_bind]
      simp only
      rw [tcpParse, hfr, ok_bind]
      simp only
      rw [hw]
      rfl
    exact congrArg (finish s true) this

theorem finish_ne_refused {d : Bool} {r : Except Stop (State × Bool)} (x : Refusal) : finish s d r ≠ .refused x := by
  match r with
  | .ok _ | .error (.raise _ _) | .error (.drop _) | .error (.fault _) => nofun

/-- A walk turn shows nothing, or it is the completion itself. -/
theorem walkTurn_invisible (hs : walkInv s) :
    (∃ t, walkTurn s = .next t ∧ sameButWalk s t ∧ engineTurn t = engineTurn s) ∨
    (walkTurn s = engineTurn s ∧ ∃ d r, engineTurn s = finish s d r) := by
  rcases walkTurn_cases s with hw | ⟨hb, hop, -, base, hl, -, hw⟩ | ⟨hb, hop, ha, hlt, hw⟩
  · exact .inl ⟨s, hw, rfl, rfl⟩
  · exact .inl ⟨_, hw, rfl, engineTurn_setWalk _ hb hop⟩
  · rw [hw]
    cases hr : optStep s.pbuf s.walk.base s.walk.hl s.walk.p with
    | ok r => exact .inl ⟨_, rfl, rfl, engineTurn_setWalk _ hb hop⟩
    | error e =>
      obtain ⟨-, -, hf, -, hall⟩ := hs ha
      rw [optWalk_stops hlt hr, error_bind] at hall
      have he := engineTurn_of_walk_stop hb hop hf hall
      exact .inr ⟨he.symm, _, _, he⟩

/-- Settles O58: the working copy is read by no completion, and a round that fails is where the command's own walk, of
which it is a part, fails. -/
theorem walkTurnsAreInvisible : Obligations.WalkTurnsAreInvisible := by
  intro s hs
  rcases walkTurn_invisible hs with ⟨t, hw, hsame, he⟩ | ⟨hw, d, r, he⟩
  · rw [hw]
    refine ⟨fun u hu => ?_, nofun, nofun⟩
    cases hu
    exact .inl ⟨hsame, he⟩
  · rw [hw]
    exact ⟨fun _ h => .inr h, fun _ h => h, fun x => by rw [he]; exact finish_ne_refused x⟩

/-! ### What each turn runs -/

theorem step_scheduled {u : Turn} {ts : List Turn} (hs : s.sched = u :: ts) : step s = takeTurn u (setSched s ts) := by
  rw [step, stepTurn, hs]

theorem decodeOp_opOfWord {w : Word} {i : Instr} (h : decodeInstr (.command w) = .ok i) :
    decodeOp (w.extractLsb' 0 4) = i := Except.ok.inj h

/-- Settles O18: a busy engine's turn is `exec` of the latched opcode, which an issue takes from the word written. -/
theorem engineTurnRunsTheIssuedCommand : Obligations.EngineTurnRunsTheIssuedCommand := by
  intro s w i ts hd
  have hi := decodeOp_opOfWord hd
  refine ⟨fun hb hop hs => ?_, fun hb hop hs => ?_, fun t hb hw hs => ?_, fun hb hs => ?_⟩
  · rw [step_scheduled hs]
    exact (engineTurn_busy (s := setSched s ts) hb).trans (by rw [setSched_latch, hop, hi]; rfl)
  · rw [step, stepTurn, hs]
    simp only [defaultTurn, hb, if_true, takeTurn]
    rw [engineTurn_busy hb, hop, hi]
  · obtain rfl : t = issue s (opOfWord w) := Except.ok.inj (hw.symm.trans (cmd_readsBack hb w).1)
    rw [step_scheduled hs]
    exact (engineTurn_busy (s := setSched (issue s (opOfWord w)) ts) rfl).trans (by rw [← hi]; rfl)
  · rw [step_scheduled hs]
    exact if_neg (by simp [hb])

/-- The walk inside a running command's header runs the option it fetches (41_tcp_codec.md R181). -/
theorem walkTurn_inside (hb : s.status.busy = true) (hop : s.latch.op = 3 ∨ s.latch.op = 7)
    (ha : s.walk.active = true) (hlt : s.walk.p < s.walk.hl) : walkTurn s = walkOption s := by
  rw [walkTurn, if_pos ⟨hb, hop⟩, if_pos ha, if_pos hlt]

theorem walkOption_of_kind {k : Byte} {i : Instr} (hk : readByte s.pbuf (s.walk.base + s.walk.p) = .ok k)
    (hd : decodeOptionKind k = .ok i) : walkOption s = exec i s := by
  rw [walkOption, hk]
  simp only [hd]

theorem walkOption_of_unknown {k : Byte} {e : DecodeError}
    (hk : readByte s.pbuf (s.walk.base + s.walk.p) = .ok k) (hd : decodeOptionKind k = .error e) :
    walkOption s = .next (commitErr s .tcpOptUnknown (BitVec.ofNat 32 s.walk.p) (s.latch.op == 7)) := by
  rw [walkOption, hk]
  simp only [hd]
  rfl

/-- An option's error commit: DISP 6 in a DISPATCH, else 0 (60_exceptions.md R304). -/
theorem commitErr_option (s : State) {e : Err} (he : e ≠ .bounds) (info : Word) :
    commitErr s e info (s.latch.op == 7) = errorCompletion s e info (if s.latch.op = 7 then 6 else 0) := by
  rw [commitErr_eq, errDisp_eq _ e (s.latch.op = 7) beq_iff_eq]
  simp only [he, ne_eq, not_false_eq_true, and_true]

/-- Settles O19: the turn decodes the kind byte it fetches; the two ways that goes are the two conclusions. -/
theorem walkTurnRunsTheOptionItFetches : Obligations.WalkTurnRunsTheOptionItFetches := by
  intro s k ts hb hop ha hlt hk hs
  have hstep : step s = walkOption (setSched s ts) :=
    (step_scheduled hs).trans (walkTurn_inside (s := setSched s ts) hb hop ha hlt)
  refine ⟨fun i hd => ?_, fun e hd => ?_⟩ <;> rw [hstep]
  · exact walkOption_of_kind (s := setSched s ts) hk hd
  · rw [walkOption_of_unknown (s := setSched s ts) hk hd, commitErr_option _ (by decide)]
    rfl

/-! ### A placed word -/

/-- The state a command word is placed in runs the command on the engine's turn. -/
theorem step_placeCommand (s : State) (w : Word) :
    step (placeCommand s w) = exec (decodeCommand w) (setSched (placeCommand s w) s.sched) :=
  (step_scheduled (s := placeCommand s w) rfl).trans (engineTurn_busy rfl)

/-- The state a kind byte is placed in fetches it on the walk's turn, PBUF reaching beyond it. -/
theorem step_placeOption {s : State} {k : Byte} {i : Instr} (hm : 80 ≤ s.pbuf.size) (hd : decodeOptionKind k = .ok i) :
    step (placeOption s k) = exec i (setSched (placeOption s k) s.sched) := by
  have hk : readByte (pbufPutList s.pbuf 20 (k :: List.replicate 39 0)) 20 = .ok k :=
    readByte_of_bytesAt (by rw [pbufPutList_size]; omega) (bytesAt_putList s.pbuf 20 _)
  rw [step_scheduled (s := placeOption s k) rfl]
  exact (walkTurn_inside (s := setSched (placeOption s k) s.sched) rfl (.inl rfl) rfl (show 20 < 60 by decide)).trans
    (walkOption_of_kind hk hd)

/-- Settles O20: the table word is placed as a command or as an option, each where its turn runs it. -/
theorem placedWordIsRunNext : Obligations.PlacedWordIsRunNext := by
  intro s nbits w i hm hd
  rw [State.withFetchWord]
  have hdec : decodeInstr (tableSpace nbits w) = .ok i := by
    unfold decodeTableWord at hd
    split at hd
    · next j hj => rw [hj, Option.some.inj hd]
    · cases hd
  cases htab : tableSpace nbits w with
  | command x =>
    rw [htab] at hdec
    cases hdec
    exact step_placeCommand s x
  | optionKind k =>
    rw [htab] at hdec
    exact step_placeOption hm hdec

/-! ### Reset -/

/-- Settles O17: every flag is clear, both stores are empty and no walk is active. -/
theorem invariantsHoldAtReset : Obligations.InvariantsHoldAtReset := by
  obtain ⟨hstatus, hlatch⟩ := statusInv_resetBlock State.reset
  exact ⟨hstatus, hlatch, memWf_reset, walkInv_of_idle rfl⟩

end Sys2Proof.Machine
end

section
/-!
PROOFS. The IPv4 codec: IP_DECODE and IP_ENCODE on headers laid out in PBUF and in the registers, their errors in their
order, and the round trip (40_ipv4_codec.md).
-/
namespace Sys2Proof.Machine

variable {s : State}

/-! ### IP_DECODE -/

theorem bodyIpDecode_of_inRange (hr : inRange s) :
    bodyIpDecode s = (do
      let (h, hl) ← ipParse s.pbuf s.latch.start.toNat s.latch.len.toNat
      pure (setResultLen (setIph s h) (BitVec.ofNat 32 hl), false)) :=
  checkBounds_bind_of_inRange _ hr

/-- IP_DECODE ends with the error its parse ends with (40_ipv4_codec.md R152). -/
theorem exec_ipDecode_error {e : Err} {info : Word} (hr : inRange s)
    (hp : ipParse s.pbuf s.latch.start.toNat s.latch.len.toNat = .error (.raise e info)) :
    exec .ipDecode s = .next (errorCompletion s e info 0) :=
  finish_of_raise (by rw [bodyIpDecode_of_inRange hr, hp, error_bind])

theorem exec_ipDecode_parsed {h : IpHeader} {hl : Nat} (hr : inRange s)
    (hp : ipParse s.pbuf s.latch.start.toNat s.latch.len.toNat = .ok (h, hl)) :
    exec .ipDecode s = .next (successCompletion { s with iph := h } false 0 (BitVec.ofNat 32 hl)) :=
  finish_of_ok (w := setIph s h) false (by rw [bodyIpDecode_of_inRange hr, hp, ok_bind]; rfl)

theorem withFrag_of_eq {h : IpHeader} {f : BitVec 2} (hf : h.frag = f) : { h with frag := f } = h := by
  subst hf
  rfl

/-- A well-formed header in PBUF parses to its fields (40_ipv4_codec.md R151). -/
theorem ipParse_wellFormed {m : PacketBuffer} {a n : Nat} {h : IpHeader} {rf df mf : Bool} (hr : a + n ≤ m.size)
    (hb : bytesAt m a (ipRaw 4 rf df mf h)) (hdm : ¬(df = true ∧ mf = true)) (h5 : 5 ≤ h.ihl.toNat)
    (hn : 4 * h.ihl.toNat ≤ n) :
    ipParse m a n = .ok ({ h with frag := fragOf df mf }, 4 * h.ihl.toNat) := by
  rw [ipParse_ipRaw 4 rf df mf h (by omega) hb, if_neg (by omega), if_neg (by decide), if_neg hdm, if_neg (by omega)]

/-- Settles O26: the parse of a well-formed header gives its fields and length. -/
theorem ipDecodeSucceeds : Obligations.IpDecodeSucceeds := by
  intro s h rf df mf hr hb hdm hf h5 hn
  have hp := ipParse_wellFormed hr hb hdm h5 hn
  rw [withFrag_of_eq hf] at hp
  exact exec_ipDecode_parsed hr hp

/-! ### IP_ENCODE -/

/-- The header checks of IP_ENCODE and FRAME_ENCODE in their order (40_ipv4_codec.md R153). -/
theorem checkIpEncode_eq (h : IpHeader) (n : Word) : checkIpEncode h n =
    if h.ihl ≠ 5 ∨ h.totlen.toNat < 20 then .error (.raise .encIpLen (h.ihl.setWidth 32))
    else if n.toNat < h.totlen.toNat then .error (.raise .encBuf n) else .ok () := by
  rw [checkIpEncode, failIf_bind]
  rfl

theorem checkIpEncode_badLength {h : IpHeader} {n : Word} (hb : h.ihl ≠ 5 ∨ h.totlen.toNat < 20) :
    checkIpEncode h n = .error (.raise .encIpLen (h.ihl.setWidth 32)) := by
  rw [checkIpEncode_eq, if_pos hb]

theorem checkIpEncode_noRoom {h : IpHeader} {n : Word} (h5 : h.ihl = 5) (h20 : 20 ≤ h.totlen.toNat)
    (hn : n.toNat < h.totlen.toNat) : checkIpEncode h n = .error (.raise .encBuf n) := by
  rw [checkIpEncode_eq, if_neg (not_or.2 ⟨not_not.2 h5, by omega⟩), if_pos hn]

theorem checkIpEncode_ok {h : IpHeader} {n : Word} (h5 : h.ihl = 5) (h20 : 20 ≤ h.totlen.toNat)
    (hn : h.totlen.toNat ≤ n.toNat) : checkIpEncode h n = .ok () := checkIpEncode_eq_ok.2 ⟨h5, h20, hn⟩

theorem bodyIpEncode_of_inRange (hr : inRange s) :
    bodyIpEncode s = (do
      checkIpEncode s.iph s.latch.len
      let img ← ipImage false s.iph
      pure (setResultLen (setPbuf s (pbufPutList s.pbuf s.latch.start.toNat img)) 20, false)) :=
  checkBounds_bind_of_inRange _ hr

theorem length_ipWire (h : IpHeader) : (ipWire h).length = 20 := rfl

/-- IP_ENCODE of valid registers writes the header's 20 bytes from lat_start on (40_ipv4_codec.md R153). -/
theorem exec_ipEncode_valid (hr : inRange s) (h5 : s.iph.ihl = 5) (h20 : 20 ≤ s.iph.totlen.toNat)
    (hn : s.iph.totlen.toNat ≤ s.latch.len.toNat) (hf : s.iph.frag ≠ 3) :
    exec .ipEncode s = .next (encodedState s (ipWire s.iph) 20) :=
  finish_of_ok false (by
    rw [bodyIpEncode_of_inRange hr, checkIpEncode_ok h5 h20 hn, ok_bind, ipImage_of_frag_ne false hf, ok_bind,
      ipWire_eq]
    rfl)

/-- Settles O27: every check passes, and the image is the header as written. -/
theorem ipEncodeSucceeds : Obligations.IpEncodeSucceeds := fun s hr h5 h20 hn hf =>
  ⟨_, exec_ipEncode_valid hr h5 h20 hn hf, bytesAt_encodedState s _ 20, encodedState_frame s (length_ipWire _) 20⟩

/-! ### Errors -/

/-- Settles O28: each conclusion is one check, with those before it passed. -/
theorem ipCodecErrors : Obligations.IpCodecErrors := by
  refine ⟨fun s v h rf df mf => ⟨fun hb => ?_, fun hr hn => ?_, fun hr hn hb => ?_⟩,
    fun s => ⟨fun hb => ?_, fun hr hl => ?_, fun hr h5 h20 hn => ?_, fun hr h5 h20 hn hf => ?_⟩⟩
  · exact finish_of_bounds false (checkBounds_bind_of_gt _ hb)
  · refine exec_ipDecode_error hr ?_
    rw [ipParse, failIf_pos hn, error_bind, BitVec.ofNat_toNat, BitVec.setWidth_eq]
  · have hp := ipParse_ipRaw (n := s.latch.len.toNat) v rf df mf h (by omega) hb
    rw [if_neg (by omega)] at hp
    refine ⟨fun hv => ?_, fun hv hd hm => ?_, fun hv hdm hl => ?_⟩
    · rw [if_pos hv] at hp
      exact exec_ipDecode_error hr hp
    · rw [if_neg (not_not.2 hv), if_pos ⟨hd, hm⟩] at hp
      exact exec_ipDecode_error hr hp
    · rw [if_neg (not_not.2 hv), if_neg hdm, if_pos hl] at hp
      exact exec_ipDecode_error hr hp
  · exact finish_of_bounds false (checkBounds_bind_of_gt _ hb)
  · exact finish_of_raise (by rw [bodyIpEncode_of_inRange hr, checkIpEncode_badLength hl, error_bind])
  · exact finish_of_raise (by rw [bodyIpEncode_of_inRange hr, checkIpEncode_noRoom h5 h20 hn, error_bind])
  · exact finish_of_raise (by
      rw [bodyIpEncode_of_inRange hr, checkIpEncode_ok h5 h20 hn, ok_bind, ipImage_of_frag_eq false hf, error_bind])

/-! ### Round trip -/

/-- IPH_FRAG of flag bits not both set is legal, and the image writes the bits back (30_encoding.md R101, R102). -/
theorem ipWire_fragOf {h : IpHeader} {df mf : Bool} (hdm : ¬(df = true ∧ mf = true)) :
    fragOf df mf ≠ 3 ∧ ipWire { h with frag := fragOf df mf } = ipRaw 4 false df mf h := by
  cases df <;> cases mf
  · exact ⟨by decide, rfl⟩
  · exact ⟨by decide, rfl⟩
  · exact ⟨by decide, rfl⟩
  · exact absurd ⟨rfl, rfl⟩ hdm

/-- The flag bits of a legal IPH_FRAG: not both set, and they stand for it (30_encoding.md R101, R102). -/
theorem fragOf_flags {f : BitVec 2} (hf : f ≠ 3) :
    ¬(decide (f = 1) = true ∧ decide (f = 2) = true) ∧ f = fragOf (decide (f = 1)) (decide (f = 2)) := by
  rcases frag_cases f hf with rfl | rfl | rfl <;> exact ⟨by decide, rfl⟩

/-- Settles O29: what IP_ENCODE wrote is a header laid out in PBUF, and what IP_DECODE read is a set of valid
registers. -/
theorem ipRoundTrip : Obligations.IpRoundTrip := by
  refine ⟨fun s g n hr h5 h20 hn hf hn20 hfit => ?_, fun s h df mf a n hr hb hdm h5 hn h20 htn hfit => ?_⟩
  · obtain ⟨hdm, hfrag⟩ := fragOf_flags hf
    have h5' : s.iph.ihl.toNat = 5 := by rw [h5]; rfl
    have hbytes := bytesAt_encodedState s (ipWire s.iph) 20
    rw [← size_encodedState s (ipWire s.iph) 20] at hfit
    have hd := ipDecodeSucceeds
      { encodedState s (ipWire s.iph) 20 with iph := g, latch := { s.latch with len := n } } s.iph false
      (decide (s.iph.frag = 1)) (decide (s.iph.frag = 2)) hfit hbytes hdm hfrag (by omega) (by rw [h5']; exact hn20)
    refine ⟨_, _, exec_ipEncode_valid hr h5 h20 hn hf, hd, rfl, rfl, ?_⟩
    change BitVec.ofNat 32 (4 * s.iph.ihl.toNat) = 20
    rw [h5']
    rfl
  · obtain ⟨hf, hwire⟩ := ipWire_fragOf (h := h) hdm
    have h5' : h.ihl.toNat = 5 := by rw [h5]; rfl
    rw [← hwire]
    exact ⟨_, _, exec_ipDecode_parsed hr (ipParse_wellFormed hr hb hdm (by omega) (by omega)),
      exec_ipEncode_valid hfit h5 h20 htn hf, rfl, bytesAt_encodedState _ _ 20⟩

end Sys2Proof.Machine
end

section
/-!
PROOFS. The TCP option kinds as instructions: one round of the option walk on the hidden working copy (41_tcp_codec.md
sections 1 and 2, log 8).
-/
namespace Sys2Proof.Machine

variable {s : State} {m : PacketBuffer} {a hl p n : Nat}

/-! ### Supported options -/

theorem decodeOptionKind_optKind (e : TcpOption) : decodeOptionKind (optKind e) = .ok (optInstr e) := by
  cases e <;> rfl

theorem optBytes_kind (e : TcpOption) : ∃ r, optBytes e = optKind e :: r := by
  cases e <;> exact ⟨_, rfl⟩

/-- The meaning of the option kind that stands at the walk's offset is a round of the command's own walk
(41_tcp_codec.md R181). -/
theorem exec_fetched {k : Byte} {i : Instr} (hk : readByte s.pbuf (s.walk.base + s.walk.p) = .ok k)
    (hd : decodeOptionKind k = .ok i) :
    exec i s = finishOption s (optStep s.pbuf s.walk.base s.walk.hl s.walk.p) := by
  rw [← walkOption_of_kind hk hd, walkOption_eq]

/-- Settles O33: the bytes of an option begin with its kind, and its round decodes it to itself. -/
theorem optionRoundsDecode : Obligations.OptionRoundsDecode := by
  intro s e hw hr hp hb
  obtain ⟨r, he⟩ := optBytes_kind e
  have hpos := optSize_pos e
  have hk := readByte_of_bytesAt (by omega) (he ▸ hb)
  rw [exec_fetched hk (decodeOptionKind_optKind e), optStep_wire hw hr hp hb]
  rfl

/-! ### Frame -/

/-- Settles O34: a round moves the walk past one option, or it is the error commit at that option's offset. -/
theorem optionRoundsTouchOnlyTheWalk : Obligations.OptionRoundsTouchOnlyTheWalk := by
  intro i s t hi h
  rcases exec_option_cases hi h with ⟨o, size, rfl⟩ | ⟨e, he, rfl⟩
  · exact ⟨.inl rfl, fun _ => rfl⟩
  · have hne : e ≠ .bounds := by rcases he with rfl | rfl <;> decide
    exact ⟨.inr ⟨e, he, commitErr_option s hne _⟩, fun _ => rfl⟩

/-- Settles O36: the two kinds raise before any byte behind the kind is read. -/
theorem unsupportedOptionsEndTheCommand : Obligations.UnsupportedOptionsEndTheCommand := by
  intro s
  rw [← commitErr_option s (by decide)]
  exact ⟨rfl, rfl⟩

/-! ### The length byte -/

/-- A stop that is a fault of the model. -/
abbrev Stop.isFault (e : Stop) : Prop := ∃ f, e = .fault f

theorem isFault_bind {α β : Type} {x : Except Stop α} {f : α → Except Stop β} (hx : ∀ e, x = .error e → e.isFault)
    (hf : ∀ a e, f a = .error e → e.isFault) : ∀ e, (x >>= f) = .error e → e.isFault := by
  intro e h
  rcases bind_eq_error.1 h with h | ⟨a, -, h⟩
  · exact hx e h
  · exact hf a e h

theorem memRead16_isFault : ∀ e, memRead16 m a = .error e → e.isFault :=
  isFault_bind (fun _ => readBytes_error) fun _ _ => nofun

theorem memRead32_isFault : ∀ e, memRead32 m a = .error e → e.isFault :=
  isFault_bind (fun _ => readBytes_error) fun _ _ => nofun

theorem readBlocks_isFault : ∀ e, readBlocks m a n = .error e → e.isFault := by
  induction n generalizing a with
  | zero => exact fun _ => nofun
  | succ n ih =>
    exact isFault_bind memRead32_isFault fun _ => isFault_bind memRead32_isFault fun _ =>
      isFault_bind ih fun _ _ => nofun

/-- What follows the length check of an option: reads of its contents, which may fault, and the option with the size its
length byte gave (41_tcp_codec.md R185 to R190). -/
def takesSize (g : Nat → Except Stop (TcpOption × Nat)) : Prop :=
  ∀ size, (∀ x, g size = .ok x → x.2 = size) ∧ ∀ e, g size = .error e → e.isFault

/-- The contents of an option are one read `x`, which `f` makes an option of. -/
theorem takesSize_of_read {α : Type} {x : Nat → Except Stop α} (f : α → TcpOption)
    (hx : ∀ size e, x size = .error e → e.isFault) : takesSize fun size => (do
      let v ← x size
      pure (f v, size)) := by
  refine fun size => ⟨fun y hy => ?_, isFault_bind (hx size) fun _ _ => nofun⟩
  obtain ⟨v, -, hv⟩ := bind_eq_ok.1 hy
  cases hv
  rfl

/-- Each kind with a length byte checks it first, then takes the size it gave (41_tcp_codec.md R181, R182). -/
theorem exec_sized {i : Instr} {k : Byte} (h : (i, k) ∈ sizedKinds) (s : State) :
    ∃ g, exec i s = finishOption s (optLength s.pbuf s.walk.base s.walk.hl s.walk.p k.toNat >>= g) ∧ takesSize g := by
  simp only [sizedKinds, List.mem_cons, List.not_mem_nil, or_false, Prod.mk.injEq] at h
  rcases h with ⟨rfl, rfl⟩ | ⟨rfl, rfl⟩ | ⟨rfl, rfl⟩ | ⟨rfl, rfl⟩ | ⟨rfl, rfl⟩ | ⟨rfl, rfl⟩
  · exact ⟨_, rfl, takesSize_of_read _ fun _ => memRead16_isFault⟩
  · exact ⟨_, rfl, takesSize_of_read _ fun _ _ => readByte_error⟩
  · exact ⟨_, rfl, fun size => ⟨fun x hx => by cases hx; rfl, fun _ => nofun⟩⟩
  · exact ⟨_, rfl, takesSize_of_read _ fun _ => readBlocks_isFault⟩
  · refine ⟨_, rfl, fun size => ⟨fun y hy => ?_, isFault_bind memRead32_isFault fun _ =>
      isFault_bind memRead32_isFault fun _ _ => nofun⟩⟩
    obtain ⟨v, -, hy⟩ := bind_eq_ok.1 hy
    obtain ⟨w, -, hy⟩ := bind_eq_ok.1 hy
    cases hy
    rfl
  · exact ⟨_, rfl, takesSize_of_read _ fun _ => memRead16_isFault⟩

/-- A length byte that is not wrong for its kind is the kind's (41_tcp_codec.md R182). -/
theorem lenOk_of_not_bad {k l : Byte} (hk : k ∈ sizedKinds.map Prod.snd) (h : ¬badLength k l) :
    lenOk k.toNat l.toNat = true := by
  obtain ⟨h2, h3, h4, h8, h5⟩ : ((k = 2 ∨ k = 28) → l = 4) ∧ (k = 3 → l = 3) ∧ (k = 4 → l = 2) ∧
      (k = 8 → l = 10) ∧ (k = 5 → 2 ≤ l.toNat ∧ (l.toNat - 2) % 8 = 0) := by
    simpa only [badLength, not_or, not_and, not_not, not_lt, ne_eq] using h
  rcases sizedKinds_cases hk with rfl | rfl | rfl | rfl | rfl | rfl
  · rw [h2 (.inl rfl)]; rfl
  · rw [h3 rfl]; rfl
  · rw [h4 rfl]; rfl
  · obtain ⟨hge, hmod⟩ := h5 rfl
    simp [lenOk, hge, hmod]
  · rw [h8 rfl]; rfl
  · rw [h2 (.inr rfl)]; rfl

/-- Settles O35: the length check decides between the error commit and the option of that size. -/
theorem optionLengthErrors : Obligations.OptionLengthErrors := by
  intro i k l s hik hr hp
  have hk : k ∈ sizedKinds.map Prod.snd := List.mem_map_of_mem (f := Prod.snd) hik
  obtain ⟨g, hx, hg⟩ := exec_sized hik s
  refine ⟨fun hbad => ?_, fun hc hok hfit t ht => ?_⟩
  · rw [hx, optLength_error hk hr hp hbad, error_bind, ← commitErr_option s (by decide)]
    rfl
  · have hlen := lenOk_of_not_bad hk hok
    rw [hx, optLength_ok hr hc hlen hfit (lenOk_ge hlen), ok_bind] at ht
    obtain ⟨hsize, hfault⟩ := hg l.toNat
    cases hgl : g l.toNat with
    | ok x =>
      obtain ⟨o, size⟩ := x
      obtain rfl : size = l.toNat := hsize _ hgl
      rw [hgl] at ht
      cases ht
      rfl
    | error e =>
      obtain ⟨f, rfl⟩ := hfault e hgl
      rw [hgl] at ht
      cases ht

end Sys2Proof.Machine
end

section
/-!
PROOFS. The TCP codec: TCP_DECODE of headers laid out in PBUF with any list of supported options, TCP_ENCODE of
registers that describe a valid header, their errors, and the round trip (41_tcp_codec.md).
-/
namespace Sys2Proof.Machine

variable {s : State} {o : List (Nat × Word)} {opts : List TcpOption} {bs : List (Word × Word)} {w j : Nat}

/-! ### The words of a decoded entry -/

/-- SACK blocks as words: start and end of each block in turn (10_state.md R45). -/
theorem flatMap_blocks_get (bs : List (Word × Word)) (j : Nat) :
    (bs.flatMap fun b => [b.1, b.2])[j]? = bs[j / 2]?.map fun b => if j % 2 = 0 then b.1 else b.2 := by
  induction bs generalizing j with
  | nil => simp
  | cons b bs ih =>
    match j with
    | 0 => rfl
    | 1 => rfl
    | j + 2 =>
      have hd : (j + 2) / 2 = j / 2 + 1 := by omega
      have hm : (j + 2) % 2 = j % 2 := by omega
      simp only [List.flatMap_cons, List.cons_append, List.nil_append, List.getElem?_cons_succ, ih, hd, hm]

theorem length_flatMap_blocks (bs : List (Word × Word)) : (bs.flatMap fun b => [b.1, b.2]).length = 2 * bs.length := by
  induction bs with
  | nil => rfl
  | cons b bs ih =>
    simp only [List.flatMap_cons, List.length_append, List.length_cons, List.length_nil, ih]
    omega

/-- Words w3 to w10 of a SACK entry, the unused ones 0 (10_state.md R45). -/
theorem sackWords_get (h3 : 3 ≤ w) (hw : w < 11) :
    (sackWords bs)[w - 3]? = some (match bs[(w - 3) / 2]? with
      | some b => if w % 2 = 1 then b.1 else b.2
      | none => 0) := by
  have hpar : (w - 3) % 2 = 0 ↔ w % 2 = 1 := by omega
  rw [sackWords, List.getElem?_take_of_lt (by omega)]
  by_cases hin : w - 3 < 2 * bs.length
  · have hb : (w - 3) / 2 < bs.length := by omega
    rw [List.getElem?_append_left (by rw [length_flatMap_blocks]; exact hin), flatMap_blocks_get,
      List.getElem?_eq_getElem hb]
    simp only [Option.map_some, hpar]
  · rw [List.getElem?_append_right (by rw [length_flatMap_blocks]; omega), length_flatMap_blocks,
      List.getElem?_replicate_of_lt (by omega), List.getElem?_eq_none (by omega)]

/-- w0 of a SACK entry of at most four blocks: KIND 5 and NBLK (10_state.md R45). -/
theorem sackHead (h : bs.length ≤ 4) :
    entryHead 5 (BitVec.ofNat 3 bs.length) = BitVec.ofNat 32 (5 + 256 * bs.length) := by
  generalize bs.length = n at h
  interval_cases n <;> rfl

/-- w0 of the other entries: KIND alone, NBLK 0 (10_state.md R45). -/
theorem kindHead {e : TcpOption} (h : ∀ bs, e ≠ .sack bs) : entryHead (optKind e) 0 = entryWord e 0 := by
  cases e with
  | sack bs => exact absurd rfl (h bs)
  | _ => simp only [optKind, entryWord, if_true]; decide

/-- The words of a decoded entry are those of 10_state.md R45 and R46. -/
theorem optWords_get {e : TcpOption} (he : e.wellFormed = true) (hw : w < 11) :
    (optWords e)[w]? = some (entryWord e w) := by
  cases e with
  | sack bs =>
    by_cases h3 : 3 ≤ w
    · obtain ⟨v, rfl⟩ := Nat.exists_eq_add_of_le' h3
      rw [entryWord, if_neg (by omega), if_neg (by omega)]
      exact sackWords_get h3 hw
    · interval_cases w
      · exact congrArg some (sackHead (of_decide_eq_true he))
      · rfl
      · rfl
  | _ =>
    interval_cases w
    · exact congrArg some (kindHead nofun)
    all_goals rfl

/-- A decoded option list, written over the option storage (41_tcp_codec.md R195). -/
theorem entriesWritten_writeEntries (o : List (Nat × Word)) (ho : optsOk opts) :
    entriesWritten o (writeEntries o 0 opts) opts := by
  refine ⟨fun i hi w hw => ?_, fun k hk => writeEntries_out (.inr (by omega))⟩
  have hget := writeEntries_in (o := o) (i := 0) hi hw
  rw [Nat.zero_add] at hget
  rw [hget, optWords_get (ho _ (List.getElem_mem hi)) hw]

/-- Written entries describe the options they were decoded from (10_state.md R45, R46). -/
theorem entryHolds_of_words {i : Nat} {e : TcpOption} (he : e.wellFormed = true)
    (h : ∀ w, w < 11 → cellGet o (12 * i + w) = some (entryWord e w)) : entryHolds o i e := by
  have h1 := h 1 (by decide)
  have h2 := h 2 (by decide)
  have hkind : (∀ bs, e ≠ .sack bs) → headKind (entryWord e 0) = optKind e := fun hs => by
    rw [← kindHead hs, headKind_entryHead]
  have hlow : ∀ {k : Nat} (v : BitVec k), k ≤ 32 → (v.setWidth 32).extractLsb' 0 k = v := fun v hk =>
    (BitVec.extractLsb'_setWidth_of_le (by omega)).trans BitVec.extractLsb'_eq_self
  refine ⟨entryWord e 0, h 0 (by decide), ?_⟩
  cases e with
  | endOfList | noOp | sackPermitted => exact ⟨hkind nofun, trivial⟩
  | maximumSegmentSize v => exact ⟨hkind nofun, _, h1, hlow v (by decide)⟩
  | windowScale v => exact ⟨hkind nofun, _, h1, hlow v (by decide)⟩
  | userTimeout v => exact ⟨hkind nofun, _, h1, hlow v (by decide)⟩
  | timestamp v e => exact ⟨hkind nofun, h1, h2⟩
  | sack bs =>
    have h4 : bs.length ≤ 4 := of_decide_eq_true he
    have hhead : entryWord (.sack bs) 0 = entryHead 5 (BitVec.ofNat 3 bs.length) := (sackHead h4).symm
    rw [hhead, headKind_entryHead, headNblk_entryHead]
    refine ⟨rfl, by simp only [BitVec.toNat_ofNat]; omega, fun j hj => ?_⟩
    have hstart := h (3 + 2 * j) (by omega)
    have hend := h (4 + 2 * j) (by omega)
    rw [entryWord, if_neg (by omega), if_neg (by omega)] at hstart hend
    rw [show (3 + 2 * j - 3) / 2 = j by omega, List.getElem?_eq_getElem hj] at hstart
    rw [show (4 + 2 * j - 3) / 2 = j by omega, List.getElem?_eq_getElem hj] at hend
    rw [Nat.add_assoc, Nat.add_assoc, hstart, hend]
    exact ⟨congrArg some (if_pos (by omega)), congrArg some (if_neg (by omega))⟩

theorem entriesHold_of_written {o' : List (Nat × Word)} (ho : optsOk opts) (h : entriesWritten o o' opts) :
    entriesHold o' opts :=
  fun i hi => entryHolds_of_words (ho _ (List.getElem_mem hi)) (h.1 i hi)

/-! ### TCP_DECODE -/

theorem bodyTcpDecode_of_inRange (hr : inRange s) :
    bodyTcpDecode s = (do
      let (h, opts, hl) ← tcpParse s.pbuf s.latch.start.toNat s.latch.len.toNat
      pure (setResultLen (storeTcp s h opts) (BitVec.ofNat 32 hl), false)) :=
  checkBounds_bind_of_inRange _ hr

/-- TCP_DECODE ends with the error its parse ends with (41_tcp_codec.md R195). -/
theorem exec_tcpDecode_error {e : Err} {info : Word} (hr : inRange s)
    (hp : tcpParse s.pbuf s.latch.start.toNat s.latch.len.toNat = .error (.raise e info)) :
    exec .tcpDecode s = .next (errorCompletion s e info 0) :=
  finish_of_raise (by rw [bodyTcpDecode_of_inRange hr, hp, error_bind])

theorem exec_tcpDecode_parsed {h : TcpHeader} {hl : Nat} (hr : inRange s)
    (hp : tcpParse s.pbuf s.latch.start.toNat s.latch.len.toNat = .ok (h, opts, hl)) :
    exec .tcpDecode s = .next (successCompletion
      { s with tcph := h, optcnt := BitVec.ofNat 6 opts.length, opt := writeEntries s.opt 0 opts } false 0
      (BitVec.ofNat 32 hl)) :=
  finish_of_ok (w := storeTcp s h opts) false (by rw [bodyTcpDecode_of_inRange hr, hp, ok_bind]; rfl)

/-- A header has room for 40 bytes of options at most, each of one byte at least (00_scope.md R4). -/
theorem length_le_optMax {h : TcpHeader} (hs : 20 + wireSize opts = 4 * h.doff.toNat) : opts.length ≤ 40 := by
  have hd := h.doff.isLt
  have hl := length_le_wireSize opts
  omega

/-- Settles O30: the header parses to its fields and options, and these are written over OPT. -/
theorem tcpDecodeSucceeds : Obligations.TcpDecodeSucceeds := by
  intro s h r opts hr hb ho h5 hs hn
  exact ⟨_, exec_tcpDecode_parsed hr (tcpParse_wire ho h5 hs hn hr hb), entriesWritten_writeEntries s.opt ho,
    length_le_optMax hs, rfl⟩

/-! ### TCP_ENCODE -/

theorem bodyTcpEncode_of_inRange (hr : inRange s) :
    bodyTcpEncode s = (do
      failIf (s.tcph.doff.toNat < 5) (.raise .tcpDoff (s.tcph.doff.setWidth 32))
      failIf (s.latch.len.toNat < 4 * s.tcph.doff.toNat) (.raise .encBuf s.latch.len)
      let img ← tcpImage false s.tcph s.optcnt s.opt
      pure (setResultLen (setPbuf s (pbufPutList s.pbuf s.latch.start.toNat img))
        (BitVec.ofNat 32 (4 * s.tcph.doff.toNat)), false)) :=
  checkBounds_bind_of_inRange _ hr

/-- TCP_ENCODE is its image, once there is room for the header (41_tcp_codec.md R196). -/
theorem bodyTcpEncode_of_room (hr : inRange s) (h5 : 5 ≤ s.tcph.doff.toNat)
    (hn : 4 * s.tcph.doff.toNat ≤ s.latch.len.toNat) :
    bodyTcpEncode s = (do
      let img ← tcpImage false s.tcph s.optcnt s.opt
      pure (setResultLen (setPbuf s (pbufPutList s.pbuf s.latch.start.toNat img))
        (BitVec.ofNat 32 (4 * s.tcph.doff.toNat)), false)) := by
  rw [bodyTcpEncode_of_inRange hr, failIf_neg (by omega), ok_bind, failIf_neg (by omega), ok_bind]

theorem exec_tcpEncode_valid (hr : inRange s) (hv : tcpValid s opts) (hn : 4 * s.tcph.doff.toNat ≤ s.latch.len.toNat) :
    exec .tcpEncode s = .next (encodedState s (tcpWire s.tcph 0 ++ wireBytes opts)
      (BitVec.ofNat 32 (4 * s.tcph.doff.toNat))) :=
  finish_of_ok false (by
    rw [bodyTcpEncode_of_room hr hv.1 hn, tcpImage_of_valid false hv, ok_bind, tcpWire_eq]
    rfl)

/-- The image of a valid header fills it (41_tcp_codec.md R194). -/
theorem length_tcpWire_append (hv : tcpValid s opts) (r : BitVec 4) :
    (tcpWire s.tcph r ++ wireBytes opts).length = 4 * s.tcph.doff.toNat := by
  obtain ⟨h5, -, -, hs, -⟩ := hv
  have hlen : (tcpWire s.tcph r).length = 20 := rfl
  rw [List.length_append, hlen, length_wireBytes, hs]
  omega

/-- Settles O37: every check passes, and the image is the header and its options as written. -/
theorem tcpEncodeSucceeds : Obligations.TcpEncodeSucceeds := fun s _ hr hv hn =>
  ⟨_, exec_tcpEncode_valid hr hv hn, bytesAt_encodedState s _ _, encodedState_frame s (length_tcpWire_append hv 0) _⟩

/-! ### Errors -/

theorem toNat_highNibble (b : Byte) : (b.extractLsb' 4 4 : BitVec 4).toNat = b.toNat / 16 := by
  have hb := b.isLt
  rw [BitVec.extractLsb'_toNat, Nat.shiftRight_eq_div_pow, Nat.mod_eq_of_lt (by omega)]

/-- TCP_DOFF is decided by the nibble at offset 12 alone (41_tcp_codec.md R180). -/
theorem tcpFront_badDoff {m : PacketBuffer} {a n : Nat} {b12 : Byte} (h20 : 20 ≤ n) (ha : a + n ≤ m.size)
    (hb : cellGet m.bytes (a + 12) = some b12) (hd : b12.toNat / 16 < 5 ∨ n < 4 * (b12.toNat / 16)) :
    tcpFront m a n = .error (.raise .tcpDoff (BitVec.ofNat 32 (b12.toNat / 16))) := by
  rw [← toNat_highNibble] at hd ⊢
  rw [tcpFront, failIf_neg (by omega), ok_bind, readByte_of_get (by omega) hb, ok_bind, BitVec.ofNat_toNat]
  exact congrArg (· >>= _) (failIf_pos hd)

theorem tcpImage_badDoff (z : Bool) (hd : s.tcph.doff.toNat < 5) :
    tcpImage z s.tcph s.optcnt s.opt = .error (.raise .tcpDoff (s.tcph.doff.setWidth 32)) := by
  rw [tcpImage, failIf_pos hd, error_bind]

theorem tcpImage_tooMany (z : Bool) (hd : 5 ≤ s.tcph.doff.toNat) (hc : Config.optMax < s.optcnt.toNat) :
    tcpImage z s.tcph s.optcnt s.opt = .error (.raise .encOptLen (s.optcnt.setWidth 32)) := by
  rw [tcpImage, failIf_neg (by omega), ok_bind, failIf_pos hc, error_bind]

/-- Settles O31: each conclusion is one check, with those before it passed. -/
theorem tcpCodecErrors : Obligations.TcpCodecErrors := by
  refine ⟨fun s b12 => ⟨fun hb => ?_, fun hr hn => ?_, fun hr hn hb hd => ?_⟩,
    fun s => ⟨fun hb => ?_, fun hr hd => ?_, fun hr h5 hn => ?_, fun hr h5 hn hc => ?_⟩⟩
  · exact finish_of_bounds false (checkBounds_bind_of_gt _ hb)
  · refine exec_tcpDecode_error hr ?_
    rw [tcpParse, tcpFront, failIf_pos hn, error_bind, error_bind, BitVec.ofNat_toNat, BitVec.setWidth_eq]
  · exact exec_tcpDecode_error hr (by rw [tcpParse, tcpFront_badDoff hn hr hb hd, error_bind])
  · exact finish_of_bounds false (checkBounds_bind_of_gt _ hb)
  · exact finish_of_raise (by rw [bodyTcpEncode_of_inRange hr, failIf_pos hd, error_bind])
  · exact finish_of_raise (by
      rw [bodyTcpEncode_of_inRange hr, failIf_neg (by omega), ok_bind, failIf_pos hn, error_bind])
  · exact finish_of_raise (by rw [bodyTcpEncode_of_room hr h5 hn, tcpImage_tooMany false h5 hc, error_bind])

/-- Settles O32: the parse of the header stops at that option. -/
theorem tcpDecodeReportsTheFirstBadOption : Obligations.TcpDecodeReportsTheFirstBadOption := by
  intro s h r opts k l p hr h5 hn ho hp hlt hb
  obtain ⟨hunsup, hunknown, hlen⟩ := tcpParse_badOption (l := l) hr h5 hn ho hp hlt hb
  exact ⟨fun hk => exec_tcpDecode_error hr (hunsup hk), fun h1 h2 h3 => exec_tcpDecode_error hr (hunknown h1 h2 h3),
    fun hk hbad => exec_tcpDecode_error hr (hlen hk hbad)⟩

/-! ### Round trip -/

/-- A SACK entry of more than four blocks does not fit a header (00_scope.md R5). -/
theorem optsOk_of_valid (hv : tcpValid s opts) : optsOk opts := by
  obtain ⟨-, -, -, hs, -⟩ := hv
  have hd := s.tcph.doff.isLt
  intro e he
  have hle : optSize e ≤ wireSize opts := List.single_le_sum (by simp) _ (List.mem_map_of_mem he)
  cases e with
  | sack bs =>
    simp only [optSize] at hle
    exact decide_eq_true (show bs.length ≤ 4 by omega)
  | _ => rfl

theorem ofNat_toNat_eq {k n : Nat} {x : BitVec k} (h : x.toNat = n) : BitVec.ofNat k n = x := by
  rw [← h, BitVec.ofNat_toNat, BitVec.setWidth_eq]

/-- Settles O39: what TCP_ENCODE wrote is a header laid out in PBUF, and its decoded entries describe the options it was
made of. -/
theorem tcpRoundTrip : Obligations.TcpRoundTrip := by
  intro s opts g c o n hr hv hn hn' hfit
  have hvalid := hv
  obtain ⟨h5, hcnt, -, hs, -⟩ := hvalid
  have ho := optsOk_of_valid hv
  have hbytes := bytesAt_encodedState s (tcpWire s.tcph 0 ++ wireBytes opts) (BitVec.ofNat 32 (4 * s.tcph.doff.toNat))
  rw [← size_encodedState s (tcpWire s.tcph 0 ++ wireBytes opts) (BitVec.ofNat 32 (4 * s.tcph.doff.toNat))] at hfit
  have hd := exec_tcpDecode_parsed
    (s := { encodedState s (tcpWire s.tcph 0 ++ wireBytes opts) (BitVec.ofNat 32 (4 * s.tcph.doff.toNat)) with
      tcph := g, optcnt := c, opt := o, latch := { s.latch with len := n } })
    hfit (tcpParse_wire ho h5 (by omega) hn' hfit hbytes)
  exact ⟨_, _, exec_tcpEncode_valid hr hv hn, hd, rfl, rfl, ofNat_toNat_eq hcnt,
    entriesHold_of_written ho (entriesWritten_writeEntries o ho), rfl⟩

end Sys2Proof.Machine
end

section
/-!
PROOFS. The checksum in closed form, its sensitivity to a single bit, the stamped IPv4 header, and TCP_CSUM
(42_checksum.md).
-/
namespace Sys2Proof.Machine

variable {s : State} {opts : List TcpOption}

/-! ### The closed form -/

/-- The fold keeps the residue modulo 0xFFFF: a carry of 0x10000 comes back as 1 (42_checksum.md R231). -/
theorem fold_mod (x : Nat) : fold x % 0xFFFF = x % 0xFFFF := by
  induction x using fold_induction with
  | fits x h => rw [fold_of_le h]
  | carry x h ih => rw [fold_of_gt h, ih]; omega

/-- The fold of a sum: its residue, 0xFFFF standing for a residue of 0 unless the sum is 0 (42_checksum.md R231). -/
theorem fold_eq (x : Nat) : fold x = if x = 0 then 0 else if x % 0xFFFF = 0 then 0xFFFF else x % 0xFFFF := by
  have hmod := fold_mod x
  have hle := fold_le x
  have hzero := fold_eq_zero_iff x
  split
  · next h => exact hzero.2 h
  · split <;> omega

/-- The checksum is the complement of the folded word sum (42_checksum.md R232). -/
theorem toNat_csum (bs : List Byte) : (csum bs).toNat = 0xFFFF - fold (wireSum bs) := by
  have hle := fold_le (wireSum bs)
  rw [csum, wordSum_eq, BitVec.toNat_not, BitVec.toNat_ofNat, Nat.mod_eq_of_lt (by omega)]

/-- Two bytes add at most 0xFFFF to the word sum (00_scope.md R6). -/
theorem wireSum_le (bs : List Byte) : wireSum bs ≤ 0xFFFF * ((bs.length + 1) / 2) := by
  match bs with
  | [] => exact le_rfl
  | [b] =>
    have hb := b.isLt
    simp only [wireSum, List.length_cons, List.length_nil]
    omega
  | b :: c :: r =>
    have hb := b.isLt
    have hc := c.isLt
    have ih := wireSum_le r
    have hlen : (r.length + 1 + 1 + 1) / 2 = (r.length + 1) / 2 + 1 := by omega
    simp only [wireSum, List.length_cons, hlen]
    omega

/-- Settles O41: the fold in closed form, and a bound on the sum by the number of words. -/
theorem checksumClosedForm : Obligations.ChecksumClosedForm := by
  refine ⟨fun bs => ?_, fun bs hlen => ?_⟩
  · rw [toNat_csum, fold_eq]
    split
    · rfl
    · split <;> rfl
  · have hle := wireSum_le bs
    change wireSum bs < 2 ^ 32
    omega

/-! ### One flipped bit -/

/-- Flipping bit `k` of a byte moves its value by `2 ^ k`, up or down. -/
theorem flip_toNat (b : Byte) {k : Nat} (hk : k < 8) :
    (b ^^^ (1#8 <<< k)).toNat = b.toNat + 2 ^ k ∨ (b ^^^ (1#8 <<< k)).toNat + 2 ^ k = b.toNat := by
  revert b
  interval_cases k <;> decide +kernel

/-- Flipping bit `k` of byte `i` moves the word sum by `2 ^ k`, times 256 in a word's high byte, up or down. -/
theorem wireSum_flip (bs : List Byte) {i k : Nat} (h : i < bs.length) (hk : k < 8) :
    ∃ d, (d = 2 ^ k ∨ d = 256 * 2 ^ k) ∧
      (wireSum (bs.set i (bs[i] ^^^ (1#8 <<< k))) = wireSum bs + d ∨
        wireSum (bs.set i (bs[i] ^^^ (1#8 <<< k))) + d = wireSum bs) := by
  match bs, i with
  | [b], 0 =>
    refine ⟨256 * 2 ^ k, .inr rfl, ?_⟩
    have hf := flip_toNat b hk
    simp only [List.set_cons_zero, List.getElem_cons_zero, wireSum]
    omega
  | b :: c :: r, 0 =>
    refine ⟨256 * 2 ^ k, .inr rfl, ?_⟩
    have hf := flip_toNat b hk
    simp only [List.set_cons_zero, List.getElem_cons_zero, wireSum]
    omega
  | b :: c :: r, 1 =>
    refine ⟨2 ^ k, .inl rfl, ?_⟩
    have hf := flip_toNat c hk
    simp only [List.set_cons_zero, List.set_cons_succ, List.getElem_cons_zero, List.getElem_cons_succ, wireSum]
    omega
  | b :: c :: r, i + 2 =>
    obtain ⟨d, hd, hsum⟩ := wireSum_flip r (i := i) (by simpa using h) hk
    refine ⟨d, hd, ?_⟩
    simp only [List.set_cons_succ, List.getElem_cons_succ, wireSum]
    omega

/-- Equal checksums have word sums of equal residue (42_checksum.md R232). -/
theorem wireSum_mod_of_csum_eq {as bs : List Byte} (h : csum as = csum bs) :
    wireSum as % 0xFFFF = wireSum bs % 0xFFFF := by
  have hn := congrArg BitVec.toNat h
  rw [toNat_csum, toNat_csum] at hn
  have ha := fold_le (wireSum as)
  have hb := fold_le (wireSum bs)
  rw [← fold_mod, ← fold_mod (wireSum bs), show fold (wireSum as) = fold (wireSum bs) by omega]

/-- Settles O45: the sum moves by at most 0x8000 and not by 0, so not by a multiple of 0xFFFF. -/
theorem flippedBitChangesTheChecksum : Obligations.FlippedBitChangesTheChecksum := by
  intro bs i k h hk heq
  have hmod := wireSum_mod_of_csum_eq heq
  obtain ⟨d, hd, hsum⟩ := wireSum_flip bs h hk
  have hpos : 0 < 2 ^ k := Nat.two_pow_pos k
  have hle : 2 ^ k ≤ 2 ^ 7 := Nat.pow_le_pow_right (by decide) (by omega)
  omega

/-! ### The stamped header -/

/-- The checksum field is one word of the header's sum (42_checksum.md R233). -/
theorem wireSum_ipWire (h : IpHeader) :
    wireSum (ipWire h) = wireSum (ipWire { h with csum := 0 }) + h.csum.toNat := by
  have hj := toNat_join (h.csum.extractLsb' 8 8) (h.csum.extractLsb' 0 8)
  rw [join_bytes16] at hj
  have hhi : ((0 : Half).extractLsb' 8 8).toNat = 0 := by decide
  have hlo : ((0 : Half).extractLsb' 0 8).toNat = 0 := by decide
  simp only [ipWire, ipRaw, wireSum, hj, hhi, hlo]
  omega

/-- A header's first byte is 4 in its high nibble, so its sum is not 0 (40_ipv4_codec.md R150). -/
theorem wireSum_ipWire_pos (h : IpHeader) : 0 < wireSum (ipWire h) := by
  have h4 : 64 ≤ ((4 : BitVec 4) ++ h.ihl).toNat := by
    have hi := h.ihl.isLt
    rw [BitVec.toNat_append, Nat.shiftLeft_eq, Nat.mul_comm, ← Nat.two_pow_add_eq_or_of_lt hi]
    exact Nat.le_add_right 64 _
  simp only [ipWire, ipRaw, wireSum]
  omega

/-- A sum and its checksum fold to 0xFFFF, unless both are 0 (42_checksum.md section 4). -/
theorem fold_add_csum {bs : List Byte} (h : 0 < wireSum bs) : fold (wireSum bs + (csum bs).toNat) = 0xFFFF := by
  rw [toNat_csum, fold_eq (wireSum bs + _)]
  have hf := fold_eq (wireSum bs)
  rw [if_neg (by omega)] at hf
  have hmod : (wireSum bs + (0xFFFF - fold (wireSum bs))) % 0xFFFF = 0 := by
    split at hf <;> omega
  rw [if_neg (by omega), if_pos hmod]

/-- Settles O46: the image with the checksum field zeroed is the same before and after stamping, and the stamp brings
the header's sum to a multiple of 0xFFFF. -/
theorem stampedHeaderVerifies : Obligations.StampedHeaderVerifies := by
  intro s hf
  obtain ⟨hfirst, -⟩ := ipCsumResult s _ rfl
  obtain ⟨hsecond, -⟩ := ipCsumResult
    { successCompletion { s with csumResult := csum (ipWire { s.iph with csum := 0 }) }
        (decide (csum (ipWire { s.iph with csum := 0 }) = s.iph.csum)) 0 20 with
      iph := { s.iph with csum := csum (ipWire { s.iph with csum := 0 }) } } _ rfl
  refine ⟨_, _, hfirst hf, hsecond hf, decide_eq_true rfl, rfl, ?_⟩
  change fold (wireSum (ipWire { s.iph with csum := csum (ipWire { s.iph with csum := 0 }) })) = 0xFFFF
  rw [wireSum_ipWire]
  exact fold_add_csum (wireSum_ipWire_pos _)

/-! ### TCP_CSUM -/

theorem bodyTcpCsum_of_inRange (hr : inRange s) :
    bodyTcpCsum s = (do
      let img ← tcpImage true s.tcph s.optcnt s.opt
      let segLen := img.length + s.latch.len.toNat
      failIf (0xFFFF < segLen) (.raise .csumLen (BitVec.ofNat 32 segLen))
      let pay ← readBytes s.pbuf s.latch.start.toNat s.latch.len.toNat
      let c := csum (pseudoHeader s.iph.src s.iph.dst segLen ++ img ++ pay)
      pure (setResultLen (setCsumResult s c) (BitVec.ofNat 32 (12 + segLen)), c == s.tcph.csum)) :=
  checkBounds_bind_of_inRange _ hr

theorem exec_tcpCsum_imageError {e : Err} {info : Word} (hr : inRange s)
    (hi : tcpImage true s.tcph s.optcnt s.opt = .error (.raise e info)) :
    exec .tcpCsum s = .next (errorCompletion s e info 0) :=
  finish_of_raise (by rw [bodyTcpCsum_of_inRange hr, hi, error_bind])

/-- The image with a zero checksum is the header as written with TCPH_CSUM = 0 (41_tcp_codec.md R194). -/
theorem tcpBytes_zeroed (h : TcpHeader) : tcpBytes true h = tcpWire { h with csum := 0 } 0 := by
  rw [tcpWire_eq]
  simp only [tcpBytes, bytes16_zero, Bool.false_eq_true, if_true, if_false]

/-- The pseudo-header, its length field big-endian (42_checksum.md R234). -/
theorem pseudoHeader_eq (src dst : Word) (n : Nat) : pseudoHeader src dst n = pseudoWire src dst n := by
  have hhi : (BitVec.ofNat 16 n).extractLsb' 8 8 = BitVec.ofNat 8 (n / 256) := by
    apply BitVec.eq_of_toNat_eq
    simp only [BitVec.extractLsb'_toNat, BitVec.toNat_ofNat, Nat.shiftRight_eq_div_pow]
    omega
  have hlo : (BitVec.ofNat 16 n).extractLsb' 0 8 = BitVec.ofNat 8 n := by
    apply BitVec.eq_of_toNat_eq
    simp only [BitVec.extractLsb'_toNat, BitVec.toNat_ofNat, Nat.shiftRight_zero]
    omega
  simp only [pseudoHeader, bytes16, hhi, hlo]
  rfl

/-- The image of a valid header with its checksum field zeroed, and its length (41_tcp_codec.md R194). -/
theorem tcpImage_zeroed (hv : tcpValid s opts) :
    tcpImage true s.tcph s.optcnt s.opt = .ok (tcpWire { s.tcph with csum := 0 } 0 ++ wireBytes opts) ∧
      (tcpWire { s.tcph with csum := 0 } 0 ++ wireBytes opts).length = 4 * s.tcph.doff.toNat := by
  have hi := tcpImage_of_valid true hv
  rw [tcpBytes_zeroed] at hi
  exact ⟨hi, (tcpImage_length hi).1⟩

/-- Settles O43: image and payload are there, and the sum is over what the statement lists. -/
theorem tcpCsumSucceeds : Obligations.TcpCsumSucceeds := by
  rintro s opts pay c hr hv hn hb hlen rfl
  obtain ⟨hi, himg⟩ := tcpImage_zeroed hv
  have hbody := bodyTcpCsum_of_inRange hr
  rw [hi, ok_bind, readBytes_of_bytesAt hn hr hb] at hbody
  simp only [himg, ← hn, pseudoHeader_eq, List.append_assoc] at hbody
  rw [failIf_neg (by omega), ok_bind, ok_bind, pure_eq_ok] at hbody
  rw [exec_tcpCsum, finish_of_ok false hbody]
  simp only [List.append_assoc, Nat.add_assoc]
  rfl

/-- Settles O44: each conclusion is one check, with those before it passed. -/
theorem tcpCsumErrors : Obligations.TcpCsumErrors := by
  refine fun s opts => ⟨fun hb => ?_, fun hr hd => ?_, fun hr h5 hc => ?_, fun hr hv hlen => ?_⟩
  · exact finish_of_bounds false (checkBounds_bind_of_gt _ hb)
  · exact exec_tcpCsum_imageError hr (tcpImage_badDoff true hd)
  · exact exec_tcpCsum_imageError hr (tcpImage_tooMany true h5 hc)
  · obtain ⟨hi, himg⟩ := tcpImage_zeroed hv
    rw [← himg] at hlen ⊢
    exact finish_of_raise (by
      rw [bodyTcpCsum_of_inRange hr, hi, ok_bind]
      exact congrArg (· >>= _) (failIf_pos hlen))

end Sys2Proof.Machine
end

section
/-!
PROOFS. The dispatcher: its drops and errors in their order, what it accepts, and the payload slice (43_dispatcher.md
sections 1 and 2).
-/
namespace Sys2Proof.Machine

variable {s t : State} {m : PacketBuffer} {l : Latch} {lp : Half} {a n : Nat} {h : IpHeader} {th : TcpHeader}
  {opts : List TcpOption}

/-! ### The checks on raw bytes -/

theorem toNat_lowNibble (b : Byte) : (b.extractLsb' 0 4 : BitVec 4).toNat = b.toNat % 16 := by
  rw [BitVec.extractLsb'_toNat, Nat.shiftRight_zero]

theorem dispatchFront_of_bounds (hr : m.size < l.start.toNat + l.len.toNat) :
    dispatchFront m l lp = .error (.raise .bounds 0) := checkBounds_bind_of_gt _ hr

theorem dispatchFront_of_short (hr : l.start.toNat + l.len.toNat ≤ m.size) (hn : l.len.toNat < 40) :
    dispatchFront m l lp = .error (.drop .dropShort) := by
  rw [dispatchFront, checkBounds_of_le hr, ok_bind, failIf_pos hn, error_bind]

theorem dispatchFront_of_version {b0 : Byte} (hr : l.start.toNat + l.len.toNat ≤ m.size) (hn : 40 ≤ l.len.toNat)
    (h0 : cellGet m.bytes l.start.toNat = some b0) (hv : b0.extractLsb' 4 4 ≠ (4 : BitVec 4)) :
    dispatchFront m l lp = .error (.drop .dropVersion) := by
  rw [dispatchFront, checkBounds_of_le hr, ok_bind, failIf_neg (by omega), ok_bind, readByte_of_get (by omega) h0,
    ok_bind, failIf_pos hv, error_bind]

/-- DISPATCH from the protocol byte on, for a frame that is long enough and of version 4 (43_dispatcher.md R261). -/
theorem dispatchFront_of_first {b0 b9 : Byte} (hr : l.start.toNat + l.len.toNat ≤ m.size) (hn : 40 ≤ l.len.toNat)
    (h0 : cellGet m.bytes l.start.toNat = some b0) (hv : b0.extractLsb' 4 4 = (4 : BitVec 4))
    (h9 : cellGet m.bytes (l.start.toNat + 9) = some b9) :
    dispatchFront m l lp = if b9 ≠ 6 then .error (.drop .dropProto)
      else if b0.toNat % 16 < 5 ∨ l.len.toNat < 4 * (b0.toNat % 16) + 4 then
        .error (.raise .ipHdrLen (BitVec.ofNat 32 (b0.toNat % 16)))
      else (do
        let port ← memRead16 m (l.start.toNat + 4 * (b0.toNat % 16) + 2)
        failIf (port ≠ lp) (.drop .dropPort)
        let (ip, iphl) ← ipParse m l.start.toNat l.len.toNat
        failIf (l.len.toNat < ip.totlen.toNat ∨ ip.totlen.toNat < iphl + 20)
          (.raise .frameLen (ip.totlen.setWidth 32))
        pure (ip, iphl)) := by
  rw [dispatchFront, checkBounds_of_le hr, ok_bind, failIf_neg (by omega), ok_bind, readByte_of_get (by omega) h0,
    ok_bind, failIf_neg (not_not.2 hv), ok_bind, readByte_of_get (by omega) h9, ok_bind, ← toNat_lowNibble,
    BitVec.ofNat_toNat]
  simp only [failIf_bind] <;> rfl

/-! ### From the checks to the completion -/

theorem bodyDispatch_of_front_error {e : Stop} (hf : dispatchFront s.pbuf s.latch s.localPort = .error e) :
    bodyDispatch s = .error e := by
  rw [bodyDispatch, hf, error_bind]

theorem exec_dispatch_drop {d : Disp} (hf : dispatchFront s.pbuf s.latch s.localPort = .error (.drop d)) :
    exec .dispatch s = .next (dropCompletion s (dispCode d)) :=
  finish_of_drop true (bodyDispatch_of_front_error hf)

theorem exec_dispatch_front_error {e : Err} {info : Word} (he : e ≠ .bounds)
    (hf : dispatchFront s.pbuf s.latch s.localPort = .error (.raise e info)) :
    exec .dispatch s = .next (errorCompletion s e info 6) :=
  finish_of_raise_dispatch he (bodyDispatch_of_front_error hf)

/-- A DISPATCH whose frame is for this block ends as the parse of its TCP header ends (43_dispatcher.md R261). -/
theorem exec_dispatch_tcp_error {iphl : Nat} {e : Err} {info : Word} (he : e ≠ .bounds)
    (hf : dispatchFront s.pbuf s.latch s.localPort = .ok (h, iphl))
    (hp : tcpParse s.pbuf (s.latch.start.toNat + iphl) (h.totlen.toNat - iphl) = .error (.raise e info)) :
    exec .dispatch s = .next (errorCompletion s e info 6) :=
  finish_of_raise_dispatch he (by
    rw [bodyDispatch, hf, ok_bind]
    exact congrArg (· >>= _) hp)

theorem exec_dispatch_parsed {iphl tcphl : Nat} (hf : dispatchFront s.pbuf s.latch s.localPort = .ok (h, iphl))
    (hp : tcpParse s.pbuf (s.latch.start.toNat + iphl) (h.totlen.toNat - iphl) = .ok (th, opts, tcphl)) :
    exec .dispatch s = .next (successCompletion
      { s with
        iph := h
        tcph := th
        optcnt := BitVec.ofNat 6 opts.length
        opt := writeEntries s.opt 0 opts
        fk := { srcAddr := h.src, dstAddr := s.localAddr, srcPort := th.sport, dstPort := s.localPort }
        payloadOff := BitVec.ofNat 32 (s.latch.start.toNat + iphl + tcphl)
        payloadLen := BitVec.ofNat 32 (h.totlen.toNat - iphl - tcphl) }
      false 1 (BitVec.ofNat 32 (iphl + tcphl))) :=
  finish_of_ok (w := setFlow (storeTcp (setIph s h) th opts) (flowKey s h th)
      (BitVec.ofNat 32 (s.latch.start.toNat + iphl + tcphl)) (BitVec.ofNat 32 (h.totlen.toNat - iphl - tcphl))) true (by
    rw [bodyDispatch, hf, ok_bind]
    exact congrArg (· >>= _) hp)

/-- Settles O47: each conclusion is one check on the raw bytes, with those before it passed. -/
theorem dispatchDrops : Obligations.DispatchDrops := by
  refine fun s b0 b9 hi lo hr => ⟨fun hn => exec_dispatch_drop (dispatchFront_of_short hr hn), fun hn h0 =>
    ⟨fun hv => exec_dispatch_drop (dispatchFront_of_version hr hn h0 hv), fun hv h9 => ?_⟩⟩
  have hf := dispatchFront_of_first (lp := s.localPort) hr hn h0 hv h9
  refine ⟨fun hproto => ?_, fun hproto h5 hlen hhi hlo hport => ?_⟩
  · rw [if_pos hproto] at hf
    exact exec_dispatch_drop hf
  · have hread : readBytes s.pbuf (s.latch.start.toNat + 4 * (b0.toNat % 16) + 2) 2 = .ok [hi, lo] :=
      readBytes_of_bytesAt rfl (by omega) (bytesAt_cons.2 ⟨hhi, bytesAt_cons.2 ⟨hlo, nofun⟩⟩)
    rw [if_neg (not_not.2 hproto), if_neg (by omega), memRead16, hread, ok_bind, pure_eq_ok, ok_bind] at hf
    exact exec_dispatch_drop (hf.trans (congrArg (· >>= _) (failIf_pos hport)))

/-! ### Frames with an IPv4 header laid out -/

/-- DISPATCH from the header's parse on, for a frame of protocol TCP and the bound port (43_dispatcher.md R261). -/
theorem dispatchFront_ipRaw {rf df mf : Bool} (hr : l.start.toNat + l.len.toNat ≤ m.size) (hn : 40 ≤ l.len.toNat)
    (hb : bytesAt m l.start.toNat (ipRaw 4 rf df mf h)) (hproto : h.proto = 6) (h5 : 5 ≤ h.ihl.toNat)
    (hlen : 4 * h.ihl.toNat + 4 ≤ l.len.toNat)
    (hport : bytesAt m (l.start.toNat + 4 * h.ihl.toNat + 2) (bytes16 lp)) :
    dispatchFront m l lp = (do
      let (ip, iphl) ← ipParse m l.start.toNat l.len.toNat
      failIf (l.len.toNat < ip.totlen.toNat ∨ ip.totlen.toNat < iphl + 20) (.raise .frameLen (ip.totlen.setWidth 32))
      pure (ip, iphl)) := by
  have h0 : cellGet m.bytes l.start.toNat = some ((4 : BitVec 4) ++ h.ihl) := hb 0 (show 0 < 20 by decide)
  have h9 : cellGet m.bytes (l.start.toNat + 9) = some h.proto := hb 9 (show 9 < 20 by decide)
  have hihl : ((4 : BitVec 4) ++ h.ihl : Byte).toNat % 16 = h.ihl.toNat := by
    rw [← toNat_lowNibble, extract_append_low]
  have hf := dispatchFront_of_first (lp := lp) hr hn h0 (extract_append_high _ _) h9
  rw [hihl, if_neg (not_not.2 hproto), if_neg (by omega), memRead16_of_bytesAt (by omega) hport, ok_bind,
    failIf_neg (not_not.2 rfl), ok_bind] at hf
  exact hf

/-- The destination port is bytes 2 and 3 of a TCP header (30_encoding.md R103). -/
theorem bytesAt_dport {r : BitVec 4} {bs : List Byte} (hb : bytesAt m a (tcpWire th r ++ bs)) :
    bytesAt m (a + 2) (bytes16 th.dport) := by
  have hsplit : tcpWire th r ++ bs = bytes16 th.sport ++ (bytes16 th.dport ++ ((tcpWire th r).drop 4 ++ bs)) := rfl
  rw [hsplit, bytesAt_append, bytesAt_append] at hb
  exact hb.2.1

/-- A well-formed IPv4 header of protocol TCP, with a total length that fits the frame and the headers, and behind it a
TCP header for the bound port: the frame passes every check before its TCP header (43_dispatcher.md R261). -/
theorem dispatchFront_wire {rf df mf : Bool} {r : BitVec 4} {bs : List Byte}
    (hr : l.start.toNat + l.len.toNat ≤ m.size)
    (hb : bytesAt m l.start.toNat (ipRaw 4 rf df mf h)) (hdm : ¬(df = true ∧ mf = true)) (hproto : h.proto = 6)
    (h5 : 5 ≤ h.ihl.toNat) (htcp : bytesAt m (l.start.toNat + 4 * h.ihl.toNat) (tcpWire th r ++ bs))
    (hport : th.dport = lp) (hmin : 4 * h.ihl.toNat + 20 ≤ h.totlen.toNat) (hmax : h.totlen.toNat ≤ l.len.toNat) :
    dispatchFront m l lp = .ok ({ h with frag := fragOf df mf }, 4 * h.ihl.toNat) := by
  subst hport
  rw [dispatchFront_ipRaw hr (by omega) hb hproto h5 (by omega) (bytesAt_dport htcp),
    ipParse_wellFormed hr hb hdm h5 (by omega), ok_bind]
  exact congrArg (· >>= _) (failIf_neg (not_or.2 ⟨Nat.not_lt.2 hmax, Nat.not_lt.2 hmin⟩))

/-- A well-formed frame for the bound port is accepted with its headers, flow key and payload slice (43_dispatcher.md
R261, R270, R271). -/
theorem exec_dispatch_wellFormed {rf df mf : Bool} {r : BitVec 4} (hr : inRange s)
    (hb : bytesAt s.pbuf s.latch.start.toNat (ipRaw 4 rf df mf h)) (hdm : ¬(df = true ∧ mf = true))
    (hfrag : h.frag = fragOf df mf) (hproto : h.proto = 6) (h5 : 5 ≤ h.ihl.toNat)
    (htcp : bytesAt s.pbuf (s.latch.start.toNat + 4 * h.ihl.toNat) (tcpWire th r ++ wireBytes opts)) (ho : optsOk opts)
    (hport : th.dport = s.localPort) (hd : 5 ≤ th.doff.toNat) (hs : 20 + wireSize opts = 4 * th.doff.toNat)
    (hmin : 4 * h.ihl.toNat + 4 * th.doff.toNat ≤ h.totlen.toNat) (hmax : h.totlen.toNat ≤ s.latch.len.toNat) :
    exec .dispatch s = .next (successCompletion
      { s with
        iph := h
        tcph := th
        optcnt := BitVec.ofNat 6 opts.length
        opt := writeEntries s.opt 0 opts
        fk := { srcAddr := h.src, dstAddr := s.localAddr, srcPort := th.sport, dstPort := s.localPort }
        payloadOff := BitVec.ofNat 32 (s.latch.start.toNat + 4 * h.ihl.toNat + 4 * th.doff.toNat)
        payloadLen := BitVec.ofNat 32 (h.totlen.toNat - 4 * h.ihl.toNat - 4 * th.doff.toNat) }
      false 1 (BitVec.ofNat 32 (4 * h.ihl.toNat + 4 * th.doff.toNat))) := by
  have hfit : s.latch.start.toNat + s.latch.len.toNat ≤ s.pbuf.size := hr
  have hf := dispatchFront_wire hr hb hdm hproto h5 htcp hport (by omega) hmax
  rw [withFrag_of_eq hfrag] at hf
  exact exec_dispatch_parsed hf (tcpParse_wire ho hd hs (by omega) (by omega) htcp)

/-- Settles O49: the frame passes the checks, and its TCP header parses to its fields and options. -/
theorem dispatchAccepts : Obligations.DispatchAccepts := by
  intro s h rf df mf th r opts hr hb hdm hfrag hproto h5 htcp ho hport hd hs hmin hmax
  exact ⟨_, exec_dispatch_wellFormed hr hb hdm hfrag hproto h5 htcp ho hport hd hs hmin hmax,
    entriesWritten_writeEntries s.opt ho, length_le_optMax hs, rfl⟩

/-- Settles O48: each conclusion is one check with those before it passed, or the parse of the TCP header behind a
header that passes them all. -/
theorem dispatchErrors : Obligations.DispatchErrors := by
  refine ⟨fun s b0 h th r rf df mf => ⟨fun hb => ?_, fun hr hn h0 h9 hv hbad => ?_,
    fun hr hn hb hproto h5 hlen hport => ?_⟩, fun s h rf df mf th r opts k l p hr hb hdm hproto h5 hport hd ho htcp hmin
    hmax hp hlt => ?_⟩
  · exact finish_of_bounds true (bodyDispatch_of_front_error (dispatchFront_of_bounds hb))
  · refine exec_dispatch_front_error (by decide) ?_
    rw [dispatchFront_of_first hr hn h0 hv h9, if_neg (not_not.2 rfl), if_pos hbad]
  · have hf := dispatchFront_ipRaw hr hn hb hproto h5 hlen hport
    have hp := ipParse_ipRaw (n := s.latch.len.toNat) 4 rf df mf h (by omega) hb
    rw [if_neg (by omega), if_neg (by decide)] at hp
    refine ⟨fun hdf hmf => ?_, fun hdm hbad => ?_, fun hdm hmax hmin htcp hbad => ?_⟩
    · rw [hp, if_pos ⟨hdf, hmf⟩, error_bind] at hf
      exact exec_dispatch_front_error (by decide) hf
    · rw [hp, if_neg hdm, if_neg (by omega), ok_bind] at hf
      exact exec_dispatch_front_error (by decide) (hf.trans (congrArg (· >>= _) (failIf_pos hbad)))
    · rw [hp, if_neg hdm, if_neg (by omega), ok_bind] at hf
      refine exec_dispatch_tcp_error (by decide)
        (hf.trans (congrArg (· >>= _) (failIf_neg (not_or.2 ⟨Nat.not_lt.2 hmax, Nat.not_lt.2 hmin⟩)))) ?_
      rw [tcpParse, tcpFront_tcpWire th r (by omega) htcp, if_neg (by simp only; omega), if_pos hbad, error_bind]
  · have hb1 := htcp
    rw [List.append_assoc] at hb1
    have hf := dispatchFront_wire hr hb hdm hproto h5 hb1 hport (by omega) hmax
    obtain ⟨hunsup, hunknown, hlen⟩ :=
      tcpParse_badOption (n := h.totlen.toNat - 4 * h.ihl.toNat) (l := l) (by omega) hd (by omega) ho hp hlt htcp
    exact ⟨fun hk => exec_dispatch_tcp_error (by decide) hf (hunsup hk),
      fun h1 h2 h3 => exec_dispatch_tcp_error (by decide) hf (hunknown h1 h2 h3),
      fun hk hbad => exec_dispatch_tcp_error (by decide) hf (hlen hk hbad)⟩

/-! ### The payload slice -/

/-- The length a parse answers is that of its DOFF field: the nibble is read twice (41_tcp_codec.md R180). -/
theorem tcpParse_length {hl : Nat} (hp : tcpParse m a n = .ok (th, opts, hl)) : hl = 4 * th.doff.toNat := by
  simp only [tcpParse, tcpFront, bind_eq_ok, pure_eq_ok, Except.ok.injEq, Prod.mk.injEq, Prod.exists] at hp
  obtain ⟨h', hl', ⟨-, -, b12, hb12, -, -, bs, hbs, rfl, rfl⟩, -, -, rfl, -, rfl⟩ := hp
  have hbyte : b12 = byteAt bs 12 :=
    Option.some.inj ((readByte_eq_ok.1 hb12).2.symm.trans (cellGet_of_readBytes hbs (by decide)))
  rw [hbyte]
  rfl

/-- Settles O51: the lengths of both headers and the payload sum to the total length, which the frame holds, and no
index of a PBUF this small is cut. -/
theorem acceptedPayloadLiesInsideTheFrame : Obligations.AcceptedPayloadLiesInsideTheFrame := by
  intro s t hsize h h1
  obtain ⟨w, c, hb, rfl⟩ := exec_dispatch_accepted h h1
  obtain ⟨-, ip, iphl, tcp, opts, tcphl, hf, hp, rfl⟩ := bodyDispatch_ok hb
  obtain ⟨hr, -, hip, -, hmax, -⟩ := dispatchFront_ok hf
  obtain ⟨rfl, -, -, -⟩ := ipParse_ok hip
  obtain ⟨h20, hfit, -, -, -⟩ := tcpParse_ok hp
  have hlen := tcpParse_length hp
  change (BitVec.ofNat 32 (s.latch.start.toNat + 4 * ip.ihl.toNat + tcphl)).toNat =
      s.latch.start.toNat + 4 * ip.ihl.toNat + 4 * tcp.doff.toNat ∧
    4 * ip.ihl.toNat + 4 * tcp.doff.toNat + (BitVec.ofNat 32 (ip.totlen.toNat - 4 * ip.ihl.toNat - tcphl)).toNat =
      ip.totlen.toNat ∧
    (BitVec.ofNat 32 (s.latch.start.toNat + 4 * ip.ihl.toNat + tcphl)).toNat +
      (BitVec.ofNat 32 (ip.totlen.toNat - 4 * ip.ihl.toNat - tcphl)).toNat ≤ s.latch.start.toNat + s.latch.len.toNat
  have hdoff := tcp.doff.isLt
  rw [BitVec.toNat_ofNat, BitVec.toNat_ofNat, Nat.mod_eq_of_lt (by omega), Nat.mod_eq_of_lt (by omega)]
  omega

end Sys2Proof.Machine
end

section
/-!
PROOFS. The frame encoder: what it writes, its errors in their order, the frames it wrote accepted again, and the option
lists the encoders refuse (43_dispatcher.md section 3, 41_tcp_codec.md section 3).
-/
namespace Sys2Proof.Machine

variable {s : State} {opts : List TcpOption} {o : List (Nat × Word)} {heads : List Word} {w : Word} {i n : Nat}

/-! ### FRAME_ENCODE, check by check -/

theorem bodyFrameEncode_of_inRange (hr : inRange s) :
    bodyFrameEncode s = (do
      failIf (s.iph.totlen.toNat ≠ frameLength s) (.raise .encTotlenMismatch (BitVec.ofNat 32 (frameLength s)))
      checkIpEncode s.iph s.latch.len
      let ipImg ← ipImage false s.iph
      let tcpImg ← tcpImage false s.tcph s.optcnt s.opt
      pure (setResultLen (setPbuf s (pbufPutList s.pbuf s.latch.start.toNat (ipImg ++ tcpImg)))
        (s.iph.totlen.setWidth 32), false)) :=
  checkBounds_bind_of_inRange _ hr

theorem bodyFrameEncode_of_totlen (hr : inRange s) (ht : s.iph.totlen.toNat = frameLength s) :
    bodyFrameEncode s = (do
      checkIpEncode s.iph s.latch.len
      let ipImg ← ipImage false s.iph
      let tcpImg ← tcpImage false s.tcph s.optcnt s.opt
      pure (setResultLen (setPbuf s (pbufPutList s.pbuf s.latch.start.toNat (ipImg ++ tcpImg)))
        (s.iph.totlen.setWidth 32), false)) := by
  rw [bodyFrameEncode_of_inRange hr, failIf_neg (not_not.2 ht), ok_bind]

/-- FRAME_ENCODE is its TCP image, once the IPv4 header is as it should be (43_dispatcher.md R280). -/
theorem bodyFrameEncode_of_header (hr : inRange s) (ht : s.iph.totlen.toNat = frameLength s) (h5 : s.iph.ihl = 5)
    (h20 : 20 ≤ s.iph.totlen.toNat) (hn : s.iph.totlen.toNat ≤ s.latch.len.toNat) (hf : s.iph.frag ≠ 3) :
    bodyFrameEncode s = (do
      let tcpImg ← tcpImage false s.tcph s.optcnt s.opt
      pure (setResultLen (setPbuf s (pbufPutList s.pbuf s.latch.start.toNat (ipWire s.iph ++ tcpImg)))
        (s.iph.totlen.setWidth 32), false)) := by
  rw [bodyFrameEncode_of_totlen hr ht, checkIpEncode_ok h5 h20 hn, ok_bind, ipImage_of_frag_ne false hf, ok_bind,
    ipWire_eq]

/-- With IHL 5 a frame is 20 bytes, the TCP header and the payload (43_dispatcher.md R280). -/
theorem frameLength_of_ihl (h5 : s.iph.ihl = 5) :
    frameLength s = 20 + 4 * s.tcph.doff.toNat + s.latch.aux.toNat := by
  rw [frameLength, h5]
  rfl

theorem exec_frameEncode_imageError {e : Err} {info : Word} (hr : inRange s)
    (ht : s.iph.totlen.toNat = frameLength s) (h5 : s.iph.ihl = 5) (h20 : 20 ≤ s.iph.totlen.toNat)
    (hn : s.iph.totlen.toNat ≤ s.latch.len.toNat) (hf : s.iph.frag ≠ 3)
    (hi : tcpImage false s.tcph s.optcnt s.opt = .error (.raise e info)) :
    exec .frameEncode s = .next (errorCompletion s e info 0) :=
  finish_of_raise (by rw [bodyFrameEncode_of_header hr ht h5 h20 hn hf, hi, error_bind])

/-- FRAME_ENCODE of valid registers writes both headers from lat_start on (43_dispatcher.md R280). -/
theorem exec_frameEncode_valid (hr : inRange s) (hv : tcpValid s opts) (h5 : s.iph.ihl = 5) (hf : s.iph.frag ≠ 3)
    (ht : s.iph.totlen.toNat = 20 + 4 * s.tcph.doff.toNat + s.latch.aux.toNat)
    (hn : s.iph.totlen.toNat ≤ s.latch.len.toNat) :
    exec .frameEncode s = .next (encodedState s (ipWire s.iph ++ (tcpWire s.tcph 0 ++ wireBytes opts))
      (s.iph.totlen.setWidth 32)) :=
  finish_of_ok false (by
    rw [bodyFrameEncode_of_header hr (ht.trans (frameLength_of_ihl h5).symm) h5 (by omega) hn hf,
      tcpImage_of_valid false hv, ok_bind, tcpWire_eq]
    rfl)

/-- Both headers of a frame fill 20 + 4 DOFF bytes (43_dispatcher.md R280). -/
theorem length_headers (hv : tcpValid s opts) :
    (ipWire s.iph ++ (tcpWire s.tcph 0 ++ wireBytes opts)).length = 20 + 4 * s.tcph.doff.toNat := by
  rw [List.length_append, length_ipWire, length_tcpWire_append hv]

/-- Settles O52: every check passes, and the image is both headers as written. -/
theorem frameEncodeSucceeds : Obligations.FrameEncodeSucceeds := by
  intro s opts hr hv h5 hf ht hn
  obtain ⟨hkeep, hstate⟩ := encodedState_frame s (length_headers hv) (s.iph.totlen.setWidth 32)
  refine ⟨_, exec_frameEncode_valid hr hv h5 hf ht hn, ?_, fun a ha => hkeep a (by omega), hstate⟩
  rw [List.append_assoc]
  exact bytesAt_encodedState s _ _

/-- Settles O53: each conclusion is one check, with those before it passed. -/
theorem frameEncodeErrors : Obligations.FrameEncodeErrors := by
  rintro s _ rfl
  refine ⟨fun hb => ?_, fun hr ht => ?_, fun hr ht => ⟨fun hl => ?_, fun h5 h20 => ⟨fun hn => ?_, fun hn =>
    ⟨fun hf => ?_, fun hf hd => ?_, fun hf hd hc => ?_⟩⟩⟩⟩
  · exact finish_of_bounds false (checkBounds_bind_of_gt _ hb)
  · exact finish_of_raise (by
      rw [bodyFrameEncode_of_inRange hr]
      exact congrArg (· >>= _) (failIf_pos ht))
  · exact finish_of_raise (by rw [bodyFrameEncode_of_totlen hr ht, checkIpEncode_badLength hl, error_bind])
  · exact finish_of_raise (by rw [bodyFrameEncode_of_totlen hr ht, checkIpEncode_noRoom h5 h20 hn, error_bind])
  · exact finish_of_raise (by
      rw [bodyFrameEncode_of_totlen hr ht, checkIpEncode_ok h5 h20 hn, ok_bind, ipImage_of_frag_eq false hf,
        error_bind])
  · exact exec_frameEncode_imageError hr ht h5 h20 hn hf (tcpImage_badDoff false hd)
  · exact exec_frameEncode_imageError hr ht h5 h20 hn hf (tcpImage_tooMany false hd hc)

/-! ### Encoded frames are accepted -/

/-- Settles O54: what FRAME_ENCODE wrote is a well-formed frame laid out in PBUF, and its headers are the registers they
were made of. -/
theorem encodedFrameIsAccepted : Obligations.EncodedFrameIsAccepted := by
  intro s opts g gt c o hr hv h5 hf hproto ht hn hport
  have hvalid := hv
  obtain ⟨hd5, hcnt, -, hs, -⟩ := hvalid
  have ho := optsOk_of_valid hv
  have h5' : s.iph.ihl.toNat = 5 := by rw [h5]; rfl
  obtain ⟨hdm, hfrag⟩ := fragOf_flags hf
  have hbytes := bytesAt_encodedState s (ipWire s.iph ++ (tcpWire s.tcph 0 ++ wireBytes opts))
    (s.iph.totlen.setWidth 32)
  have hfit : s.latch.start.toNat + s.latch.len.toNat ≤ s.pbuf.size := hr
  rw [← size_encodedState s (ipWire s.iph ++ (tcpWire s.tcph 0 ++ wireBytes opts)) (s.iph.totlen.setWidth 32)] at hfit
  rw [bytesAt_append, length_ipWire, show s.latch.start.toNat + 20 = s.latch.start.toNat + 4 * s.iph.ihl.toNat by omega]
    at hbytes
  obtain ⟨hip, htcp⟩ := hbytes
  have hdisp := exec_dispatch_wellFormed
    (s := { encodedState s (ipWire s.iph ++ (tcpWire s.tcph 0 ++ wireBytes opts)) (s.iph.totlen.setWidth 32) with
      iph := g, tcph := gt, optcnt := c, opt := o })
    hfit hip hdm hfrag hproto (by omega) htcp ho hport hd5 (by omega) (by omega) hn
  refine ⟨_, _, exec_frameEncode_valid hr hv h5 hf ht hn, hdisp, rfl, rfl, rfl, ofNat_toNat_eq hcnt,
    entriesHold_of_written ho (entriesWritten_writeEntries o ho), rfl, ?_, ofNat_toNat_eq (by omega)⟩
  change BitVec.ofNat 32 (s.latch.start.toNat + 4 * s.iph.ihl.toNat + 4 * s.tcph.doff.toNat) = _
  rw [h5']

/-! ### Option lists the encoders refuse -/

theorem checkKind_unsupported {k : Byte} (hk : k = 29 ∨ k = 30) :
    checkKind k i = .error (.raise .tcpOptUnsupported (BitVec.ofNat 32 i)) := by
  rw [checkKind, failIf_pos hk, error_bind]

theorem checkKind_unknown {k : Byte} (hk : k ∉ encodableKinds) (h29 : k ≠ 29) (h30 : k ≠ 30) :
    checkKind k i = .error (.raise .tcpOptUnknown (BitVec.ofNat 32 i)) := by
  rw [checkKind, failIf_neg (not_or.2 ⟨h29, h30⟩), ok_bind]
  exact failIf_pos hk

theorem checkKind_encodable {k : Byte} (hk : k ∈ encodableKinds) : checkKind k i = .ok () := by
  have hsup : ¬(k = 29 ∨ k = 30) := by rintro (rfl | rfl) <;> exact absurd hk (by decide)
  rw [checkKind, failIf_neg hsup, ok_bind]
  exact failIf_neg (not_not.2 hk)

/-- Entries of supported kinds are read over (41_tcp_codec.md R194). -/
theorem readHeads_append
    (h : ∀ j (hj : j < heads.length), cellGet o (12 * (i + j)) = some heads[j] ∧ headKind heads[j] ∈ encodableKinds) :
    readHeads o i (heads.length + n) = (heads ++ ·) <$> readHeads o (i + heads.length) n := by
  induction heads generalizing i with
  | nil => rw [List.length_nil, Nat.zero_add, Nat.add_zero]; exact (id_map _).symm
  | cons w heads ih =>
    obtain ⟨hw, hk⟩ := h 0 (Nat.zero_lt_succ _)
    have hrest := ih (i := i + 1) fun j hj => by
      have hj' := h (j + 1) (Nat.succ_lt_succ hj)
      rwa [← Nat.add_assoc, Nat.add_right_comm] at hj'
    rw [List.length_cons, Nat.add_right_comm, readHeads, readOpt_of_get hw, ok_bind, checkKind_encodable hk, ok_bind,
      hrest, Nat.add_right_comm, ← Nat.add_assoc]
    cases readHeads o (i + heads.length + 1) n <;> rfl

/-- The first entry of another kind stops the reading with its own error (41_tcp_codec.md R194). -/
theorem tcpImage_badKind {z : Bool} {e : Stop} (h5 : 5 ≤ s.tcph.doff.toNat) (hc : s.optcnt.toNat ≤ Config.optMax)
    (h : ∀ j (hj : j < heads.length), cellGet s.opt (12 * j) = some heads[j] ∧ headKind heads[j] ∈ encodableKinds)
    (hlt : heads.length < s.optcnt.toNat) (hw : cellGet s.opt (12 * heads.length) = some w)
    (he : checkKind (headKind w) heads.length = .error e) : tcpImage z s.tcph s.optcnt s.opt = .error e := by
  obtain ⟨k, hk⟩ : ∃ k, s.optcnt.toNat = heads.length + (k + 1) := ⟨s.optcnt.toNat - heads.length - 1, by omega⟩
  rw [tcpImage, failIf_neg (by omega), ok_bind, failIf_neg (by omega), ok_bind, hk,
    readHeads_append (by simpa only [Nat.zero_add] using h), Nat.zero_add, readHeads, readOpt_of_get hw, ok_bind, he]
  rfl

/-- A list of supported kinds of the wrong total size has no image (41_tcp_codec.md R194). -/
theorem tcpImage_badSize {z : Bool} (h5 : 5 ≤ s.tcph.doff.toNat) (hc : s.optcnt.toNat ≤ Config.optMax)
    (h : ∀ j (hj : j < heads.length), cellGet s.opt (12 * j) = some heads[j] ∧ headKind heads[j] ∈ encodableKinds)
    (hlen : heads.length = s.optcnt.toNat) (hs : (heads.map entrySize).sum ≠ 4 * s.tcph.doff.toNat - 20) :
    tcpImage z s.tcph s.optcnt s.opt = .error (.raise .encOptLen (BitVec.ofNat 32 (heads.map entrySize).sum)) := by
  have hread : readHeads s.opt 0 s.optcnt.toNat = .ok heads := by
    rw [← hlen]
    exact (readHeads_append (n := 0) (by simpa only [Nat.zero_add] using h)).trans
      (congrArg Except.ok (List.append_nil heads))
  rw [tcpImage, failIf_neg (by omega), ok_bind, failIf_neg (by omega), ok_bind, hread, ok_bind]
  exact congrArg (· >>= _) (failIf_pos hs)

/-- Settles O38: the three commands end as their image ends, and the image stops at the entry or the sum. -/
theorem encodersRefuseBadOptionLists : Obligations.EncodersRefuseBadOptionLists := by
  intro i s heads w hr h5 hc hi h
  have hend : ∀ e info, (∀ z, tcpImage z s.tcph s.optcnt s.opt = .error (.raise e info)) →
      exec i s = .next (errorCompletion s e info 0) := by
    intro e info himg
    obtain ⟨rfl, hn⟩ | rfl | ⟨rfl, hihl, hf, hn, ht⟩ := hi
    · exact finish_of_raise (by rw [bodyTcpEncode_of_room hr h5 hn, himg, error_bind])
    · exact exec_tcpCsum_imageError hr (himg true)
    · exact exec_frameEncode_imageError hr (ht.trans (frameLength_of_ihl hihl).symm) hihl (by omega) hn hf (himg false)
  refine ⟨fun hlt hw => ⟨fun hk => ?_, fun hk h29 h30 => ?_⟩, fun hlen hs => ?_⟩
  · exact hend _ _ fun z => tcpImage_badKind h5 hc h hlt hw (checkKind_unsupported hk)
  · exact hend _ _ fun z => tcpImage_badKind h5 hc h hlt hw (checkKind_unknown hk h29 h30)
  · exact hend _ _ fun z => tcpImage_badSize h5 hc h hlen hs

end Sys2Proof.Machine
end

section
/-!
PROOFS. What each command's completion leaves unchanged (30_encoding.md section 4, 20_memory.md section 3,
60_exceptions.md section 2).
-/
namespace Sys2Proof.Machine

variable {s t : State} {o : List (Nat × Word)} {opts : List TcpOption} {k : Nat}

/-! ### Checksums and encoders -/

/-- Everything but PBUF and what every completion writes is kept, and in PBUF every byte but the `k` from lat_start on
(20_memory.md section 3). -/
def writesOnlyHeaders (s : State) (k : Nat) (t : State) : Prop :=
  t = { s with status := t.status, errInfo := t.errInfo, resultLen := t.resultLen, walk := t.walk,
               pbuf := { s.pbuf with bytes := t.pbuf.bytes } } ∧
    t.status.ovr = s.status.ovr ∧
    ∀ a, a < s.latch.start.toNat ∨ s.latch.start.toNat + k ≤ a → readByte t.pbuf a = readByte s.pbuf a

/-- An encoder whose image has `k` bytes writes only these. -/
theorem writesOnlyHeaders_of_finish {r : Except Stop (State × Bool)} (h : finish s false r = .next t)
    (hok : ∀ w c, r = .ok (w, c) → ∃ bs n, bs.length = k ∧
      w = setResultLen (setPbuf s (pbufPutList s.pbuf s.latch.start.toNat bs)) n) : writesOnlyHeaders s k t := by
  rcases finish_cases h with ⟨w, c, hr, rfl⟩ | ⟨e, info, -, rfl⟩ | ⟨x, -, rfl⟩
  · obtain ⟨bs, n, rfl, rfl⟩ := hok w c hr
    exact ⟨rfl, rfl, fun a ha => readByte_putList_out ha⟩
  · exact ⟨rfl, rfl, fun _ _ => rfl⟩
  · exact ⟨rfl, rfl, fun _ _ => rfl⟩

/-- Settles O23: the working copies of the five commands differ from the block only there. -/
theorem encoderAndChecksumFrame : Obligations.EncoderAndChecksumFrame := by
  refine ⟨fun i s t hi h => ?_, fun i s t hi h => ?_⟩
  · obtain rfl | rfl := hi
    · rcases finish_cases (r := bodyIpCsum s) h with ⟨w, c, hb, rfl⟩ | ⟨e, info, -, rfl⟩ | ⟨x, -, rfl⟩
      · obtain ⟨-, -, rfl⟩ := bodyIpCsum_ok hb
        exact ⟨rfl, rfl, fun _ => rfl⟩
      · exact ⟨rfl, rfl, fun _ => rfl⟩
      · exact ⟨rfl, rfl, fun _ => rfl⟩
    · rcases finish_cases (r := bodyTcpCsum s) h with ⟨w, c, hb, rfl⟩ | ⟨e, info, -, rfl⟩ | ⟨x, -, rfl⟩
      · obtain ⟨-, img, pay, x, -, -, -, -, rfl⟩ := bodyTcpCsum_ok hb
        exact ⟨rfl, rfl, fun _ => rfl⟩
      · exact ⟨rfl, rfl, fun _ => rfl⟩
      · exact ⟨rfl, rfl, fun _ => rfl⟩
  · obtain rfl | rfl | rfl := hi
    · exact writesOnlyHeaders_of_finish h fun w c hb => by
        obtain ⟨-, -, -, -, rfl⟩ := bodyIpEncode_ok hb
        exact ⟨_, _, length_ipBytes _ _, rfl⟩
    · exact writesOnlyHeaders_of_finish h fun w c hb => by
        obtain ⟨-, -, -, img, himg, rfl⟩ := bodyTcpEncode_ok hb
        exact ⟨_, _, (tcpImage_length himg).1, rfl⟩
    · exact writesOnlyHeaders_of_finish h fun w c hb => by
        obtain ⟨-, -, -, -, -, -, img, himg, rfl⟩ := bodyFrameEncode_ok hb
        refine ⟨_, _, ?_, rfl⟩
        rw [List.length_append, length_ipBytes, (tcpImage_length himg).1]
        rfl

/-! ### Decoders -/

/-- OPTCNT counts every option of a parsed list, and the words past these entries are kept (41_tcp_codec.md R195). -/
theorem storeTcp_out (hl : opts.length ≤ Config.optMax) (hk : 12 * (BitVec.ofNat 6 opts.length).toNat ≤ k) :
    cellGet (writeEntries o 0 opts) k = cellGet o k := by
  have h40 : opts.length ≤ 40 := hl
  rw [BitVec.toNat_ofNat, Nat.mod_eq_of_lt (by omega)] at hk
  exact writeEntries_out (.inr (by omega))

/-- Settles O24: the working copies of the three decoders differ from the block only there. -/
theorem decoderFrame : Obligations.DecoderFrame := by
  refine fun s t => ⟨fun h => ?_, fun h => ?_, fun h => ?_⟩
  · rcases finish_cases (r := bodyIpDecode s) h with ⟨w, c, hb, rfl⟩ | ⟨e, info, -, rfl⟩ | ⟨x, -, rfl⟩
    · obtain ⟨-, -, ip, hl, -, rfl⟩ := bodyIpDecode_ok hb
      exact ⟨rfl, rfl, fun _ => rfl⟩
    · exact ⟨rfl, rfl, fun _ => rfl⟩
    · exact ⟨rfl, rfl, fun _ => rfl⟩
  · rcases finish_cases (r := bodyTcpDecode s) h with ⟨w, c, hb, rfl⟩ | ⟨e, info, -, rfl⟩ | ⟨x, -, rfl⟩
    · obtain ⟨-, -, tcp, opts, hl, hp, rfl⟩ := bodyTcpDecode_ok hb
      obtain ⟨-, -, -, -, hmax⟩ := tcpParse_ok hp
      exact ⟨rfl, rfl, fun _ k hk => storeTcp_out hmax hk, fun _ => rfl⟩
    · exact ⟨rfl, rfl, fun _ _ _ => rfl, fun _ => rfl⟩
    · exact ⟨rfl, rfl, fun _ _ _ => rfl, fun _ => rfl⟩
  · rcases finish_cases (r := bodyDispatch s) h with ⟨w, c, hb, -⟩ | ⟨e, info, -, rfl⟩ | ⟨x, -, rfl⟩
    · obtain ⟨-, ip, iphl, tcp, opts, tcphl, hf, hp, -⟩ := bodyDispatch_ok hb
      obtain ⟨-, -, -, -, hmax⟩ := tcpParse_ok hp
      obtain rfl := Host.Outcome.next.inj (h.symm.trans (exec_dispatch_parsed hf hp))
      exact ⟨rfl, rfl, fun _ k hk => storeTcp_out hmax hk, fun h1 => absurd rfl h1, fun _ => rfl⟩
    · exact ⟨rfl, rfl, fun _ _ _ => rfl, fun _ => ⟨rfl, rfl, rfl, rfl, rfl, rfl, rfl⟩, fun _ => rfl⟩
    · exact ⟨rfl, rfl, fun _ _ _ => rfl, fun _ => ⟨rfl, rfl, rfl, rfl, rfl, rfl, rfl⟩, fun _ => rfl⟩

end Sys2Proof.Machine
end

section
/-!
PROOFS. The table words and their encodings (30_encoding.md), and the register map on the host ports: offsets, reserved
offsets, refusals, and reads while a command runs (10_state.md section 2, 70_reset_and_hazards.md R353).
-/
namespace Sys2Proof.Machine

variable {s : State} {off i n : Nat} {v : Word} {b : Byte}

/-! ### Words of the tables -/

theorem bytes16_append (hi lo : Byte) : bytes16 (hi ++ lo) = [hi, lo] := by
  rw [bytes16, extract_append_high, extract_append_low]

theorem bytes32_append (a b c d : Byte) : bytes32 (a ++ b ++ c ++ d) = [a, b, c, d] := by
  have hskip : ∀ {k : Nat} (x : BitVec k) (y : Byte) (start : Nat),
      (x ++ y).extractLsb' (start + 8) 8 = x.extractLsb' start 8 := fun x y start =>
    BitVec.extractLsb'_append_eq_of_le (Nat.le_add_left 8 start)
  have ha := (hskip (a ++ b ++ c) d 16).trans ((hskip (a ++ b) c 8).trans (extract_append_high a b))
  have hb := (hskip (a ++ b ++ c) d 8).trans ((hskip (a ++ b) c 0).trans (extract_append_low a b))
  have hc := (hskip (a ++ b ++ c) d 0).trans (extract_append_low (a ++ b) c)
  exact congrArg₂ _ ha (congrArg₂ _ hb (congrArg₂ _ hc (congrArg₂ _ (extract_append_low (a ++ b ++ c) d) rfl)))

/-- Settles O1: the words are literals, and big-endian bytes take a value apart as it was put together. -/
theorem wordsOfTheTables : Obligations.WordsOfTheTables := by
  refine ⟨rfl, rfl, rfl, rfl, rfl, rfl, rfl, rfl, rfl, rfl, rfl, rfl, rfl, rfl, fun hi lo => ?_, fun _ => rfl, rfl,
    fun a b c d e f g h => ?_, fun a b c d e f g h => ?_, fun hi lo => ?_⟩
  · rw [optBytes, bytes16_append]
    rfl
  · simp only [optBytes, List.flatMap_cons, List.flatMap_nil, bytes32_append]
    rfl
  · rw [optBytes, bytes32_append, bytes32_append]
    rfl
  · rw [optBytes, bytes16_append]
    rfl

/-! ### Decoding what was encoded -/

/-- A kind byte is the encoding of the option it decodes to (30_encoding.md R107). -/
theorem encode_of_decodeOptionKind {k : Byte} {i : Instr} (h : decodeOptionKind k = .ok i) :
    encode i = .optionKind k := by
  unfold decodeOptionKind at h
  split at h <;> cases h
  all_goals exact congrArg InstrWord.optionKind (BitVec.eq_of_toNat_eq (Eq.symm (by assumption)))

/-- An opcode is the encoding of the command it decodes to (30_encoding.md R120). -/
theorem encode_decodeOp : ∀ op : BitVec 4, encode (decodeOp op) = .command (op.setWidth 32) := by decide

/-- Settles O3: both tables are read row by row. -/
theorem encodeDecodeAgree : Obligations.EncodeDecodeAgree := by
  refine ⟨fun i _ => ?_, fun k i h => encode_of_decodeOptionKind h, fun w i h => ?_⟩
  · cases i <;> rfl
  · cases h
    exact encode_decodeOp (opOfWord w)

/-! ### The register map -/

/-- Settles O4: the offset of each register names it, and an idle read answers what it holds. -/
theorem registerMapRoundTrips : Obligations.RegisterMapRoundTrips := by
  refine ⟨fun r hw hr => ⟨regOffsetOk_regOffset hw, regAt_regOffset hw hr⟩, fun s off v hb h => ?_⟩
  obtain ⟨ho, hv⟩ := readReg_of_heldAt h
  exact regRead_idle ho hb hv

/-- Settles O8: the register at a reserved offset is `.reserved`, which no command writes and no host write changes. -/
theorem reservedOffsetsReadZero : Obligations.ReservedOffsetsReadZero := by
  intro s off v h4 h hr
  have ho := regOffsetOk_iff.2 ⟨h4, h⟩
  have hreg := regAt_reserved h4 h hr
  refine ⟨regRead_exact ho (by rw [hreg]; rfl) (by rw [hreg]; rfl), ?_⟩
  rw [regWrite_idle ho (by rw [hreg]; exact Bool.and_false _), hreg]
  rfl

/-- Settles O11: the ports look at the offset or index first, then at whether there is a value. -/
theorem hostAccessStops : Obligations.HostAccessStops := by
  refine ⟨fun s off v h => ?_, fun s i b h => ?_, fun s i hi hg => bufRead_unwritten hi hg, fun s i w hi hw hg => ?_⟩
  · have ho : ¬regOffsetOk off = true := fun hok => by
      obtain ⟨h4, hle⟩ := regOffsetOk_iff.1 hok
      omega
    exact ⟨if_neg ho, if_neg ho⟩
  · exact ⟨if_neg (by omega), if_neg (by omega)⟩
  · refine regRead_fault (regOffsetOk_iff.2 ⟨by omega, by omega⟩) ?_
    rw [regAt_opt hi hw, readReg, optKey, hg]

/-! ### Reads while a command runs -/

/-- A read of what the running command may write is a free value of the register's width (70_reset_and_hazards.md
R353). -/
theorem regRead_free (ho : regOffsetOk off = true) (hb : s.status.busy = true) (hm : mayWriteReg s (regAt off) = true)
    (hv : readReg s (regAt off) = .ok v) :
    regRead s off = .ok (freeField s.draws (regWidth (regAt off)), setDraws s (s.draws + 1)) := by
  simp only [regRead, ho, hv, hb, hm, Bool.and_self, if_true]

/-- A free read of a register of 32 bits (70_reset_and_hazards.md R353). -/
theorem regRead_word {r : Reg} (hw : r.wellFormed = true) (hr : r ≠ .reserved) (hb : s.status.busy = true)
    (hm : mayWriteReg s r = true) (hv : readReg s r = .ok v) (h32 : regWidth r = 32) :
    regRead s (regOffset r) = .ok (Config.freeRead s.draws, setDraws s (s.draws + 1)) := by
  have ha := regAt_regOffset hw hr
  rw [regRead_free (regOffsetOk_regOffset hw) hb (by rw [ha, hm]) (by rw [ha, hv]), ha, h32, freeField,
    BitVec.setWidth_eq, BitVec.setWidth_eq]

/-- The class of a register below the options, by its offset (10_state.md sections 2.1 to 2.3). -/
theorem regClass_low : ∀ off < 0x100, off % 4 = 0 →
    (regClass (regAt off) = .results ↔ 0x018 ≤ off ∧ off ≤ 0x020) ∧
    (regClass (regAt off) = .flow ↔ 0x02C ≤ off ∧ off ≤ 0x040) ∧
    (regClass (regAt off) = .iph ↔ 0x084 ≤ off ∧ off ≤ 0x0B0) ∧
    (regClass (regAt off) = .tcph ↔ 0x0C0 ≤ off ∧ off ≤ 0x0E4) ∧
    regClass (regAt off) ≠ .optWord := by
  decide +kernel

/-- The option words the running command may write (70_reset_and_hazards.md R353, log 6). -/
theorem mayWriteReg_opt {w : Nat} :
    mayWriteReg s (.opt i w) = true ↔ (s.latch.op = 3 ∧ i < decodeCount s) ∨ s.latch.op = 7 := by
  simp only [mayWriteReg, regClass, Bool.or_eq_true, Bool.and_eq_true, beq_iff_eq, decide_eq_true_iff]

/-- IP_DECODE and DISPATCH write the IPH registers, IPH_SRC among them (70_reset_and_hazards.md R353). -/
theorem mayWriteReg_iphSrc : mayWriteReg s .iphSrc = true ↔ s.latch.op = 1 ∨ s.latch.op = 7 := by
  simp only [mayWriteReg, regClass, Bool.or_eq_true, beq_iff_eq]

/-- What the running command may write, by offset (70_reset_and_hazards.md R353). -/
theorem mayWriteReg_iff (ho : regOffsetOk off = true) :
    mayWriteReg s (regAt off) = true ↔ inWriteSet s.latch.op (decodeCount s) off := by
  obtain ⟨h4, hle⟩ := regOffsetOk_iff.1 ho
  by_cases hlow : off < 0x100
  · obtain ⟨hres, hflow, hiph, htcph, hopt⟩ := regClass_low off hlow h4
    have hword : ¬isOptWord off := fun h => by omega
    simp only [inWriteSet, ← hres, ← hflow, ← hiph, ← htcph, hword, and_false, or_false]
    cases hc : regClass (regAt off) with
    | optWord => exact absurd hc hopt
    | _ => simp [mayWriteReg, hc]
  · by_cases hw : isOptWord off
    · have hentry : (off - 0x100) / 0x30 < decodeCount s ↔ off < 0x100 + 0x30 * decodeCount s := by omega
      have hres : ¬off ≤ 0x020 := by omega
      have hflow : ¬off ≤ 0x040 := by omega
      have hiph : ¬off ≤ 0x0B0 := by omega
      have htcph : ¬off ≤ 0x0E4 := by omega
      rw [regAt_optWord hle hw, mayWriteReg_opt, hentry]
      simp only [inWriteSet, hres, hflow, hiph, htcph, and_false, false_or, and_iff_left hw]
      exact or_comm
    · rw [regAt_reserved h4 hle (by omega)]
      exact ⟨nofun, by omega⟩

theorem decodeCount_eq (h : mayDecode s n) : n = decodeCount s := by
  obtain ⟨hok, herr⟩ := h
  unfold decodeCount
  split
  · next h => exact hok _ _ _ h
  · next h => exact herr _ h

/-- What the running command may write of PBUF (20_memory.md R76). -/
theorem mayWriteBuf_iff : mayWriteBuf s i = true ↔ inBufWriteSet s i := by
  simp only [mayWriteBuf, inBufWriteSet, Bool.and_eq_true, decide_eq_true_iff]
  refine and_congr_right fun hstart => ?_
  by_cases h2 : s.latch.op = 2
  · simp [h2]
  · by_cases h4 : s.latch.op = 4
    · simp [h4]
    · by_cases h8 : s.latch.op = 8
      · simp [h8, Nat.add_assoc]
      · rw [if_neg h2, if_neg h4, if_neg h8]
        simp only [h2, h4, h8, false_and, or_false, iff_false]
        omega

theorem bufRead_free (hi : i < s.pbuf.size) (hg : cellGet s.pbuf.bytes i = some b) (hb : s.status.busy = true)
    (hm : mayWriteBuf s i = true) :
    bufRead s i = .ok ((Config.freeRead s.draws).setWidth 8, setDraws s (s.draws + 1)) := by
  simp only [bufRead, hi, hg, hb, hm, Bool.and_self, if_true]

theorem bufRead_exact (hi : i < s.pbuf.size) (hg : cellGet s.pbuf.bytes i = some b) (hm : mayWriteBuf s i = false) :
    bufRead s i = .ok (b, s) := by
  simp only [bufRead, hi, hg, hm, Bool.and_false, if_true]
  rfl

/-- Settles O12: the write set of the running command decides between the two reads. -/
theorem readsDuringBusy : Obligations.ReadsDuringBusy := by
  refine ⟨fun s off n v hb h hn => ?_, fun s i b hb hi hg => ?_, fun s hb => ?_, fun s t off v h => ?_,
    fun s t i b h => ?_⟩
  · obtain ⟨ho, hv⟩ := readReg_of_heldAt h
    obtain rfl := decodeCount_eq hn
    exact ⟨fun hin => regRead_free ho hb ((mayWriteReg_iff ho).2 hin) hv, fun hout =>
      regRead_exact ho (Bool.eq_false_iff.2 fun hm => hout ((mayWriteReg_iff ho).1 hm)) hv⟩
  · exact ⟨fun hin => bufRead_free hi hg hb (mayWriteBuf_iff.2 hin), fun hout =>
      bufRead_exact hi hg (Bool.eq_false_iff.2 fun hm => hout (mayWriteBuf_iff.1 hm))⟩
  · exact ⟨regRead_word (r := .resultLen) rfl nofun hb rfl rfl rfl,
      regRead_word (r := .errInfo) rfl nofun hb rfl rfl rfl,
      regRead_free (off := 0x020) rfl hb rfl rfl,
      regRead_named (r := .cmd) rfl nofun (.inr rfl) rfl,
      regRead_named (r := .ctrl) rfl nofun (.inr rfl) rfl,
      regRead_named (r := .argStart) rfl nofun (.inr rfl) rfl,
      regRead_named (r := .argLen) rfl nofun (.inr rfl) rfl,
      regRead_named (r := .argAux) rfl nofun (.inr rfl) rfl,
      regRead_named (r := .localAddr) rfl nofun (.inr rfl) rfl,
      regRead_named (r := .localPort) rfl nofun (.inr rfl) rfl,
      fun h1 h7 => regRead_named (r := .iphSrc) rfl nofun
        (.inr (Bool.eq_false_iff.2 fun hm => (mayWriteReg_iphSrc.1 hm).elim h1 h7)) rfl,
      fun h => regRead_word (r := .iphSrc) rfl nofun hb (mayWriteReg_iphSrc.2 h) rfl rfl⟩
  · obtain ⟨hidle, rfl | rfl⟩ := regRead_eq_ok h
    · exact ⟨hidle, rfl⟩
    · exact ⟨hidle, rfl⟩
  · obtain ⟨hidle, rfl | rfl⟩ := bufRead_eq_ok h
    · exact ⟨hidle, rfl⟩
    · exact ⟨hidle, rfl⟩

end Sys2Proof.Machine
end
